-- ==== Sys2Proof/Word.lean ====
section
/-! DEFINITION. The widths of the machine: names for the bit vectors the spec gives its values (00_scope.md R3, R7, R8). -/

namespace Sys2Proof

/-- A byte: a general register, a cell of either memory, a value on the d-bus or the s-bus (R3, R20). -/
abbrev Byte := BitVec 8

/-- A data address, a stack pointer, a register pair (R21, R24, R50). -/
abbrev DataAddr := BitVec 16

/-- A program address (R22, R50). -/
abbrev ProgAddr := BitVec 12

/-- A 4-bit register field: r0..r7 are 0..7, a0..a7 are 8..15 (R20, R83). -/
abbrev RegNum := BitVec 4

/-- A 3-bit pair index: i selects a_i & r_i (R21, R84). -/
abbrev PairIdx := BitVec 3

/-- An interrupt number, which is also the index of its vector register (R27, R83, R231). -/
abbrev IntNum := BitVec 4

end Sys2Proof
end

