-- ==== Sys2Proof/Config.lean ====
section
/-! DEFINITION. What an implementation fixes (00_scope.md R6) and the values the spec leaves free (93_implementation_defined.md).
The synthesis-time parameters are plain data (`Params`), held by State and changed by no step, so that a claim about every
state is a claim about every configuration (log 3). A free value is an opaque constant: nothing can be proved of it but
what holds of every value. -/

namespace Sys2Proof

/-- A window of data addresses that a memory-mapped peripheral recognises as its own (PERIPH_MAP, R6, R64). -/
structure PeriphWindow where
  /-- the first address -/
  base : Nat
  /-- how many addresses -/
  size : Nat
  /-- whether the peripheral answers reads of them on `auxdout` (R54) -/
  readable : Bool
  deriving DecidableEq, Repr

/-- The parameters of the example DMA controller (60_exceptions.md R254). -/
structure DmaParams where
  /-- DMA_G, 0..4: a transfer moves (n + 1) << g bytes -/
  g : Nat
  /-- the i-bus line its irq drives, "per user preference" (R231) -/
  line : IntNum
  deriving DecidableEq, Repr

/-- The OPEN parameters of R6, fixed for a machine. -/
structure Params where
  /-- PRAM_SIZE, 1..4096 -/
  pramSize : Nat
  /-- DRAM_SIZE, 1..65536 -/
  dramSize : Nat
  /-- NS, 1..8: register pairs saved on interrupt entry -/
  ns : Nat
  /-- PERIPH_MAP -/
  periphs : List PeriphWindow
  /-- the example DMA controller, when the platform has one -/
  dma : Option DmaParams
  deriving DecidableEq, Repr

/-- The s-bus value that means END (R6: 0xFF). -/
def endCode : Byte := 0xFF

/-- The first of the sixteen s-bus codes that acknowledge an interrupt (R6, R241: 0x10 + k acknowledges interrupt k). -/
def ackBase : Byte := 0x10

/-- The first data address of the example DMA controller's six registers (R254). -/
def dmaBase : Nat := 0x0100

/-- What the machine shows its environment, in order: the s-bus outputs (R33), the data writes with their address and
value (auxaddr and auxdin, R55), the addresses of the data reads (auxaddr, R54). So every access to a peripheral's address
is an event (R61), whether the peripheral answers reads there or not. -/
inductive Event where
  | sbusOut (v : Byte)
  | dataWrite (a : DataAddr) (v : Byte)
  | dataRead (a : DataAddr)
  deriving DecidableEq, Repr

/-- The six operations whose entry says "Updates Z, N, C, X flags" (R131). -/
inductive ArithOp where
  | add | sub | adc | sbc | adi | sbi
  deriving DecidableEq, Repr

/-- The four shifts and rotates (R146). -/
inductive ShiftOp where
  | sll | rol | srl | ror
  deriving DecidableEq, Repr

/-- The seven instruction set extensions (R2). -/
inductive IseOp where
  | asb | aib | amc | aic | swd | gsp | gip
  deriving DecidableEq, Repr

/-- All that an ISE call can depend on: the inputs of the aluc port (R161), the ISE's own state before the call
(R165; zero for the stateless asb and aib), and the model's tick (log 10). -/
structure IseCall where
  op : IseOp
  a : Byte
  b : Byte
  sr : Byte
  cnt : Nat
  inBuf : BitVec 128
  outBuf : BitVec 128
  tick : Nat
  deriving DecidableEq, Repr

/-- FREE VALUE `alu_x`: flag X after add, sub, adc, sbc, adi, sbi (R131, UB5, log 4), whatever the operands, the old sr
and the moment make it. -/
opaque Config.aluX (op : ArithOp) (a b sr : Byte) (tick : Nat) : Bool

/-- FREE VALUE `shift_ge8`: the result of a shift or rotate of `v` whose count `n` is 8..255 (R146, UB6, log 5). -/
opaque Config.shiftGe8 (op : ShiftOp) (v n : Byte) (tick : Nat) : Byte

/-- FREE VALUE `ise_sr`: the `sr_out` an ISE returns (R163, UB9, log 6). -/
opaque Config.iseSr (c : IseCall) : Byte

/-- FREE VALUE `ise_load_result`: what a load-only ISE call writes to its destination (R165, UB8, log 7). -/
opaque Config.iseLoadResult (c : IseCall) : Byte

/-- FREE VALUE `lpb_same_reg`: r_i after `lpb i, r_i`, of the loaded and the incremented value (R192, UB7, log 8). -/
opaque Config.lpbSameReg (loaded incremented : Byte) (tick : Nat) : Byte

/-- FREE VALUE `periph_read`: the byte a peripheral drives when the core reads an address it answers, after all the
peripherals have seen (R54, UB14, log 9). -/
opaque Config.periphRead (a : DataAddr) (seen : List Event) (tick : Nat) : Byte

end Sys2Proof
end

