-- ==== Sys2Proof/Syntax.lean ====
section
/-! DEFINITION. The instructions: one constructor per row of spec/opcode_table.json (30_encoding.md R96). Operands
carry the table's field names and widths: `s` and `d` register numbers (R83), `i` a pair index (R84), `v` the register a
store writes out (R82), `k` a vector index, `im` an immediate of 12, 8 or 4 bits (R85 to R87). -/

namespace Sys2Proof

inductive Instr where
  -- opc1 0000 to 1000 (40_move_immediate_and_control.md)
  | mvs (im : BitVec 12)
  | mvv (k : IntNum) (im : Byte)
  | jmp (im : ProgAddr)
  | jsr (im : ProgAddr)
  | bzi (im : ProgAddr)
  | bni (im : ProgAddr)
  | bci (im : ProgAddr)
  | bxi (im : ProgAddr)
  | mvi (d : RegNum) (im : Byte)
  -- the alu group (41_alu.md)
  | add (s d : RegNum)
  | sub (s d : RegNum)
  | and (s d : RegNum)
  | lor (s d : RegNum)
  | sll (s d : RegNum)
  | rol (s d : RegNum)
  | srl (s d : RegNum)
  | ror (s d : RegNum)
  | not (s d : RegNum)
  | xor (s d : RegNum)
  | adc (s d : RegNum)
  | sbc (s d : RegNum)
  | adi (im : BitVec 4) (d : RegNum)
  | sbi (im : BitVec 4) (d : RegNum)
  -- the aluc group: the seven instruction set extensions (42_aluc_ise.md)
  | asb (s d : RegNum)
  | aib (s d : RegNum)
  | amc (s d : RegNum)
  | aic (s d : RegNum)
  | swd (s d : RegNum)
  | gsp (s d : RegNum)
  | gip (s d : RegNum)
  -- gen1 (43_gen1.md)
  | mov (s d : RegNum)
  | ldb (i : PairIdx) (d : RegNum)
  | lpb (i : PairIdx) (d : RegNum)
  | stb (v : RegNum) (i : PairIdx)
  | spb (v : RegNum) (i : PairIdx)
  | ret
  | str
  | lsr
  | rie (i : PairIdx)
  | sie (i : PairIdx)
  | hlt
  | rti
  | sys (im : Byte)
  -- the stack group (44_stack.md)
  | psh (s : RegNum)
  | pop (d : RegNum)
  deriving DecidableEq, Repr

end Sys2Proof
end

