-- ==== Sys2Proof/WellFormed.lean ====
section
/-! DEFINITION. Well-formedness. An instruction's operands have types of exactly their field's width (30_encoding.md R81 to
R87), so every term of Instr is well formed: `Instr.wellFormed` writes the widths down constructor by constructor, and
`Instr.wellFormed_all` says that the types carry them (log 40). The parameters of a machine are plain numbers, with the
ranges of 00_scope.md R6 to check: `Params.wf`. -/

namespace Sys2Proof

/-- A register or vector number is below 16 (R83). -/
def regFits (n : BitVec 4) : Bool := n.toNat < 16

/-- A pair index is below 8 (R84). -/
def pairFits (n : BitVec 3) : Bool := n.toNat < 8

/-- An immediate of `w` bits is below 2^w (R85 to R87). -/
def immFits (w v : Nat) : Bool := v < 2 ^ w

/-- Every operand fits the field its encoding gives it. -/
def Instr.wellFormed : Instr → Bool
  | .mvs im => immFits 12 im.toNat
  | .mvv k im => regFits k && immFits 8 im.toNat
  | .jmp im => immFits 12 im.toNat
  | .jsr im => immFits 12 im.toNat
  | .bzi im => immFits 12 im.toNat
  | .bni im => immFits 12 im.toNat
  | .bci im => immFits 12 im.toNat
  | .bxi im => immFits 12 im.toNat
  | .mvi d im => regFits d && immFits 8 im.toNat
  | .add s d => regFits s && regFits d
  | .sub s d => regFits s && regFits d
  | .and s d => regFits s && regFits d
  | .lor s d => regFits s && regFits d
  | .sll s d => regFits s && regFits d
  | .rol s d => regFits s && regFits d
  | .srl s d => regFits s && regFits d
  | .ror s d => regFits s && regFits d
  | .not s d => regFits s && regFits d
  | .xor s d => regFits s && regFits d
  | .adc s d => regFits s && regFits d
  | .sbc s d => regFits s && regFits d
  | .adi im d => immFits 4 im.toNat && regFits d
  | .sbi im d => immFits 4 im.toNat && regFits d
  | .asb s d => regFits s && regFits d
  | .aib s d => regFits s && regFits d
  | .amc s d => regFits s && regFits d
  | .aic s d => regFits s && regFits d
  | .swd s d => regFits s && regFits d
  | .gsp s d => regFits s && regFits d
  | .gip s d => regFits s && regFits d
  | .mov s d => regFits s && regFits d
  | .ldb i d => pairFits i && regFits d
  | .lpb i d => pairFits i && regFits d
  | .stb v i => regFits v && pairFits i
  | .spb v i => regFits v && pairFits i
  | .ret => true
  | .str => true
  | .lsr => true
  | .rie i => pairFits i
  | .sie i => pairFits i
  | .hlt => true
  | .rti => true
  | .sys im => immFits 8 im.toNat
  | .psh s => regFits s
  | .pop d => regFits d

/-- The operand types carry the widths: no term of Instr is ill formed. -/
theorem Instr.wellFormed_all (i : Instr) : i.wellFormed = true := by
  cases i <;> simp [Instr.wellFormed, regFits, pairFits, immFits] <;> omega

/-- A peripheral's window is not empty and lies inside the data space (R50, R64). -/
def PeriphWindow.wf (w : PeriphWindow) : Bool := 0 < w.size && w.base + w.size ≤ 65536

/-- DMA_G is "a generic between 0 and 4" (R254). -/
def DmaParams.wf (p : DmaParams) : Bool := p.g ≤ 4

/-- The ranges of R6. -/
def Params.wf (p : Params) : Bool :=
  (1 ≤ p.pramSize && p.pramSize ≤ 4096) && (1 ≤ p.dramSize && p.dramSize ≤ 65536) && (1 ≤ p.ns && p.ns ≤ 8)
    && p.periphs.all PeriphWindow.wf && (match p.dma with | none => true | some d => d.wf)

end Sys2Proof
end

