-- ==== Sys2Proof/Decode.lean ====
section
/-! DEFINITION. Decoding and encoding (30_encoding.md). The first byte of an instruction alone tells its length (R95); a
reserved first byte is rejected by name, whatever follows it (R93). The encoder is written from the same formats (R81). -/

namespace Sys2Proof

/-! Fields of a byte. -/

/-- Bits 7:4 of a byte: `<opc1>` of b0, the first-named field of b1 (R80, R81). -/
def hiNib (b : Byte) : BitVec 4 := b.extractLsb' 4 4

/-- Bits 3:0 of a byte. -/
def loNib (b : Byte) : BitVec 4 := b.extractLsb' 0 4

/-- A byte from its two nibbles. -/
def byteOf (hi lo : BitVec 4) : Byte := hi ++ lo

/-- The 12-bit immediate of format I12: `b0[3:0] ++ b1` (R85). -/
def im12 (b0 b1 : Byte) : BitVec 12 := loNib b0 ++ b1

/-- A nibble's upper bit: the post-increment bit p of the formats LD and ST (R81). -/
def topBit (n : BitVec 4) : Bool := n.getLsbD 3

/-- A nibble's lower three bits: a pair index (R84). -/
def pairOf (n : BitVec 4) : PairIdx := n.extractLsb' 0 3

/-- A nibble from a post-increment bit and a pair index. -/
def pairNib (p : Bool) (i : PairIdx) : BitVec 4 := BitVec.ofBool p ++ i

/-! Decoding. -/

/-- Why bytes are no instruction. -/
inductive DecodeError where
  /-- the first byte, or the opcode pair in it, is reserved (R93) -/
  | reserved (b0 : Byte)
  /-- the bytes end inside an instruction -/
  | truncated
  deriving DecidableEq, Repr

/-- The length of an instruction from its first byte (R95); none for the reserved encodings (R93). -/
def lengthOf (b0 : Byte) : Option Nat :=
  match hiNib b0 with
  | 0x9#4 =>
    match loNib b0 with
    | 0x8#4 => none
    | 0x9#4 => none
    | _ => some 2
  | 0xA#4 => if (loNib b0).toNat ≤ 6 then some 2 else none
  | 0xB#4 => none
  | 0xC#4 =>
    match loNib b0 with
    | 0x3#4 => some 1
    | 0x4#4 => some 1
    | 0x5#4 => some 1
    | 0x8#4 => some 1
    | 0x9#4 => some 1
    | 0xA#4 => none
    | 0xB#4 => none
    | 0xC#4 => none
    | 0xD#4 => none
    | 0xE#4 => none
    | _ => some 2
  | 0xD#4 => some 1
  | 0xE#4 => some 1
  | 0xF#4 => none
  | _ => some 2

/-- The one-byte instructions: formats Z and R1 (R81, R92). -/
def decodeOne (b0 : Byte) : Option Instr :=
  match hiNib b0 with
  | 0xC#4 =>
    match loNib b0 with
    | 0x3#4 => some .ret
    | 0x4#4 => some .str
    | 0x5#4 => some .lsr
    | 0x8#4 => some .hlt
    | 0x9#4 => some .rti
    | _ => none
  | 0xD#4 => some (.psh (loNib b0))
  | 0xE#4 => some (.pop (loNib b0))
  | _ => none

/-- The alu group, by opc2 (R90). -/
def decodeAlu (opc2 x y : BitVec 4) : Option Instr :=
  match opc2 with
  | 0x0#4 => some (.add x y)
  | 0x1#4 => some (.sub x y)
  | 0x2#4 => some (.and x y)
  | 0x3#4 => some (.lor x y)
  | 0x4#4 => some (.sll x y)
  | 0x5#4 => some (.rol x y)
  | 0x6#4 => some (.srl x y)
  | 0x7#4 => some (.ror x y)
  | 0xA#4 => some (.not x y)
  | 0xB#4 => some (.xor x y)
  | 0xC#4 => some (.adc x y)
  | 0xD#4 => some (.sbc x y)
  | 0xE#4 => some (.adi x y)
  | 0xF#4 => some (.sbi x y)
  | _ => none

/-- The aluc group, by opc2: the seven ISEs of Table 2 (R91). -/
def decodeAluc (opc2 s d : BitVec 4) : Option Instr :=
  match opc2 with
  | 0x0#4 => some (.asb s d)
  | 0x1#4 => some (.aib s d)
  | 0x2#4 => some (.amc s d)
  | 0x3#4 => some (.aic s d)
  | 0x4#4 => some (.swd s d)
  | 0x5#4 => some (.gsp s d)
  | 0x6#4 => some (.gip s d)
  | _ => none

/-- The two-byte instructions of gen1, by opc2 (R92). In format PR bit 7 and bits 3:0 of b1 are ignored (R94). -/
def decodeGen1 (opc2 : BitVec 4) (b1 : Byte) : Option Instr :=
  match opc2 with
  | 0x0#4 => some (.mov (hiNib b1) (loNib b1))
  | 0x1#4 => some (if topBit (hiNib b1) then .lpb (pairOf (hiNib b1)) (loNib b1) else .ldb (pairOf (hiNib b1)) (loNib b1))
  | 0x2#4 => some (if topBit (loNib b1) then .spb (hiNib b1) (pairOf (loNib b1)) else .stb (hiNib b1) (pairOf (loNib b1)))
  | 0x6#4 => some (.rie (pairOf (hiNib b1)))
  | 0x7#4 => some (.sie (pairOf (hiNib b1)))
  | 0xF#4 => some (.sys b1)
  | _ => none

/-- The two-byte instructions, by opc1 (R89). -/
def decodeTwo (b0 b1 : Byte) : Option Instr :=
  match hiNib b0 with
  | 0x0#4 => some (.mvs (im12 b0 b1))
  | 0x1#4 => some (.mvv (loNib b0) b1)
  | 0x2#4 => some (.jmp (im12 b0 b1))
  | 0x3#4 => some (.jsr (im12 b0 b1))
  | 0x4#4 => some (.bzi (im12 b0 b1))
  | 0x5#4 => some (.bni (im12 b0 b1))
  | 0x6#4 => some (.bci (im12 b0 b1))
  | 0x7#4 => some (.bxi (im12 b0 b1))
  | 0x8#4 => some (.mvi (loNib b0) b1)
  | 0x9#4 => decodeAlu (loNib b0) (hiNib b1) (loNib b1)
  | 0xA#4 => decodeAluc (loNib b0) (hiNib b1) (loNib b1)
  | 0xC#4 => decodeGen1 (loNib b0) b1
  | _ => none

/-- The instruction at the front of a list of bytes, and the bytes after it. Total: every list of bytes is an
instruction and a rest, or is rejected by name. -/
def decode : List Byte → Except DecodeError (Instr × List Byte)
  | [] => .error .truncated
  | b0 :: rest =>
    match lengthOf b0 with
    | none => .error (.reserved b0)
    | some 1 =>
      match decodeOne b0 with
      | some i => .ok (i, rest)
      | none => .error (.reserved b0)
    | some _ =>
      match rest with
      | [] => .error .truncated
      | b1 :: rest' =>
        match decodeTwo b0 b1 with
        | some i => .ok (i, rest')
        | none => .error (.reserved b0)

/-! Encoding. -/

/-- Format I12: `opc1 Im[11:8]`, `Im[7:0]` (R81, R85). -/
def encodeI12 (opc1 : BitVec 4) (im : BitVec 12) : List Byte := [byteOf opc1 (im.extractLsb' 8 4), im.extractLsb' 0 8]

/-- Formats RR and IR: `opc1 opc2`, then two nibbles (R81). -/
def encodeRR (opc1 opc2 x y : BitVec 4) : List Byte := [byteOf opc1 opc2, byteOf x y]

/-- The bytes of an instruction, b0 first (R81). The unused bits of format PR are written as zero (R94). -/
def encode : Instr → List Byte
  | .mvs im => encodeI12 0x0 im
  | .mvv k im => [byteOf 0x1 k, im]
  | .jmp im => encodeI12 0x2 im
  | .jsr im => encodeI12 0x3 im
  | .bzi im => encodeI12 0x4 im
  | .bni im => encodeI12 0x5 im
  | .bci im => encodeI12 0x6 im
  | .bxi im => encodeI12 0x7 im
  | .mvi d im => [byteOf 0x8 d, im]
  | .add s d => encodeRR 0x9 0x0 s d
  | .sub s d => encodeRR 0x9 0x1 s d
  | .and s d => encodeRR 0x9 0x2 s d
  | .lor s d => encodeRR 0x9 0x3 s d
  | .sll s d => encodeRR 0x9 0x4 s d
  | .rol s d => encodeRR 0x9 0x5 s d
  | .srl s d => encodeRR 0x9 0x6 s d
  | .ror s d => encodeRR 0x9 0x7 s d
  | .not s d => encodeRR 0x9 0xA s d
  | .xor s d => encodeRR 0x9 0xB s d
  | .adc s d => encodeRR 0x9 0xC s d
  | .sbc s d => encodeRR 0x9 0xD s d
  | .adi im d => encodeRR 0x9 0xE im d
  | .sbi im d => encodeRR 0x9 0xF im d
  | .asb s d => encodeRR 0xA 0x0 s d
  | .aib s d => encodeRR 0xA 0x1 s d
  | .amc s d => encodeRR 0xA 0x2 s d
  | .aic s d => encodeRR 0xA 0x3 s d
  | .swd s d => encodeRR 0xA 0x4 s d
  | .gsp s d => encodeRR 0xA 0x5 s d
  | .gip s d => encodeRR 0xA 0x6 s d
  | .mov s d => encodeRR 0xC 0x0 s d
  | .ldb i d => encodeRR 0xC 0x1 (pairNib false i) d
  | .lpb i d => encodeRR 0xC 0x1 (pairNib true i) d
  | .stb v i => encodeRR 0xC 0x2 v (pairNib false i)
  | .spb v i => encodeRR 0xC 0x2 v (pairNib true i)
  | .ret => [0xC3]
  | .str => [0xC4]
  | .lsr => [0xC5]
  | .rie i => encodeRR 0xC 0x6 (pairNib false i) 0
  | .sie i => encodeRR 0xC 0x7 (pairNib false i) 0
  | .hlt => [0xC8]
  | .rti => [0xC9]
  | .sys im => [0xCF, im]
  | .psh s => [byteOf 0xD s]
  | .pop d => [byteOf 0xE d]

/-! The opcode table (R96). -/

/-- A row of spec/opcode_table.json: an instruction word `w` of `length` bytes, `b0` in its upper byte, is the row's
instruction when `w AND mask = pattern` (R96). -/
structure OpcodeRow where
  mnemonic : String
  length : Nat
  mask : Nat
  pattern : Nat
  deriving DecidableEq, Repr

/-- Rows 1 to 15 of spec/opcode_table.json. -/
def opcodeRows1 : List OpcodeRow := [
  ⟨"mvs", 2, 0xF000, 0x0000⟩,
  ⟨"jmp", 2, 0xF000, 0x2000⟩,
  ⟨"jsr", 2, 0xF000, 0x3000⟩,
  ⟨"bzi", 2, 0xF000, 0x4000⟩,
  ⟨"bni", 2, 0xF000, 0x5000⟩,
  ⟨"bci", 2, 0xF000, 0x6000⟩,
  ⟨"bxi", 2, 0xF000, 0x7000⟩,
  ⟨"mvv", 2, 0xF000, 0x1000⟩,
  ⟨"mvi", 2, 0xF000, 0x8000⟩,
  ⟨"add", 2, 0xFF00, 0x9000⟩,
  ⟨"sub", 2, 0xFF00, 0x9100⟩,
  ⟨"and", 2, 0xFF00, 0x9200⟩,
  ⟨"lor", 2, 0xFF00, 0x9300⟩,
  ⟨"sll", 2, 0xFF00, 0x9400⟩,
  ⟨"rol", 2, 0xFF00, 0x9500⟩]

/-- Rows 16 to 30 of spec/opcode_table.json. -/
def opcodeRows2 : List OpcodeRow := [
  ⟨"srl", 2, 0xFF00, 0x9600⟩,
  ⟨"ror", 2, 0xFF00, 0x9700⟩,
  ⟨"not", 2, 0xFF00, 0x9A00⟩,
  ⟨"xor", 2, 0xFF00, 0x9B00⟩,
  ⟨"adc", 2, 0xFF00, 0x9C00⟩,
  ⟨"sbc", 2, 0xFF00, 0x9D00⟩,
  ⟨"adi", 2, 0xFF00, 0x9E00⟩,
  ⟨"sbi", 2, 0xFF00, 0x9F00⟩,
  ⟨"asb", 2, 0xFF00, 0xA000⟩,
  ⟨"aib", 2, 0xFF00, 0xA100⟩,
  ⟨"amc", 2, 0xFF00, 0xA200⟩,
  ⟨"aic", 2, 0xFF00, 0xA300⟩,
  ⟨"swd", 2, 0xFF00, 0xA400⟩,
  ⟨"gsp", 2, 0xFF00, 0xA500⟩,
  ⟨"gip", 2, 0xFF00, 0xA600⟩]

/-- Rows 31 to 45 of spec/opcode_table.json. -/
def opcodeRows3 : List OpcodeRow := [
  ⟨"mov", 2, 0xFF00, 0xC000⟩,
  ⟨"ldb", 2, 0xFF80, 0xC100⟩,
  ⟨"lpb", 2, 0xFF80, 0xC180⟩,
  ⟨"stb", 2, 0xFF08, 0xC200⟩,
  ⟨"spb", 2, 0xFF08, 0xC208⟩,
  ⟨"ret", 1, 0xFF, 0xC3⟩,
  ⟨"str", 1, 0xFF, 0xC4⟩,
  ⟨"lsr", 1, 0xFF, 0xC5⟩,
  ⟨"rie", 2, 0xFF00, 0xC600⟩,
  ⟨"sie", 2, 0xFF00, 0xC700⟩,
  ⟨"hlt", 1, 0xFF, 0xC8⟩,
  ⟨"rti", 1, 0xFF, 0xC9⟩,
  ⟨"sys", 2, 0xFF00, 0xCF00⟩,
  ⟨"psh", 1, 0xF0, 0xD0⟩,
  ⟨"pop", 1, 0xF0, 0xE0⟩]

/-- The 45 rows, in the table's order. -/
def opcodeRows : List OpcodeRow := opcodeRows1 ++ opcodeRows2 ++ opcodeRows3

/-- Whether the bytes `b0 b1` begin with the row's instruction (R96). -/
def rowMatches (b0 b1 : Byte) (r : OpcodeRow) : Bool :=
  (if r.length = 1 then b0.toNat else 256 * b0.toNat + b1.toNat) &&& r.mask == r.pattern

/-- The mnemonic of an instruction, as the table spells it. -/
def Instr.mnemonic : Instr → String
  | .mvs _ => "mvs"
  | .mvv _ _ => "mvv"
  | .jmp _ => "jmp"
  | .jsr _ => "jsr"
  | .bzi _ => "bzi"
  | .bni _ => "bni"
  | .bci _ => "bci"
  | .bxi _ => "bxi"
  | .mvi _ _ => "mvi"
  | .add _ _ => "add"
  | .sub _ _ => "sub"
  | .and _ _ => "and"
  | .lor _ _ => "lor"
  | .sll _ _ => "sll"
  | .rol _ _ => "rol"
  | .srl _ _ => "srl"
  | .ror _ _ => "ror"
  | .not _ _ => "not"
  | .xor _ _ => "xor"
  | .adc _ _ => "adc"
  | .sbc _ _ => "sbc"
  | .adi _ _ => "adi"
  | .sbi _ _ => "sbi"
  | .asb _ _ => "asb"
  | .aib _ _ => "aib"
  | .amc _ _ => "amc"
  | .aic _ _ => "aic"
  | .swd _ _ => "swd"
  | .gsp _ _ => "gsp"
  | .gip _ _ => "gip"
  | .mov _ _ => "mov"
  | .ldb _ _ => "ldb"
  | .lpb _ _ => "lpb"
  | .stb _ _ => "stb"
  | .spb _ _ => "spb"
  | .ret => "ret"
  | .str => "str"
  | .lsr => "lsr"
  | .rie _ => "rie"
  | .sie _ => "sie"
  | .hlt => "hlt"
  | .rti => "rti"
  | .sys _ => "sys"
  | .psh _ => "psh"
  | .pop _ => "pop"

/-! The host's reading of a table word. -/

/-- The bytes of a table word: `b0` is its upper byte (R96); the byte after a one-byte word is zero (log 13). -/
def tableBytes (nbits w : Nat) : List Byte :=
  if nbits ≤ 8 then [BitVec.ofNat 8 w, 0] else [BitVec.ofNat 8 (w / 256), BitVec.ofNat 8 w]

/-- The instruction the decoder reads from a table word of `nbits` bits. -/
def decodeTableWord (nbits w : Nat) : Option Instr :=
  match decode (tableBytes nbits w) with
  | .ok (i, _) => some i
  | .error _ => none

end Sys2Proof
end

