-- ==== Sys2Proof/Machine/State.lean ====
section
/-! DEFINITION. The state of the machine (10_state.md), as plain data: everything the spec names, the inputs a step still
has to read, and the model's own fields (`params`, `tick`). INVENTORY.md lists every field with its rule and reset value. -/

namespace Sys2Proof.Machine

/-- The status register, flag by flag: bits 7..0 are U3 U2 U1 U0 X C N Z (R25, log 14). Every bit of the byte has its
field, so nothing is lost when the register is stored and loaded whole. -/
structure Sr where
  u3 : Bool
  u2 : Bool
  u1 : Bool
  u0 : Bool
  x : Bool
  c : Bool
  n : Bool
  z : Bool
  deriving DecidableEq, Repr

/-- The run state (R31). -/
inductive RunState where
  /-- after `rst`, before `start` -/
  | idle
  /-- executing instructions -/
  | running
  /-- after hlt, until an interrupt is taken -/
  | halted
  /-- after `sys END_CODE`, until `start` -/
  | ended
  deriving DecidableEq, Repr

/-- Four bytes of one AES column, row 0 first (R168). -/
structure Column where
  b0 : Byte
  b1 : Byte
  b2 : Byte
  b3 : Byte
  deriving DecidableEq, Repr

/-- The state of amc or aic: the call counter, S[0..3] and T[0..3] (R168, R169). -/
structure MixIse where
  cnt : Fin 5
  inp : Column
  out : Column
  deriving DecidableEq, Repr

/-- The state of swd: the call counter, In and Out (R170). -/
structure RotIse where
  cnt : Fin 6
  inp : BitVec 32
  out : BitVec 32
  deriving DecidableEq, Repr

/-- The state of gsp or gip: the call counter, In and Out (R171, R172). -/
structure GiftIse where
  cnt : Fin 23
  inp : BitVec 128
  out : BitVec 128
  deriving DecidableEq, Repr

/-- The phases of the example DMA controller (R255): idle; busy, from the start store until its last byte is moved; done,
all bytes moved and its interrupt not yet entered (log 29). -/
inductive DmaPhase where
  | idle | busy | done
  deriving DecidableEq, Repr

/-- The example DMA controller (R254): its phase, its irq, the registers at 0x0101..0x0105. -/
structure Dma where
  phase : DmaPhase
  /-- the level of its irq: asserted at the end of a transfer, until the acknowledge (R241, R255) -/
  irq : Bool
  src : BitVec 16
  dst : BitVec 16
  count : Byte
  deriving DecidableEq, Repr

/-- What the pins outside the core can do at an instruction boundary (R36, R67, R270 to R274). -/
inductive PinEvent where
  /-- `rst` (R271) -/
  | rst
  /-- `start` (R274) -/
  | start
  /-- the loader writes a program byte: extpaddr, extprogin, extprogload (R272) -/
  | progLoad (a : ProgAddr) (v : Byte)
  /-- the loader writes a data byte: extdaddr, extdin, extdataload, with extdaddrsel asserted by a `busSel` before (R273) -/
  | dataLoad (a : DataAddr) (v : Byte)
  /-- the level of extdaddrsel: the loader or another master takes or releases the data bus (R67, R273) -/
  | busSel (on : Bool)
  /-- the other master writes a data byte (R67) -/
  | busWrite (a : DataAddr) (v : Byte)
  /-- the example DMA controller has moved its last byte (R255, step 7) -/
  | dmaDone
  deriving DecidableEq, Repr

/-- The inputs of one step (R36): the level of the sixteen request lines at this boundary and at most one pin event
(log 11). -/
structure Input where
  ibus : BitVec 16
  pin : Option PinEvent
  deriving DecidableEq, Repr

/-- A memory: the cells that hold a value, addresses strictly rising. A cell not listed has no value (R37, R272; log 2). -/
abbrev Memory := List Host.Cell

structure State where
  /-- x[0..15]: r0..r7, a0..a7 (R20) -/
  regs : Vector Byte 16
  /-- the program counter (R22) -/
  pc : ProgAddr
  /-- the stack pointer: the next free cell (R24) -/
  sp : DataAddr
  /-- the status register (R25) -/
  sr : Sr
  /-- the interrupt vectors (R27) -/
  iv : Vector Byte 16
  /-- the interrupt enable register (R28) -/
  ie : BitVec 16
  /-- the shadow of pc (R29) -/
  pcs : ProgAddr
  /-- the shadow of sr (R29) -/
  srs : Sr
  /-- as[i], of which i < NS exist (R29) -/
  shadowA : Vector Byte 8
  /-- rs[i], of which i < NS exist (R29) -/
  shadowR : Vector Byte 8
  /-- an interrupt is in service (R30) -/
  isr : Bool
  /-- the run state (R31) -/
  run : RunState
  /-- the last value driven on the s-bus (R33) -/
  sbus : Byte
  /-- the state of the AES MixColumns ISE (R168) -/
  amc : MixIse
  /-- the state of the AES inverse MixColumns ISE (R169) -/
  aic : MixIse
  /-- the state of the CHAM rotate ISE (R170) -/
  swd : RotIse
  /-- the state of the GIFT ISE (R171) -/
  gsp : GiftIse
  /-- the state of the inverse GIFT ISE (R172) -/
  gip : GiftIse
  /-- program memory (R34) -/
  pram : Memory
  /-- data memory (R35) -/
  dram : Memory
  /-- the example DMA controller (R254), meaningful when `params.dma` names one -/
  dma : Dma
  /-- extdaddrsel is asserted: the loader or another master drives the data bus (R67, R273) -/
  busTaken : Bool
  /-- the request lines at the last boundary (R231) -/
  ibus : BitVec 16
  /-- the inputs of the steps to come (R36, log 11) -/
  inputs : List Input
  /-- what the environment has seen, oldest first (R33, R55, R61) -/
  events : List Event
  /-- the model's own: the synthesis-time parameters (R6, log 3) -/
  params : Params
  /-- the model's own: makes each free value a fresh one (log 10) -/
  tick : Nat
  deriving DecidableEq, Repr

/-- The model faults of 60_exceptions.md R230: points where the manual gives no behaviour and the spec says to stop. -/
inductive Fault where
  /-- raised by the fetch, at a reserved first byte (R93). Safe: the model stops where the hardware does something unknown. -/
  | reservedEncoding (b0 : Byte)
  /-- raised by the fetch of b0 or b1 at or beyond PRAM_SIZE (R52). Safe, as above. -/
  | fetchOutOfRange
  /-- raised by a data access at an address with neither DRAM nor a peripheral behind it (R54, R55). Safe, as above. -/
  | dataAccessOutOfRange
  /-- raised by the read of a data cell, or the fetch of a program cell, that holds no value (R54, R272). Safe, as above. -/
  | readOfUnwrittenState
  /-- raised by rti when no interrupt is in service (R201). Safe, as above. -/
  | rtiOutsideIsr
  /-- raised by a data access while another master drives the data bus (R67, R255). Safe, as above. -/
  | busContention
  deriving DecidableEq, Repr

/-- Situations outside the runs the spec accepts. -/
inductive Refusal where
  /-- raised by exec's arm of an instruction without a meaning. Safe: nothing follows. No arm raises it in this model. -/
  | notModelled (mnemonic : String)
  /-- raised by `start` or a loader write while the core is RUNNING or HALTED (UB16, D30). Safe: nothing follows. -/
  | pinEventDuringRun
  /-- raised by a loader's or bus master's write at an address without memory, or by a loader's or
  bus master's write of data without extdaddrsel: no rule gives it an effect (R67, R272, R273). Safe, as above. -/
  | externalWriteUndescribed
  /-- raised by a store to the DMA's control address of a value other than 0xFF (UB28, R254). Safe, as above. -/
  | dmaCommandUndescribed
  /-- raised by the start store of a DMA transfer whose blocks overlap or leave DRAM (UB28, R254). Safe, as above. -/
  | dmaBlocksIllegal
  deriving DecidableEq, Repr

/-- The parameters State.reset carries: the full memories, all pairs shadowed, no device (log 3). DESIGN CHOICE, unsafe for
claims about State.reset alone: the spec leaves them open (R6). -/
def resetParams : Params := { pramSize := 4096, dramSize := 65536, ns := 8, periphs := [], dma := none }

/-- Every flag clear. -/
def Sr.clear : Sr :=
  { u3 := false, u2 := false, u1 := false, u0 := false, x := false, c := false, n := false, z := false }

/-- The machine right after `rst` (R37, R271): IDLE, no interrupt enabled or in service, every ISE at the first call of its
sequence, both memories empty. The spec gives every other register no value; this model names zero (log 1). DESIGN
CHOICE, unsafe: a claim about a program that reads a register before it writes it may rest on that zero. The sixteen request
lines are an input (R36) and have no level of the spec's here: the model holds them low until an input says otherwise
(log 11). DESIGN CHOICE, unsafe. Nor does the spec give the example DMA controller a state at power-up: the model has it
idle with its irq low (log 29). DESIGN CHOICE, unsafe. -/
def State.reset : State where
  regs := Vector.replicate 16 0
  pc := 0
  sp := 0
  sr := Sr.clear
  iv := Vector.replicate 16 0
  ie := 0
  pcs := 0
  srs := Sr.clear
  shadowA := Vector.replicate 8 0
  shadowR := Vector.replicate 8 0
  isr := false
  run := .idle
  sbus := 0
  amc := { cnt := 0, inp := ⟨0, 0, 0, 0⟩, out := ⟨0, 0, 0, 0⟩ }
  aic := { cnt := 0, inp := ⟨0, 0, 0, 0⟩, out := ⟨0, 0, 0, 0⟩ }
  swd := { cnt := 0, inp := 0, out := 0 }
  gsp := { cnt := 0, inp := 0, out := 0 }
  gip := { cnt := 0, inp := 0, out := 0 }
  pram := []
  dram := []
  dma := { phase := .idle, irq := false, src := 0, dst := 0, count := 0 }
  busTaken := false
  ibus := 0
  inputs := []
  events := []
  params := resetParams
  tick := 0

end Sys2Proof.Machine
end

