-- ==== Sys2Proof/Machine/Memory.lean ====
section
/-! DEFINITION. A memory by itself (10_state.md R34, R35): one byte read, written or given up, and the canonical form. -/

namespace Sys2Proof.Machine

/-- The byte at an address; none for a cell that holds no value (R37; log 2). -/
def Memory.read : Memory → Nat → Option Byte
  | [], _ => none
  | (b, w) :: m, a => if a = b then some w else Memory.read m a

/-- The memory with `v` at address `a`, addresses still rising. -/
def Memory.write : Memory → Nat → Byte → Memory
  | [], a, v => [(a, v)]
  | (b, w) :: m, a, v =>
    if a < b then (a, v) :: (b, w) :: m
    else if a = b then (a, v) :: m
    else (b, w) :: Memory.write m a v

/-- The memory with no value at address `a`. -/
def Memory.erase (m : Memory) (a : Nat) : Memory := m.filter (fun c => c.1 != a)

/-- The memory whose cell `a` holds what `v` says: a byte, or no value. -/
def Memory.put (m : Memory) (a : Nat) (v : Option Byte) : Memory :=
  match v with
  | some b => m.write a b
  | none => m.erase a

/-- The memory with the `n` cells from `src` copied to the `n` cells from `dst`, a cell without value as one without
value (R254; log 29). -/
def Memory.copy (m : Memory) (src dst : Nat) : Nat → Memory
  | 0 => m
  | n + 1 => (Memory.copy m src dst n).put (dst + n) (m.read (src + n))

/-- The canonical form: addresses strictly rising. -/
def Memory.wf (m : Memory) : Bool := decide (m.Pairwise (fun c d => c.1 < d.1))

/-- Every listed address is below `n`. -/
def Memory.below (n : Nat) (m : Memory) : Bool := m.all (fun c => c.1 < n)

end Sys2Proof.Machine
end

