-- ==== Sys2Proof/Machine/Operands.lean ====
section
/-! DEFINITION. The operand forms (30_encoding.md R81 to R88): registers, register pairs, scaled immediates, and the program
counter's advance. -/

namespace Sys2Proof.Machine

/-- Read general register `n` (R9, R20). -/
def State.reg (s : State) (n : RegNum) : Byte := s.regs[n.toNat]

/-- `x[n] <- v` (R9, R20). No register is hardwired. -/
def State.setReg (s : State) (n : RegNum) (v : Byte) : State := { s with regs := s.regs.set n.toNat v }

/-- The number of r_i, the lower half of pair `i` (R20, R21). -/
def rNum (i : PairIdx) : RegNum := 0#1 ++ i

/-- The number of a_i, the upper half of pair `i`: 8 + i (R20, R21). -/
def aNum (i : PairIdx) : RegNum := 1#1 ++ i

/-- `pair(i)`: a_i & r_i, sixteen bits (R21). -/
def State.pair (s : State) (i : PairIdx) : BitVec 16 := s.reg (aNum i) ++ s.reg (rNum i)

/-- Write both halves of pair `i` (R198). -/
def State.setPair (s : State) (i : PairIdx) (v : BitVec 16) : State :=
  (s.setReg (aNum i) (v.extractLsb' 8 8)).setReg (rNum i) (v.extractLsb' 0 8)

/-- r_i + 1, modulo 2^8: no carry into a_i (R192, R194). -/
def State.stepPair (s : State) (i : PairIdx) : State := s.setReg (rNum i) (s.reg (rNum i) + 1)

/-- `pc <- target` (R9). -/
def State.setPc (s : State) (a : ProgAddr) : State := { s with pc := a }

/-- `pc <- pc + len`, modulo 2^12 (R23). -/
def State.advance (s : State) (len : Nat) : State := s.setPc (s.pc + BitVec.ofNat 12 len)

/-- `sp <- v` (R24). -/
def State.setSp (s : State) (v : DataAddr) : State := { s with sp := v }

/-- `ie <- v` (R28). -/
def State.setIe (s : State) (v : BitVec 16) : State := { s with ie := v }

/-- `run <- r` (R31). -/
def State.setRun (s : State) (r : RunState) : State := { s with run := r }

/-- Replace data memory (R35). -/
def State.setDram (s : State) (m : Memory) : State := { s with dram := m }

/-- Replace program memory, as the loader does (R34). -/
def State.setPram (s : State) (m : Memory) : State := { s with pram := m }

/-- Replace the state of the DMA controller (R254). -/
def State.setDma (s : State) (d : Dma) : State := { s with dma := d }

/-- `sbus <- v` (R33). -/
def State.setSbus (s : State) (v : Byte) : State := { s with sbus := v }

/-- Replace the state of amc (R168). -/
def State.setAmc (s : State) (st : MixIse) : State := { s with amc := st }

/-- Replace the state of aic (R169). -/
def State.setAic (s : State) (st : MixIse) : State := { s with aic := st }

/-- Replace the state of swd (R170). -/
def State.setSwd (s : State) (st : RotIse) : State := { s with swd := st }

/-- Replace the state of gsp (R171). -/
def State.setGsp (s : State) (st : GiftIse) : State := { s with gsp := st }

/-- Replace the state of gip (R172). -/
def State.setGip (s : State) (st : GiftIse) : State := { s with gip := st }

/-- The value mvs writes: `(zext_16(Im12) << 4) - 1`, modulo 2^16 (R88, R111). -/
def mvsValue (im : BitVec 12) : BitVec 16 := (im.setWidth 16 <<< 4) - 1

/-- The operand of adi and sbi: `Im4 + 1`, 1..16 (R87). -/
def adiAmount (im : BitVec 4) : Byte := im.setWidth 8 + 1

/-- The entry address of an interrupt vector: `zext_12(iv[k]) << 4` (R88, R239). -/
def entryAddr (v : Byte) : ProgAddr := v.setWidth 12 <<< 4

/-- `iv[k]` (R27). -/
def State.vector (s : State) (k : IntNum) : Byte := s.iv[k.toNat]

/-- `iv[k] <- v` (R27, R112). -/
def State.setVector (s : State) (k : IntNum) (v : Byte) : State := { s with iv := s.iv.set k.toNat v }

/-- A vector of eight from its entries. -/
def vec8 (f : Fin 8 → Byte) : Vector Byte 8 := #v[f 0, f 1, f 2, f 3, f 4, f 5, f 6, f 7]

/-- A vector of sixteen from its entries. -/
def vec16 (f : Fin 16 → Byte) : Vector Byte 16 :=
  #v[f 0, f 1, f 2, f 3, f 4, f 5, f 6, f 7, f 8, f 9, f 10, f 11, f 12, f 13, f 14, f 15]

end Sys2Proof.Machine
end

