-- ==== Sys2Proof/Machine/Flags.lean ====
section
/-! DEFINITION. The status register as a byte (10_state.md R25) and the flags of the six arithmetic operations
(41_alu.md R131). -/

namespace Sys2Proof.Machine

/-- The byte str stores and an ISE receives: U3 U2 U1 U0 X C N Z, most significant first (R25, R196). -/
def Sr.toByte (f : Sr) : Byte :=
  BitVec.ofBool f.u3 ++ BitVec.ofBool f.u2 ++ BitVec.ofBool f.u1 ++ BitVec.ofBool f.u0
    ++ BitVec.ofBool f.x ++ BitVec.ofBool f.c ++ BitVec.ofBool f.n ++ BitVec.ofBool f.z

/-- The flags in a byte that lsr loads or an ISE returns (R25, R197). -/
def Sr.ofByte (b : Byte) : Sr where
  u3 := b.getLsbD 7
  u2 := b.getLsbD 6
  u1 := b.getLsbD 5
  u0 := b.getLsbD 4
  x := b.getLsbD 3
  c := b.getLsbD 2
  n := b.getLsbD 1
  z := b.getLsbD 0

/-- Replace all eight flags. -/
def State.setSr (s : State) (f : Sr) : State := { s with sr := f }

/-- The nine-bit sum of two bytes and a carry (R131, R132, R142). -/
def sum9 (a b : Byte) (carry : Bool) : BitVec 9 := a.setWidth 9 + b.setWidth 9 + (BitVec.ofBool carry).setWidth 9

/-- The nine-bit difference of two bytes and a borrow, modulo 2^9 (R131, R133, R143). -/
def diff9 (a b : Byte) (borrow : Bool) : BitVec 9 := a.setWidth 9 - b.setWidth 9 - (BitVec.ofBool borrow).setWidth 9

/-- The result of an arithmetic operation: bits 7:0 of the nine-bit value (R132). -/
def result8 (t : BitVec 9) : Byte := t.setWidth 8

/-- The carry or borrow of an arithmetic operation: bit 8 of the nine-bit value (R131). -/
def carry9 (t : BitVec 9) : Bool := t.getLsbD 8

/-- The flags after an arithmetic operation: Z, N, C from its nine-bit value, X as given, the user flags unchanged (R131). -/
def arithFlags (f : Sr) (t : BitVec 9) (x : Bool) : Sr :=
  { f with z := result8 t == 0, n := (result8 t).getLsbD 7, c := carry9 t, x := x }

end Sys2Proof.Machine
end

