-- ==== Sys2Proof/Machine/Ops.lean ====
section
/-! DEFINITION. The named operations the meanings share: outcomes in sequence, output events, one byte of data memory
(20_memory.md R54, R55), the stack (R58, R59), the example DMA controller (60_exceptions.md R253 to R255), the s-bus (10_state.md
R33), and taking an interrupt (R238) with the return from one (R201). -/

namespace Sys2Proof.Machine

/-- What an operation that yields an `α` can answer. -/
abbrev Answer (α : Type) := Host.Outcome α Fault Refusal

/-- What an instruction or a step answers. -/
abbrev Result := Answer State

/-- Run `f` on the answer; a fault or a refusal ends the sequence. -/
def andThen {α β : Type} (o : Answer α) (f : α → Answer β) : Answer β :=
  match o with
  | .next x => f x
  | .fault r => .fault r
  | .refused r => .refused r

/-- Record an output event (R33, R55, R61). -/
def State.emit (s : State) (e : Event) : State := { s with events := s.events ++ [e] }

/-- Let the next free value be a fresh one (log 10). -/
def State.bump (s : State) : State := { s with tick := s.tick + 1 }

/-! The data space. -/

/-- Whether DRAM has a cell at `a` (R50, R63). -/
def State.inDram (s : State) (a : Nat) : Bool := a < s.params.dramSize

/-- Whether a window holds an address. -/
def PeriphWindow.covers (w : PeriphWindow) (a : Nat) : Bool := w.base ≤ a && a < w.base + w.size

/-- Whether `a` is one of the six registers of the example DMA controller (R254). -/
def State.dmaClaims (s : State) (a : Nat) : Bool := s.params.dma.isSome && dmaBase ≤ a && a < dmaBase + 6

/-- Whether some peripheral recognises `a` as its own (R64). -/
def State.claimed (s : State) (a : Nat) : Bool := s.dmaClaims a || s.params.periphs.any (fun w => PeriphWindow.covers w a)

/-- Whether a read of `a` is answered from outside DRAM: by a peripheral that recognises it as readable (R54), or by the
DMA controller's registers, of whose reads the manual says nothing (UB28; log 31). -/
def State.answersRead (s : State) (a : Nat) : Bool :=
  s.dmaClaims a || s.params.periphs.any (fun w => w.readable && PeriphWindow.covers w a)

/-- Whether the example DMA controller bars the core from the data bus: from its start store until its interrupt is entered
after the last byte is moved (R255; log 29 for an entry before that). -/
def State.dmaBars (s : State) : Bool := s.params.dma.isSome && (s.dma.phase == .busy || s.dma.phase == .done)

/-- Whether the core may not use the data bus, another master having it (R67, R255). -/
def State.busBusy (s : State) : Bool := s.busTaken || s.dmaBars

/-- The state after a data read of `a` that goes through: its address is echoed on auxaddr, whoever answers (R54, R61), and
the next free value is a fresh one (log 10). -/
def State.afterRead (s : State) (a : DataAddr) : State := (s.emit (.dataRead a)).bump

/-- `MemRead(addr, 1)` (R54): the byte, and the state after the read. -/
def State.memRead (s : State) (a : DataAddr) : Answer (Byte × State) :=
  if s.busBusy then .fault .busContention
  else if s.answersRead a.toNat then .next (Config.periphRead a s.events s.tick, s.afterRead a)
  else if s.inDram a.toNat then
    match s.dram.read a.toNat with
    | some v => .next (v, s.afterRead a)
    | none => .fault .readOfUnwrittenState
  else .fault .dataAccessOutOfRange

/-- How many bytes the DMA moves: `(n + 1) << G` (R254). -/
def dmaBytes (p : DmaParams) (n : Byte) : Nat := (n.toNat + 1) <<< p.g

/-- Two blocks of `n` bytes that lie inside a memory of `size` bytes and do not overlap. -/
def blocksLegal (size src dst n : Nat) : Bool := src + n ≤ size && dst + n ≤ size && (src + n ≤ dst || dst + n ≤ src)

/-- "The source and transfer blocks must not overlap"; "must physically exist in DRAM" (R254). -/
def dmaBlocksLegal (s : State) (p : DmaParams) : Bool :=
  blocksLegal s.params.dramSize s.dma.src.toNat s.dma.dst.toNat (dmaBytes p s.dma.count)

/-- The DMA's control address: 0xFF starts a transfer (R254, R255), also while the interrupt of the last one waits for its
acknowledge, the irq then staying asserted; what another value does is not described (UB28). A store that gets here finds no
transfer under way, for that bars the core from the bus (log 29). -/
def dmaCommand (s : State) (p : DmaParams) (v : Byte) : Result :=
  if v == 0xFF then
    if dmaBlocksLegal s p then .next (s.setDma { s.dma with phase := .busy })
    else .refused .dmaBlocksIllegal
  else .refused .dmaCommandUndescribed

/-- `v` with its lower byte replaced. -/
def setLowByte (v : BitVec 16) (b : Byte) : BitVec 16 := v.extractLsb' 8 8 ++ b

/-- `v` with its upper byte replaced. -/
def setHighByte (v : BitVec 16) (b : Byte) : BitVec 16 := b ++ v.extractLsb' 0 8

/-- What the DMA controller does with a store it sees (R254): nothing, unless the address is one of its registers. -/
def dmaSees (s : State) (a : Nat) (v : Byte) : Result :=
  match s.params.dma with
  | none => .next s
  | some p =>
    if a = dmaBase then dmaCommand s p v
    else if a = dmaBase + 1 then .next (s.setDma { s.dma with src := setLowByte s.dma.src v })
    else if a = dmaBase + 2 then .next (s.setDma { s.dma with src := setHighByte s.dma.src v })
    else if a = dmaBase + 3 then .next (s.setDma { s.dma with dst := setLowByte s.dma.dst v })
    else if a = dmaBase + 4 then .next (s.setDma { s.dma with dst := setHighByte s.dma.dst v })
    else if a = dmaBase + 5 then .next (s.setDma { s.dma with count := v })
    else .next s

/-- The DRAM cell at `a` becomes `v`, where there is one (R55). -/
def State.storeDram (s : State) (a : Nat) (v : Byte) : State :=
  if s.inDram a then s.setDram (s.dram.write a v) else s

/-- `MemWrite(addr, 1, v)` (R55): DRAM takes the byte, every peripheral sees it. -/
def State.memWrite (s : State) (a : DataAddr) (v : Byte) : Result :=
  if s.busBusy then .fault .busContention
  else if s.inDram a.toNat || s.claimed a.toNat then
    dmaSees ((s.storeDram a.toNat v).emit (.dataWrite a v)) a.toNat v
  else .fault .dataAccessOutOfRange

/-- `Push(v)`: write at sp, then decrement it (R58). -/
def State.push (s : State) (v : Byte) : Result :=
  andThen (s.memWrite s.sp v) fun s' => .next (s'.setSp (s.sp - 1))

/-- `Pop()`: increment sp, then read there (R59). -/
def State.popByte (s : State) : Answer (Byte × State) :=
  (s.setSp (s.sp + 1)).memRead (s.sp + 1)

/-! What the outside sees of data memory (R276). -/

/-- The address that a data access put on the a-bus (R54, R55). -/
def Event.address : Event → Option DataAddr
  | .sbusOut _ => none
  | .dataWrite a _ => some a
  | .dataRead a => some a

/-- The address on the a-bus when the external user's address pins hold `ext`: the external user's while extdaddrsel is
asserted (R276), else the one the core drove last; none before the core's first access, and none while the DMA controller
drives the bus. DESIGN CHOICE: the core's last address stays on the bus between accesses (log 34), and the external user's
address is on it also while a DMA transfer is under way (log 47). -/
def State.busAddress (s : State) (ext : DataAddr) : Option DataAddr :=
  if s.busTaken then some ext
  else if s.dmaBars then none
  else s.events.reverse.findSome? Event.address

/-- `extdout` (R270, R276): the DRAM word at the addressed cell; none where there is no address or the cell holds no value. -/
def State.extdout (s : State) (ext : DataAddr) : Option Byte := (s.busAddress ext).bind fun a => s.dram.read a.toNat

/-! The s-bus. -/

/-- The DMA controller once it is acknowledged: its irq drops and it is idle (R241, R255). The spec describes an acknowledge
after the interrupt is entered, of a transfer that is over. DESIGN CHOICE (log 29): one before the entry makes it idle all
the same, so that the bus is free; one while a further transfer is under way drops the irq and lets the transfer go on; the
source, destination and count registers keep their values in either case, so that a further 0xFF repeats the transfer. -/
def Dma.acked (d : Dma) : Dma := { d with irq := false, phase := if d.phase == .done then .idle else d.phase }

/-- The code `ACK_BASE + line` on the s-bus acknowledges the DMA controller's interrupt (R241, R255). -/
def dmaAck (s : State) (v : Byte) : State :=
  match s.params.dma with
  | none => s
  | some p =>
    if v == ackBase + p.line.setWidth 8 then s.setDma s.dma.acked else s

/-- `SbusOut(v)` (R33): an event, the last value kept, and what the acknowledge decoder makes of it (R241). -/
def State.sbusOut (s : State) (v : Byte) : State := dmaAck ((s.emit (.sbusOut v)).setSbus v) v

/-! Interrupts. -/

/-- The request lines as the DMA controller's irq drives them: its own line, until the acknowledge (R255). -/
def State.dmaIrq (s : State) : BitVec 16 :=
  match s.params.dma with
  | none => 0
  | some p => if s.dma.irq then 1#16 <<< p.line.toNat else 0

/-- `req = ibus AND ie` (R232). -/
def State.req (s : State) : BitVec 16 := (s.ibus ||| s.dmaIrq) &&& s.ie

/-- The least index whose bit is set (R234). -/
def lowestSet (v : BitVec 16) : Option IntNum :=
  ((List.range 16).find? (fun j => v.getLsbD j)).map (BitVec.ofNat 4)

/-- The interrupt a boundary takes: the enabled request of highest priority, unless one is in service (R234, R236). -/
def State.pendingInterrupt (s : State) : Option IntNum := if s.isr then none else lowestSet s.req

/-- The DMA controller once interrupt `k` is entered: if that is its own line and the transfer is over, the core may use the
data bus again (R255). DESIGN CHOICE (log 29): an entry through its line while a further transfer is under way, the irq of the
last one not acknowledged, leaves the controller as it is and the bus barred, and an entry through its line counts as its
own whoever drives the line. -/
def dmaEntered (s : State) (k : IntNum) : Dma :=
  match s.params.dma with
  | none => s.dma
  | some p => if k == p.line && s.dma.phase == .done then { s.dma with phase := .idle } else s.dma

/-- `TakeInterrupt(k)` (R238): pc, sr and pairs 0..NS-1 go to the shadow registers, pc to the entry address of iv[k], the
in-service flag is set and the core runs. Nothing else of the core changes; the DMA controller's phase records the entry
of its interrupt (R255). -/
def State.takeInterrupt (s : State) (k : IntNum) : State :=
  { s with
    dma := dmaEntered s k
    pcs := s.pc
    srs := s.sr
    shadowA := vec8 fun i => if i.val < s.params.ns then s.regs[8 + i.val] else s.shadowA[i.val]
    shadowR := vec8 fun i => if i.val < s.params.ns then s.regs[i.val] else s.shadowR[i.val]
    pc := entryAddr (s.vector k)
    isr := true
    run := .running }

/-- The general registers after a return: pairs 0..NS-1 from the shadow registers, the others as the ISR left them (R201). -/
def State.restoredRegs (s : State) : Vector Byte 16 :=
  vec16 fun n =>
    if h : n.val < 8 then
      if n.val < s.params.ns then s.shadowR[n.val] else s.regs[n.val]
    else
      if n.val - 8 < s.params.ns then s.shadowA[n.val - 8] else s.regs[n.val]

/-- The return from an interrupt (R201). -/
def State.returnFromInterrupt (s : State) : State :=
  { s with regs := s.restoredRegs, sr := s.srs, pc := s.pcs, isr := false }

end Sys2Proof.Machine
end

