-- ==== Sys2Proof/Machine/Boundary.lean ====
section
/-! DEFINITION. What happens at an instruction boundary besides the instruction: the inputs of the step (10_state.md R36), the
pin events (70_reset_and_hazards.md R270 to R274, 20_memory.md R67) and the fetch (20_memory.md R52, R53). -/

namespace Sys2Proof.Machine

/-- Read the next input: its pin event, and the state with the request lines as sampled. With no input left the lines keep
their level (log 11). -/
def State.sample (s : State) : Option PinEvent × State :=
  match s.inputs with
  | [] => (none, s)
  | i :: rest => (i.pin, { s with ibus := i.ibus, inputs := rest })

/-- `rst` (R37, R271): the core as in State.reset; the memories, the devices, the inputs and what the environment has seen
are not touched (log 33). -/
def pinRst (s : State) : State :=
  { State.reset with
    pram := s.pram
    dram := s.dram
    dma := s.dma
    busTaken := s.busTaken
    ibus := s.ibus
    inputs := s.inputs
    events := s.events
    params := s.params
    tick := s.tick }

/-- Whether PRAM has a cell at `a` (R34, R50). -/
def State.inPram (s : State) (a : Nat) : Bool := a < s.params.pramSize

/-- Whether the core is stopped so that the loader may act: IDLE or ENDED (D30). -/
def State.stopped (s : State) : Bool := s.run == .idle || s.run == .ended

/-- `start` (R274): `pc <- 0x000`, RUNNING, nothing else. -/
def pinStart (s : State) : Result :=
  if s.stopped then .next ((s.setPc 0).setRun .running) else .refused .pinEventDuringRun

/-- The loader writes a program byte (R272). -/
def pinProgLoad (a : ProgAddr) (v : Byte) (s : State) : Result :=
  if s.stopped then
    if s.inPram a.toNat then .next (s.setPram (s.pram.write a.toNat v))
    else .refused .externalWriteUndescribed
  else .refused .pinEventDuringRun

/-- A byte written to DRAM from outside, through extdaddr and extdin with extdaddrsel asserted (R67, R273). DESIGN CHOICE
(log 34): the DRAM cell is all that changes; the spec does not say whether the peripherals see such a write too. -/
def externalWrite (a : DataAddr) (v : Byte) (s : State) : Result :=
  if s.busTaken && s.inDram a.toNat && !s.dmaBars then .next (s.setDram (s.dram.write a.toNat v))
  else .refused .externalWriteUndescribed

/-- The loader writes a data byte (R273). -/
def pinDataLoad (a : DataAddr) (v : Byte) (s : State) : Result :=
  if s.stopped then externalWrite a v s else .refused .pinEventDuringRun

/-- Another master writes a data byte (R67). -/
def pinBusWrite (a : DataAddr) (v : Byte) (s : State) : Result := externalWrite a v s

/-- The example DMA controller completes (R255, steps 6 and 7): every byte is moved and its irq asserted. Without a transfer
under way nothing happens. DESIGN CHOICE: the source, destination and count registers stay as they are, and the run state
does not matter (log 29); the transfer completes all the same while extdaddrsel is asserted, the spec saying nothing of two
outside masters at once (log 47). -/
def pinDmaDone (s : State) : State :=
  match s.params.dma with
  | none => s
  | some p =>
    if s.dma.phase == .busy then
      (s.setDram (s.dram.copy s.dma.src.toNat s.dma.dst.toNat (dmaBytes p s.dma.count))).setDma
        { s.dma with phase := .done, irq := true }
    else s

/-- A pin event, which is the whole of its step. DESIGN CHOICE: extdaddrsel may change while a DMA transfer is under way
(log 47). -/
def pinStep (e : PinEvent) (s : State) : Result :=
  match e with
  | .rst => .next (pinRst s)
  | .start => pinStart s
  | .progLoad a v => pinProgLoad a v s
  | .dataLoad a v => pinDataLoad a v s
  | .busSel on => .next { s with busTaken := on }
  | .busWrite a v => pinBusWrite a v s
  | .dmaDone => .next (pinDmaDone s)

/-- `ProgRead(addr)` (R52); a cell nothing has loaded has no value (R272). -/
def State.progRead (s : State) (a : ProgAddr) : Answer Byte :=
  if s.inPram a.toNat then
    match s.pram.read a.toNat with
    | some v => .next v
    | none => .fault .readOfUnwrittenState
  else .fault .fetchOutOfRange

/-- The instruction that bytes are, or the fault their decoding ends in (R93). -/
def decodeAnswer (bytes : List Byte) : Answer Instr :=
  match decode bytes with
  | .ok (i, _) => .next i
  | .error (.reserved b0) => .fault (.reservedEncoding b0)
  | .error .truncated => .fault .fetchOutOfRange

/-- The instruction at pc (R53): its first byte, and the second where the length is two, at `pc + 1` modulo 2^12. A reserved
first byte faults before any other fetch (R93). -/
def State.fetch (s : State) : Answer Instr :=
  andThen (s.progRead s.pc) fun b0 =>
    match lengthOf b0 with
    | some 2 => andThen (s.progRead (s.pc + 1)) fun b1 => decodeAnswer [b0, b1]
    | _ => decodeAnswer [b0]

/-- The machine with nothing that comes before its next instruction: no input pending and no line asserted, not the DMA
controller's either (log 12). -/
def State.quiet (s : State) : State :=
  { s with
    inputs := []
    ibus := 0
    dma := if s.dma.irq then s.dma.acked else s.dma }

/-- The machine with the bytes of a program in PRAM from `a` upward, modulo 2^12. -/
def State.placeBytes (s : State) (a : ProgAddr) : List Byte → State
  | [] => s
  | b :: bs => State.placeBytes (s.setPram (s.pram.write a.toNat b)) (a + 1) bs

end Sys2Proof.Machine
end

