-- ==== Sys2Proof/Machine/Alu.lean ====
section
/-! DEFINITION. The alu group (41_alu.md). The sources are read before the destination is written (R130). -/

namespace Sys2Proof.Machine

/-- The end of the six arithmetic operations (R131): bits 7:0 of the nine-bit value to x[d], Z, N, C from it, X a free value
(log 4), pc + 2. `a` and `b` are the operation's two operands. -/
def finishArith (op : ArithOp) (a b : Byte) (d : RegNum) (t : BitVec 9) (s : State) : Result :=
  .next ((((s.setReg d (result8 t)).setSr (arithFlags s.sr t (Config.aluX op a b s.sr.toByte s.tick))).bump).advance 2)

/-- The end of the four logical operations: the value to x[d], pc + 2, sr unchanged (R131). -/
def finishLogic (d : RegNum) (v : Byte) (s : State) : Result := .next ((s.setReg d v).advance 2)

/-- The shifts and rotates of a byte by 0..7 places (R136 to R139). -/
def shiftByte (op : ShiftOp) (v : Byte) (n : Nat) : Byte :=
  match op with
  | .sll => v <<< n
  | .rol => v.rotateLeft n
  | .srl => v >>> n
  | .ror => v.rotateRight n

/-- The four shifts and rotates: x[d] by the count in x[s]; a count of 8..255 gives a free value (R146, log 5). sr unchanged. -/
def finishShift (op : ShiftOp) (rs d : RegNum) (s : State) : Result :=
  if (s.reg rs).toNat ≤ 7 then .next ((s.setReg d (shiftByte op (s.reg d) (s.reg rs).toNat)).advance 2)
  else .next (((s.setReg d (Config.shiftGe8 op (s.reg d) (s.reg rs) s.tick)).bump).advance 2)

/-- add (R132): `x[s] + x[d]`. -/
def execAdd (rs d : RegNum) (s : State) : Result :=
  finishArith .add (s.reg rs) (s.reg d) d (sum9 (s.reg rs) (s.reg d) false) s

/-- sub (R133): `x[s] - x[d]`, the destination is the subtrahend. -/
def execSub (rs d : RegNum) (s : State) : Result :=
  finishArith .sub (s.reg rs) (s.reg d) d (diff9 (s.reg rs) (s.reg d) false) s

/-- and (R134). -/
def execAnd (rs d : RegNum) (s : State) : Result := finishLogic d (s.reg rs &&& s.reg d) s

/-- lor (R135): bitwise or. -/
def execLor (rs d : RegNum) (s : State) : Result := finishLogic d (s.reg rs ||| s.reg d) s

/-- sll (R136). -/
def execSll (rs d : RegNum) (s : State) : Result := finishShift .sll rs d s

/-- rol (R137). -/
def execRol (rs d : RegNum) (s : State) : Result := finishShift .rol rs d s

/-- srl (R138). -/
def execSrl (rs d : RegNum) (s : State) : Result := finishShift .srl rs d s

/-- ror (R139). -/
def execRor (rs d : RegNum) (s : State) : Result := finishShift .ror rs d s

/-- not (R140): the destination is no source. -/
def execNot (rs d : RegNum) (s : State) : Result := finishLogic d (~~~ s.reg rs) s

/-- xor (R141). -/
def execXor (rs d : RegNum) (s : State) : Result := finishLogic d (s.reg rs ^^^ s.reg d) s

/-- adc (R142): `x[s] + x[d] + sr.C`, the C before the instruction. -/
def execAdc (rs d : RegNum) (s : State) : Result :=
  finishArith .adc (s.reg rs) (s.reg d) d (sum9 (s.reg rs) (s.reg d) s.sr.c) s

/-- sbc (R143): `x[s] - x[d] - sr.C`. -/
def execSbc (rs d : RegNum) (s : State) : Result :=
  finishArith .sbc (s.reg rs) (s.reg d) d (diff9 (s.reg rs) (s.reg d) s.sr.c) s

/-- adi (R144): `x[d] + (Im4 + 1)`. -/
def execAdi (im : BitVec 4) (d : RegNum) (s : State) : Result :=
  finishArith .adi (s.reg d) (adiAmount im) d (sum9 (s.reg d) (adiAmount im) false) s

/-- sbi (R145): `x[d] - (Im4 + 1)`, the register is the minuend. -/
def execSbi (im : BitVec 4) (d : RegNum) (s : State) : Result :=
  finishArith .sbi (s.reg d) (adiAmount im) d (diff9 (s.reg d) (adiAmount im) false) s

end Sys2Proof.Machine
end

