-- ==== Sys2Proof/Machine/Aluc.lean ====
section
/-! DEFINITION. The aluc group (42_aluc_ise.md): the generic aluc instruction (R164) and the seven ISEs. Every call writes its
destination and loads all eight flags from the ISE (R163); the stall cycles are timing (R162, log 35). -/

namespace Sys2Proof.Machine

/-- A value with its byte `k` replaced (R170 to R172). -/
def putByte {w : Nat} (v : BitVec w) (k : Nat) (b : Byte) : BitVec w :=
  (v &&& ~~~ ((0xFF#8).setWidth w <<< (8 * k))) ||| (b.setWidth w <<< (8 * k))

/-- Byte `k` of a value (R170 to R172). -/
def getByte {w : Nat} (v : BitVec w) (k : Nat) : Byte := v.extractLsb' (8 * k) 8

/-- A column as bits, row 0 lowest, for a free value to depend on. -/
def Column.bits (c : Column) : BitVec 128 := (c.b3 ++ c.b2 ++ c.b1 ++ c.b0).setWidth 128

/-- What an aluc instruction presents to its ISE (R161, R164): a = x[s], b = x[d], sr, and the ISE's own state. -/
def State.iseCall (s : State) (op : IseOp) (rs d : RegNum) (cnt : Nat) (inBuf outBuf : BitVec 128) : IseCall :=
  { op, a := s.reg rs, b := s.reg d, sr := s.sr.toByte, cnt, inBuf, outBuf, tick := s.tick }

/-- The end of an aluc instruction (R164): `x[d] <- result`, `sr <- sr_out` (a free value, log 6), pc + 2. -/
def finishAluc (d : RegNum) (result : Byte) (c : IseCall) (s : State) : Result :=
  .next ((((s.setReg d result).setSr (Sr.ofByte (Config.iseSr c))).bump).advance 2)

/-- One call of amc or aic (R168, R169): the result and the ISE's next state. `f` is the column function, `free` the result
of a load-only call (log 7). -/
def mixCall (f : Column → Column) (st : MixIse) (a b free : Byte) : Byte × MixIse :=
  match st.cnt with
  | 0 => (free, { st with cnt := 1, inp := { st.inp with b0 := a, b1 := b } })
  | 1 =>
    let inp := { st.inp with b2 := a, b3 := b }
    ((f inp).b3, { cnt := 2, inp := inp, out := f inp })
  | 2 => (st.out.b2, { st with cnt := 3 })
  | 3 => (st.out.b1, { st with cnt := 4 })
  | 4 => (st.out.b0, { st with cnt := 0 })

/-- One call of swd (R170). -/
def rotCall (st : RotIse) (a b free : Byte) : Byte × RotIse :=
  match st.cnt with
  | 0 => (free, { st with cnt := 1, inp := putByte (putByte st.inp 0 a) 1 b })
  | 1 => (free, { st with cnt := 2, inp := putByte (putByte st.inp 2 a) 3 b })
  | 2 =>
    let out := st.inp.rotateLeft a.toNat
    (getByte out 3, { st with cnt := 3, out := out })
  | 3 => (getByte st.out 2, { st with cnt := 4 })
  | 4 => (getByte st.out 1, { st with cnt := 5 })
  | 5 => (getByte st.out 0, { st with cnt := 0 })

/-- One call of gsp or gip (R171, R172): calls 1 to 8 load two bytes each through `load`, call 8 permutes and returns byte
15, calls 9 to 23 return bytes 14 to 0, each through `unload`. The counter of 23 values wraps to 0 after call 23. -/
def giftCall (load : Byte → Byte) (perm : BitVec 128 → BitVec 128) (unload : Byte → Byte) (st : GiftIse) (a b free : Byte) :
    Byte × GiftIse :=
  let inp := putByte (putByte st.inp (2 * st.cnt.val) (load a)) (2 * st.cnt.val + 1) (load b)
  if st.cnt.val < 7 then (free, { st with cnt := st.cnt + 1, inp := inp })
  else if st.cnt.val = 7 then (unload (getByte (perm inp) 15), { cnt := 8, inp := inp, out := perm inp })
  else (unload (getByte st.out (22 - st.cnt.val)), { st with cnt := st.cnt + 1 })

/-- asb (R166): the AES S-box of x[s]. -/
def execAsb (rs d : RegNum) (s : State) : Result :=
  finishAluc d (aesSbox (s.reg rs)) (s.iseCall .asb rs d 0 0 0) s

/-- aib (R167): the inverse AES S-box of x[s]. -/
def execAib (rs d : RegNum) (s : State) : Result :=
  finishAluc d (aesSboxInv (s.reg rs)) (s.iseCall .aib rs d 0 0 0) s

/-- amc (R168): one of five calls. -/
def execAmc (rs d : RegNum) (s : State) : Result :=
  let c := s.iseCall .amc rs d s.amc.cnt.val s.amc.inp.bits s.amc.out.bits
  let r := mixCall mixColumn s.amc (s.reg rs) (s.reg d) (Config.iseLoadResult c)
  finishAluc d r.1 c (s.setAmc r.2)

/-- aic (R169): one of five calls. -/
def execAic (rs d : RegNum) (s : State) : Result :=
  let c := s.iseCall .aic rs d s.aic.cnt.val s.aic.inp.bits s.aic.out.bits
  let r := mixCall mixColumnInv s.aic (s.reg rs) (s.reg d) (Config.iseLoadResult c)
  finishAluc d r.1 c (s.setAic r.2)

/-- swd (R170): one of six calls. -/
def execSwd (rs d : RegNum) (s : State) : Result :=
  let c := s.iseCall .swd rs d s.swd.cnt.val (s.swd.inp.setWidth 128) (s.swd.out.setWidth 128)
  let r := rotCall s.swd (s.reg rs) (s.reg d) (Config.iseLoadResult c)
  finishAluc d r.1 c (s.setSwd r.2)

/-- gsp (R171): one of twenty-three calls; the S-box on loading, then the permutation. -/
def execGsp (rs d : RegNum) (s : State) : Result :=
  let c := s.iseCall .gsp rs d s.gsp.cnt.val s.gsp.inp s.gsp.out
  let r := giftCall giftSboxByte giftPerm id s.gsp (s.reg rs) (s.reg d) (Config.iseLoadResult c)
  finishAluc d r.1 c (s.setGsp r.2)

/-- gip (R172): one of twenty-three calls; the inverse permutation, then the inverse S-box on unloading. -/
def execGip (rs d : RegNum) (s : State) : Result :=
  let c := s.iseCall .gip rs d s.gip.cnt.val s.gip.inp s.gip.out
  let r := giftCall id giftPermInv giftSboxInvByte s.gip (s.reg rs) (s.reg d) (Config.iseLoadResult c)
  finishAluc d r.1 c (s.setGip r.2)

end Sys2Proof.Machine
end

