-- ==== Sys2Proof/Machine/Gen1.lean ====
section
/-! DEFINITION. The gen1 group (43_gen1.md). Only lsr and rti change sr. nop is `mov r0, r0` (R203). -/

namespace Sys2Proof.Machine

/-- mov (R190). -/
def execMov (rs d : RegNum) (s : State) : Result := .next ((s.setReg d (s.reg rs)).advance 2)

/-- ldb (R191): the address is formed from the old pair. -/
def execLdb (i : PairIdx) (d : RegNum) (s : State) : Result :=
  andThen (s.memRead (s.pair i)) fun r => .next ((r.2.setReg d r.1).advance 2)

/-- lpb (R192): r_i steps by one without carry; a destination that is r_i itself takes a free value (log 8). -/
def execLpb (i : PairIdx) (d : RegNum) (s : State) : Result :=
  andThen (s.memRead (s.pair i)) fun r =>
    if d = rNum i then
      .next (((r.2.setReg d (Config.lpbSameReg r.1 (s.reg (rNum i) + 1) r.2.tick)).bump).advance 2)
    else .next (((r.2.stepPair i).setReg d r.1).advance 2)

/-- stb (R193). -/
def execStb (v : RegNum) (i : PairIdx) (s : State) : Result :=
  andThen (s.memWrite (s.pair i) (s.reg v)) fun s' => .next (s'.advance 2)

/-- spb (R194): the value is x[v] before the increment. -/
def execSpb (v : RegNum) (i : PairIdx) (s : State) : Result :=
  andThen (s.memWrite (s.pair i) (s.reg v)) fun s' => .next ((s'.stepPair i).advance 2)

/-- ret (R195): pc[7:0], then pc[11:8] from the stack; bits 7:4 of the second byte are ignored. -/
def execRet (s : State) : Result :=
  andThen s.popByte fun lo =>
    andThen lo.2.popByte fun hi => .next (hi.2.setPc (hi.1.extractLsb' 0 4 ++ lo.1))

/-- str (R196): push all eight bits of sr. -/
def execStr (s : State) : Result := andThen (s.push s.sr.toByte) fun s' => .next (s'.advance 1)

/-- lsr (R197): pop all eight bits of sr. -/
def execLsr (s : State) : Result := andThen s.popByte fun r => .next ((r.2.setSr (Sr.ofByte r.1)).advance 1)

/-- rie (R198): ie to the pair. -/
def execRie (i : PairIdx) (s : State) : Result := .next ((s.setPair i s.ie).advance 2)

/-- sie (R199): the pair to ie, all sixteen bits. -/
def execSie (i : PairIdx) (s : State) : Result := .next ((s.setIe (s.pair i)).advance 2)

/-- hlt (R200). -/
def execHlt (s : State) : Result := .next ((s.advance 1).setRun .halted)

/-- rti (R201): the return from an interrupt; a model fault when none is in service (log 24). -/
def execRti (s : State) : Result := if s.isr then .next s.returnFromInterrupt else .fault .rtiOutsideIsr

/-- sys (R202): the byte to the s-bus; END_CODE ends the run. -/
def execSys (im : Byte) (s : State) : Result :=
  let s' := (s.sbusOut im).advance 2
  .next (if im == endCode then s'.setRun .ended else s')

end Sys2Proof.Machine
end

