-- ==== Sys2Proof/Machine/MoveControl.lean ====
section
/-! DEFINITION. Immediate moves and control transfer (40_move_immediate_and_control.md). None of the nine changes sr (R110). -/

namespace Sys2Proof.Machine

/-- A conditional branch (R115 to R118): to the target if the flag is set, else to the next instruction. -/
def branchIf (flag : Bool) (im : ProgAddr) (s : State) : Result :=
  .next (if flag then s.setPc im else s.advance 2)

/-- mvs (R111): `sp <- (zext_16(Im12) << 4) - 1`. -/
def execMvs (im : BitVec 12) (s : State) : Result := .next ((s.setSp (mvsValue im)).advance 2)

/-- mvv (R112): `iv[k] <- Im8`. -/
def execMvv (k : IntNum) (im : Byte) (s : State) : Result := .next ((s.setVector k im).advance 2)

/-- jmp (R113): `pc <- Im12`. -/
def execJmp (im : ProgAddr) (s : State) : Result := .next (s.setPc im)

/-- jsr (R114): the return address `pc + 2` goes to the stack, bits 11:8 first in a byte whose upper nibble is zero, then
bits 7:0; `pc <- Im12`. -/
def execJsr (im : ProgAddr) (s : State) : Result :=
  let ra : ProgAddr := s.pc + 2
  andThen (s.push ((ra.extractLsb' 8 4).setWidth 8)) fun s1 =>
    andThen (s1.push (ra.extractLsb' 0 8)) fun s2 => .next (s2.setPc im)

/-- bzi (R115). -/
def execBzi (im : ProgAddr) (s : State) : Result := branchIf s.sr.z im s

/-- bni (R116). -/
def execBni (im : ProgAddr) (s : State) : Result := branchIf s.sr.n im s

/-- bci (R117). -/
def execBci (im : ProgAddr) (s : State) : Result := branchIf s.sr.c im s

/-- bxi (R118). -/
def execBxi (im : ProgAddr) (s : State) : Result := branchIf s.sr.x im s

/-- mvi (R119): `x[d] <- Im8`. -/
def execMvi (d : RegNum) (im : Byte) (s : State) : Result := .next ((s.setReg d im).advance 2)

end Sys2Proof.Machine
end

