-- ==== Sys2Proof/Machine/Stack.lean ====
section
/-! DEFINITION. The stack instructions psh and pop (44_stack.md). -/

namespace Sys2Proof.Machine

/-- psh (R220). -/
def execPsh (rs : RegNum) (s : State) : Result := andThen (s.push (s.reg rs)) fun s' => .next (s'.advance 1)

/-- pop (R221). -/
def execPop (d : RegNum) (s : State) : Result := andThen s.popByte fun r => .next ((r.2.setReg d r.1).advance 1)

end Sys2Proof.Machine
end

