-- ==== Sys2Proof/Machine/Dispatch.lean ====
section
/-! DEFINITION. The meaning of every instruction: one arm per constructor of Instr, each one call. -/

namespace Sys2Proof.Machine

def exec (i : Instr) (s : State) : Host.Outcome State Fault Refusal :=
  match i with
  | .mvs im => Sys2Proof.Machine.execMvs im s
  | .mvv k im => Sys2Proof.Machine.execMvv k im s
  | .jmp im => Sys2Proof.Machine.execJmp im s
  | .jsr im => Sys2Proof.Machine.execJsr im s
  | .bzi im => Sys2Proof.Machine.execBzi im s
  | .bni im => Sys2Proof.Machine.execBni im s
  | .bci im => Sys2Proof.Machine.execBci im s
  | .bxi im => Sys2Proof.Machine.execBxi im s
  | .mvi d im => Sys2Proof.Machine.execMvi d im s
  | .add rs d => Sys2Proof.Machine.execAdd rs d s
  | .sub rs d => Sys2Proof.Machine.execSub rs d s
  | .and rs d => Sys2Proof.Machine.execAnd rs d s
  | .lor rs d => Sys2Proof.Machine.execLor rs d s
  | .sll rs d => Sys2Proof.Machine.execSll rs d s
  | .rol rs d => Sys2Proof.Machine.execRol rs d s
  | .srl rs d => Sys2Proof.Machine.execSrl rs d s
  | .ror rs d => Sys2Proof.Machine.execRor rs d s
  | .not rs d => Sys2Proof.Machine.execNot rs d s
  | .xor rs d => Sys2Proof.Machine.execXor rs d s
  | .adc rs d => Sys2Proof.Machine.execAdc rs d s
  | .sbc rs d => Sys2Proof.Machine.execSbc rs d s
  | .adi im d => Sys2Proof.Machine.execAdi im d s
  | .sbi im d => Sys2Proof.Machine.execSbi im d s
  | .asb rs d => Sys2Proof.Machine.execAsb rs d s
  | .aib rs d => Sys2Proof.Machine.execAib rs d s
  | .amc rs d => Sys2Proof.Machine.execAmc rs d s
  | .aic rs d => Sys2Proof.Machine.execAic rs d s
  | .swd rs d => Sys2Proof.Machine.execSwd rs d s
  | .gsp rs d => Sys2Proof.Machine.execGsp rs d s
  | .gip rs d => Sys2Proof.Machine.execGip rs d s
  | .mov rs d => Sys2Proof.Machine.execMov rs d s
  | .ldb p d => Sys2Proof.Machine.execLdb p d s
  | .lpb p d => Sys2Proof.Machine.execLpb p d s
  | .stb v p => Sys2Proof.Machine.execStb v p s
  | .spb v p => Sys2Proof.Machine.execSpb v p s
  | .ret => Sys2Proof.Machine.execRet s
  | .str => Sys2Proof.Machine.execStr s
  | .lsr => Sys2Proof.Machine.execLsr s
  | .rie p => Sys2Proof.Machine.execRie p s
  | .sie p => Sys2Proof.Machine.execSie p s
  | .hlt => Sys2Proof.Machine.execHlt s
  | .rti => Sys2Proof.Machine.execRti s
  | .sys im => Sys2Proof.Machine.execSys im s
  | .psh rs => Sys2Proof.Machine.execPsh rs s
  | .pop d => Sys2Proof.Machine.execPop d s

end Sys2Proof.Machine
end

