-- ==== Sys2Proof/Machine/Cycle.lean ====
section
/-! DEFINITION. One step of the machine (60_exceptions.md R235). -/

namespace Sys2Proof.Machine

/-- Fetch, decode and execute one instruction. -/
def runInstruction (s : State) : Result := andThen s.fetch fun i => exec i s

/-- The step of the core (R235): an interrupt before the fetch, and only between instructions; a halted core waits; an IDLE or
ENDED core does nothing. -/
def coreStep (s : State) : Result :=
  match s.run with
  | .idle => .next s
  | .ended => .next s
  | .running =>
    match s.pendingInterrupt with
    | some k => .next (s.takeInterrupt k)
    | none => runInstruction s
  | .halted =>
    match s.pendingInterrupt with
    | some k => .next (s.takeInterrupt k)
    | none => .next s

/-- One step: read the inputs of this boundary; a pin event is the whole step, else the core steps (log 11). -/
def cycle (s : State) : Result :=
  match s.sample with
  | (some e, s') => pinStep e s'
  | (none, s') => coreStep s'

end Sys2Proof.Machine
end

