-- ==== Sys2Proof/Machine/Step.lean ====
section
/-! DEFINITION. The step function, and the placing of one instruction where it will be fetched. -/

namespace Sys2Proof.Machine

/-- One step of the machine. -/
def step : State → Host.Outcome State Fault Refusal := cycle

/-- `s` with the instruction of a table word at pc, loaded and started, so that the next step runs it: all of PRAM is
present, the core runs, and nothing comes before the instruction (log 12). -/
def State.withFetchWord (s : State) (nbits w : Nat) : State :=
  { (s.placeBytes s.pc (tableBytes nbits w)).quiet with
    params := { s.params with pramSize := 4096 }
    run := .running }

end Sys2Proof.Machine
end

