-- ==== Sys2Proof/Machine/Assembler.lean ====
section
/-! DEFINITION. The assembler's operands and directives (30_encoding.md R87, R88, R97 to R101) over lines that are already parsed,
and the loader's protocol that brings an object into the machine (70_reset_and_hazards.md R272 to R274). The text form of
a line and the hex files are not modelled (log 44). -/

namespace Sys2Proof.Machine

/-- An 8-bit operand: a constant or an `.equ` name (R97). -/
inductive DataRef where
  | const (v : Byte)
  | named (n : String)
  deriving DecidableEq, Repr

/-- A 12-bit program reference: a constant or a label (R97). -/
inductive ProgRef where
  | const (a : ProgAddr)
  | label (n : String)
  deriving DecidableEq, Repr

/-- The commands with a 12-bit program operand (R98). -/
inductive JumpOp where
  | jmp | jsr | bzi | bni | bci | bxi
  deriving DecidableEq, Repr

/-- A command as the programmer writes it (R98). A command whose operands are the fields themselves is `plain`. An `.equ` name
stands for an 8-bit operand only (R97): whether it may stand for a 12-bit or a 16-bit one is left open, and here it may not.
DESIGN CHOICE (log 45). -/
inductive Command where
  /-- the operand is the value before the subtraction, a constant (log 45); its low four bits are zero (R88) -/
  | mvs (v : BitVec 16)
  /-- the operand is the entry address, a constant; its low four bits are zero (R88). R97 lets a 12-bit operand be a label,
  R98 names none for mvv: DESIGN CHOICE (log 45) -/
  | mvv (a : ProgAddr) (k : IntNum)
  | jump (op : JumpOp) (t : ProgRef)
  | mvi (v : DataRef) (d : RegNum)
  /-- the operand is the amount, 1..16 (R87) -/
  | adi (n : Nat) (d : RegNum)
  | sbi (n : Nat) (d : RegNum)
  | sys (v : DataRef)
  /-- `mov r0, r0` (R100) -/
  | nop
  | plain (i : Instr)
  deriving DecidableEq, Repr

/-- A line of source: a directive (R99) or a command. -/
inductive Line where
  | equ (n : String) (v : Byte)
  | lbl (n : String)
  | dat (a : DataAddr) (bytes : List Byte)
  | endMark
  | align
  | code (c : Command)
  deriving DecidableEq, Repr

/-- The object: the program bytes from address 0x000 upward, and the data bytes with their addresses (R101). -/
structure Object where
  prog : List Byte
  data : List (DataAddr × Byte)
  deriving DecidableEq, Repr

/-- How many program bytes a command takes (R80). -/
def commandSize : Command → Nat
  | .plain i => (encode i).length
  | _ => 2

/-- The address after a line (R99, R101): `.align` fills up to a multiple of 16, the other directives emit no byte. -/
def addrAfter (addr : Nat) : Line → Nat
  | .code c => addr + commandSize c
  | .align => (addr + 15) / 16 * 16
  | _ => addr

/-- The address of the next command among the lines that follow, from `addr` on: behind the padding of an `.align` that
stands before it (R99). Where no command follows, the address after the last line (log 45). -/
def nextCommandAddr (addr : Nat) : List Line → Nat
  | [] => addr
  | .code _ :: _ => addr
  | l :: ls => nextCommandAddr (addrAfter addr l) ls

/-- The label table of the first pass: a label takes the address of the next command (R99). -/
def labelsFrom (addr : Nat) : List Line → List (String × Nat)
  | [] => []
  | .lbl n :: ls => (n, nextCommandAddr addr ls) :: labelsFrom addr ls
  | l :: ls => labelsFrom (addrAfter addr l) ls

/-- The `.equ` table (R99). DESIGN CHOICE: R99 says that `.equ` lines should stand at the beginning of the code; one that
stands later is accepted and serves references before it too (log 45). -/
def equsOf (ls : List Line) : List (String × Byte) :=
  ls.filterMap fun l => match l with
    | .equ n v => some (n, v)
    | _ => none

/-- Resolve a program reference (R99). DESIGN CHOICE: of two definitions of a label the first counts, and an `.equ` of the same
name is another name (log 45); an address from 0x1000 on is taken modulo 2^12 (log 46). -/
def resolveProg (labels : List (String × Nat)) : ProgRef → Option ProgAddr
  | .const a => some a
  | .label n => (labels.lookup n).map (BitVec.ofNat 12)

/-- Resolve a data reference (R99). DESIGN CHOICE: of two definitions of an `.equ` name the first counts, and a label of the
same name is another name (log 45). -/
def resolveData (equs : List (String × Byte)) : DataRef → Option Byte
  | .const v => some v
  | .named n => equs.lookup n

/-- The instruction of a jump or branch. -/
def jumpInstr : JumpOp → ProgAddr → Instr
  | .jmp, a => .jmp a
  | .jsr, a => .jsr a
  | .bzi, a => .bzi a
  | .bni, a => .bni a
  | .bci, a => .bci a
  | .bxi, a => .bxi a

/-- The field of adi and sbi: the operand minus 1 (R87). -/
def amountField (n : Nat) : Option (BitVec 4) := if 1 ≤ n ∧ n ≤ 16 then some (BitVec.ofNat 4 (n - 1)) else none

/-- The instruction of a command; none for an operand outside its range or a name without a definition. -/
def commandInstr (labels : List (String × Nat)) (equs : List (String × Byte)) : Command → Option Instr
  | .mvs v => if v.extractLsb' 0 4 = 0 then some (.mvs (v.extractLsb' 4 12)) else none
  | .mvv a k => if a.extractLsb' 0 4 = 0 then some (.mvv k (a.extractLsb' 4 8)) else none
  | .jump op t => (resolveProg labels t).map (jumpInstr op)
  | .mvi v d => (resolveData equs v).map (fun b => .mvi d b)
  | .adi n d => (amountField n).map (fun f => .adi f d)
  | .sbi n d => (amountField n).map (fun f => .sbi f d)
  | .sys v => (resolveData equs v).map .sys
  | .nop => some (.mov 0 0)
  | .plain i => some i

/-- The program bytes of the second pass (R99: the padding of `.align` is 0x00). -/
def progFrom (labels : List (String × Nat)) (equs : List (String × Byte)) (addr : Nat) : List Line → Option (List Byte)
  | [] => some []
  | l :: ls =>
    match progFrom labels equs (addrAfter addr l) ls with
    | none => none
    | some rest =>
      match l with
      | .code c => (commandInstr labels equs c).map (fun i => encode i ++ rest)
      | .align => some (List.replicate (addrAfter addr l - addr) 0 ++ rest)
      | _ => some rest

/-- The bytes of a `.dat` line at ascending addresses (R99). DESIGN CHOICE: beyond 0xFFFF they go on at 0x0000 (log 46). -/
def datCells (a : DataAddr) : List Byte → List (DataAddr × Byte)
  | [] => []
  | b :: bs => (a, b) :: datCells (a + 1) bs

/-- The data bytes of a source (R99), in source order. DESIGN CHOICE: a `.dat` line is accepted wherever it stands, not only
before the programming statements (log 45), and of two bytes for one address the later is loaded last and stays (log 46). -/
def dataOf (ls : List Line) : List (DataAddr × Byte) :=
  ls.flatMap fun l => match l with
    | .dat a bytes => datCells a bytes
    | _ => []

/-- Whether a line has what its directive must have: a `.dat` at least one byte of data (R99). -/
def Line.complete : Line → Bool
  | .dat _ bytes => !bytes.isEmpty
  | _ => true

/-- Assemble a source in two passes (R101); none for an incomplete line, an illegal reference or operand. DESIGN CHOICE: R99
says that the user should give an `.end`; a source with none or with several is accepted, and the object keeps no end
address (log 45). -/
def assemble (ls : List Line) : Option Object :=
  if ls.all Line.complete then
    (progFrom (labelsFrom 0 ls) (equsOf ls) 0 ls).map fun p => { prog := p, data := dataOf ls }
  else none

/-- The pin events by which the loader brings an object in and starts it: program bytes from 0x000 upward (R272), data bytes
between asserting and releasing extdaddrsel (R273), `start` (R274). DESIGN CHOICE: a program of more than 4096 bytes goes on
at 0x000, over its own first bytes (log 46). -/
def loaderEvents (o : Object) : List PinEvent :=
  (o.prog.zipIdx.map fun c => .progLoad (BitVec.ofNat 12 c.2) c.1)
    ++ (.busSel true :: o.data.map fun c => .dataLoad c.1 c.2)
    ++ [.busSel false, .start]

/-- The same as the machine's inputs, one event a step and all lines low (log 11). -/
def loaderInputs (o : Object) : List Input := (loaderEvents o).map fun e => { ibus := 0, pin := some e }

end Sys2Proof.Machine
end

