-- ==== Sys2Proof/Machine/Timing.lean ====
section
/-! DEFINITION. Clock cycles as the manual states them (70_reset_and_hazards.md R285, R286; 42_aluc_ise.md R176). No step reads
them: one instruction is one step (log 35). -/

namespace Sys2Proof.Machine

/-- The cycles of an instruction (R285), for an aluc instruction without its wait cycles. -/
def baseCycles : Instr → Nat
  | .str => 1
  | .lsr => 1
  | .hlt => 1
  | .rti => 1
  | .psh _ => 1
  | .pop _ => 1
  | _ => 2

/-- A row of Table 3: the calls of a whole sequence, the wait cycles in it, and its cycles (R176). -/
structure IseTiming where
  calls : Nat
  waits : Nat
  total : Nat
  deriving DecidableEq, Repr

/-- Table 3 (R176). -/
def iseTiming : IseOp → IseTiming
  | .asb => ⟨1, 0, 2⟩
  | .aib => ⟨1, 0, 2⟩
  | .amc => ⟨5, 3, 13⟩
  | .aic => ⟨5, 23, 33⟩
  | .swd => ⟨6, 1, 13⟩
  | .gsp => ⟨23, 1, 47⟩
  | .gip => ⟨23, 1, 47⟩

end Sys2Proof.Machine
end

