-- ==== Sys2Proof/Safety.lean ====
section
/-! DEFINITION. The terms the statements use: the invariant of the machine, what an instruction leaves alone (frames), what the
data bus answers at an address, and the runs without a stop. -/

namespace Sys2Proof.Machine

/-! The invariant. -/

/-- The invariant every step keeps: the parameters are in their ranges (R6); both memories are in canonical form and list
only cells that exist (R34, R35); a DMA that is not idle or asserts its irq is one the platform has, one whose transfer is
over and whose interrupt is not yet entered asserts its irq, and one under way moves blocks that exist and do not overlap
(R254, R255). -/
structure State.Inv (s : State) : Prop where
  params : s.params.wf = true
  pramWf : s.pram.wf = true
  pramBelow : Memory.below s.params.pramSize s.pram = true
  dramWf : s.dram.wf = true
  dramBelow : Memory.below s.params.dramSize s.dram = true
  dmaThere : s.dma.phase ≠ .idle ∨ s.dma.irq = true → s.params.dma.isSome = true
  dmaDone : s.dma.phase = .done → s.dma.irq = true
  dmaLegal : ∀ p, s.params.dma = some p → s.dma.phase = .busy → dmaBlocksLegal s p = true

/-! Frames: what stays as it was. -/

/-- Every general register but those in `ns` is unchanged. -/
def SameRegsBut (ns : List RegNum) (s t : State) : Prop := ∀ n, n ∉ ns → t.reg n = s.reg n

/-- The interrupt registers: vectors, enable, shadows, in-service flag (R27 to R30). -/
def SameInterrupts (s t : State) : Prop :=
  t.iv = s.iv ∧ t.ie = s.ie ∧ t.pcs = s.pcs ∧ t.srs = s.srs ∧ t.shadowA = s.shadowA ∧ t.shadowR = s.shadowR ∧ t.isr = s.isr

/-- The states of the five multi-call ISEs (R32). -/
def SameIses (s t : State) : Prop :=
  t.amc = s.amc ∧ t.aic = s.aic ∧ t.swd = s.swd ∧ t.gsp = s.gsp ∧ t.gip = s.gip

/-- Every byte of data memory and of program memory. -/
def SameMemories (s t : State) : Prop := (∀ a, t.dram.read a = s.dram.read a) ∧ ∀ a, t.pram.read a = s.pram.read a

/-- The run state, the s-bus, what the environment has seen, the devices, the inputs and the parameters. -/
def SameOutside (s t : State) : Prop :=
  t.run = s.run ∧ t.sbus = s.sbus ∧ t.events = s.events ∧ t.dma = s.dma ∧ t.busTaken = s.busTaken ∧ t.ibus = s.ibus
    ∧ t.inputs = s.inputs ∧ t.params = s.params

/-- Nothing changes but general registers, pc, sp and sr (and the model's tick). -/
def SameElsewhere (s t : State) : Prop :=
  SameInterrupts s t ∧ SameIses s t ∧ SameMemories s t ∧ SameOutside s t

/-- The user flags (R25). -/
def SameUserFlags (s t : State) : Prop :=
  t.sr.u3 = s.sr.u3 ∧ t.sr.u2 = s.sr.u2 ∧ t.sr.u1 = s.sr.u1 ∧ t.sr.u0 = s.sr.u0

/-- What an instruction that accesses data memory leaves alone everywhere else: all but general registers, pc, sp, sr, data
memory, the events and the DMA controller. -/
def SameButData (s t : State) : Prop :=
  SameInterrupts s t ∧ SameIses s t ∧ (∀ a, t.pram.read a = s.pram.read a)
    ∧ t.run = s.run ∧ t.sbus = s.sbus ∧ t.busTaken = s.busTaken ∧ t.ibus = s.ibus ∧ t.inputs = s.inputs
    ∧ t.params = s.params

/-! The data bus at an address. -/

/-- The byte a read of `a` gives (R54): none where the read stops. -/
def State.readValue (s : State) (a : DataAddr) : Option Byte :=
  if s.busBusy then none
  else if s.answersRead a.toNat then some (Config.periphRead a s.events s.tick)
  else if s.inDram a.toNat then s.dram.read a.toNat
  else none

/-- Whether a write at `a` has a place to go (R55) that is not a register of the DMA controller. -/
def State.canWrite (s : State) (a : DataAddr) : Bool :=
  !s.busBusy && (s.inDram a.toNat || s.claimed a.toNat) && !s.dmaClaims a.toNat

/-- What cell `x` holds once `v` is written at `a`: a peripheral's address without DRAM beneath it changes no cell (R55). -/
def State.cellAfter (s : State) (a : DataAddr) (v : Byte) (x : Nat) : Option Byte :=
  if x = a.toNat ∧ s.inDram a.toNat = true then some v else s.dram.read x

/-- What an instruction that reads `a` leaves alone: no cell changes, and the read is recorded. -/
def ReadFrame (a : DataAddr) (s t : State) : Prop :=
  SameButData s t ∧ (∀ x, t.dram.read x = s.dram.read x) ∧ t.dma = s.dma ∧ t.events = s.events ++ [.dataRead a]

/-- What an instruction that writes `v` at `a` leaves alone: every other cell; the write is recorded. -/
def WriteFrame (a : DataAddr) (v : Byte) (s t : State) : Prop :=
  SameButData s t ∧ (∀ x, t.dram.read x = s.cellAfter a v x) ∧ t.dma = s.dma ∧ t.events = s.events ++ [.dataWrite a v]

/-- The end of an arithmetic operation whose exact result is `total` modulo 2^8 (R131): the register, Z, N and the given
carry; X is free, the user flags and all else are unchanged. -/
def ArithDone (d : RegNum) (total : Nat) (carry : Bool) (s t : State) : Prop :=
  (t.reg d).toNat = total % 256 ∧ t.sr.z = decide (total % 256 = 0) ∧ t.sr.n = decide (128 ≤ total % 256) ∧ t.sr.c = carry
    ∧ SameUserFlags s t ∧ t.pc = s.pc + 2 ∧ t.sp = s.sp ∧ SameRegsBut [d] s t ∧ SameElsewhere s t

/-- Only register `d` and pc change, and pc by two. -/
def OnlyRegAndPc (d : RegNum) (s t : State) : Prop :=
  t.pc = s.pc + 2 ∧ t.sp = s.sp ∧ t.sr = s.sr ∧ SameRegsBut [d] s t ∧ SameElsewhere s t

/-- What an aluc instruction leaves alone but for the ISE's own state: x[d] and sr are written, pc moves by two. -/
def AlucFrame (d : RegNum) (s t : State) : Prop :=
  t.pc = s.pc + 2 ∧ t.sp = s.sp ∧ SameRegsBut [d] s t ∧ SameInterrupts s t ∧ SameMemories s t ∧ SameOutside s t

/-- The product of two bytes in GF(2^8) modulo x^8 + x^4 + x^3 + x + 1, by the bits of the first (R173). -/
def gfProduct (a b : Byte) : Byte :=
  gfMul (a.extractLsb' 0 4) b ^^^ gfMul (a.extractLsb' 4 4) (gfDouble (gfDouble (gfDouble (gfDouble b))))

/-! Inputs and runs. -/

/-- No pin event at this boundary: the next input has none, or there is no input left. -/
def State.noPin (s : State) : Prop := s.sample.1 = none

/-- The state with this boundary's lines sampled (R233). -/
def State.sampled (s : State) : State := s.sample.2

/-- Whether an answer is a fault. -/
def isFault {α : Type} (o : Answer α) : Prop := ∃ f, o = .fault f

/-- A run of `k` steps meets no fault and no refusal. -/
def State.safeFor (k : Nat) (s : State) : Prop := ∃ t, Sys2Proof.core.run k s = .next t

/-- The operands of one call to an ISE: the two bytes, and the value the call returns if it only loads (R165). -/
structure IseOperands where
  a : Byte
  b : Byte
  free : Byte
  deriving DecidableEq, Repr

/-- What a sequence of calls to an ISE returns, the ISE's state handed from call to call (R165). -/
def iseSequence {st : Type} (call : st → Byte → Byte → Byte → Byte × st) : st → List IseOperands → List Byte × st
  | s, [] => ([], s)
  | s, o :: rest =>
    let r := call s o.a o.b o.free
    let q := iseSequence call r.2 rest
    (r.1 :: q.1, q.2)

end Sys2Proof.Machine
end

