-- ==== Sys2Proof/Certificates/Slice0/Obligations.lean ====
section
/-! DEFINITION. The statements for the provers. -/

section

open Sys2Proof Sys2Proof.Machine

/-! Encoding. -/

/-- Decoding an encoded instruction gives it back, with the bytes that follow it (R81, R85 to R87, R89 to R92, R95). -/
def Obligations.DecodeEncode : Prop :=
  ∀ (i : Instr) (rest : List Byte), decode (encode i ++ rest) = .ok (i, rest)

/-- The bytes a decoded instruction took are its encoding, so that every bit is an opcode bit or a field, but for the bits
of rie and sie that the core ignores and the encoder writes as zero (R94). -/
def Obligations.EncodeDecode : Prop :=
  (∀ (bytes rest : List Byte) (i : Instr), decode bytes = .ok (i, rest) →
    ∃ taken, bytes = taken ++ rest ∧
      (taken = encode i
        ∨ (∃ p b1, i = .rie p ∧ taken = [0xC6, b1] ∧ b1.extractLsb' 4 3 = p)
        ∨ ∃ p b1, i = .sie p ∧ taken = [0xC7, b1] ∧ b1.extractLsb' 4 3 = p))
    ∧ (∀ (b1 : Byte) (rest : List Byte), decode (0xC6 :: b1 :: rest) = .ok (.rie (b1.extractLsb' 4 3), rest)
        ∧ decode (0xC7 :: b1 :: rest) = .ok (.sie (b1.extractLsb' 4 3), rest))
    ∧ ∀ p : PairIdx, encode (.rie p) = [0xC6#8, p.setWidth 8 <<< 4] ∧ encode (.sie p) = [0xC7#8, p.setWidth 8 <<< 4]

/-- The decoder reads exactly what the opcode table says (R96): a row that matches names the instruction, two rows never
match the same bytes, and bytes that match no row are reserved. -/
def Obligations.DecodeAgreesWithOpcodeTable : Prop :=
  ∀ (b0 b1 : Byte) (rest : List Byte),
    (∀ r ∈ opcodeRows, rowMatches b0 b1 r = true →
      (∃ i, decode (b0 :: b1 :: rest) = .ok (i, if r.length = 1 then b1 :: rest else rest) ∧ i.mnemonic = r.mnemonic)
        ∧ ∀ r' ∈ opcodeRows, rowMatches b0 b1 r' = true → r' = r)
    ∧ ((∀ r ∈ opcodeRows, rowMatches b0 b1 r = false) → decode (b0 :: b1 :: rest) = .error (.reserved b0))

/-- A reserved first byte stops the step, whatever byte follows it in program memory (R93). -/
def Obligations.ReservedEncodingsFault : Prop :=
  ∀ (s u : State) (b0 : Byte), s.sample = (none, u) → u.run = .running → u.pendingInterrupt = none →
    u.progRead u.pc = .next b0 →
    (0xB0 ≤ b0.toNat ∧ b0.toNat ≤ 0xBF ∨ 0xF0 ≤ b0.toNat ∨ b0 = 0x98 ∨ b0 = 0x99 ∨ 0xCA ≤ b0.toNat ∧ b0.toNat ≤ 0xCE
      ∨ 0xA7 ≤ b0.toNat ∧ b0.toNat ≤ 0xAF) →
    step s = .fault (.reservedEncoding b0)

/-- Words written out from the examples of the spec decode to the instructions they stand for (40 to 44). -/
def Obligations.SpecWordsDecode : Prop :=
  decode [0x00, 0x04] = .ok (.mvs 0x004, [])
    ∧ decode [0x14, 0xFF] = .ok (.mvv 4 0xFF, [])
    ∧ decode [0x20, 0x44] = .ok (.jmp 0x044, [])
    ∧ decode [0x9E, 0x48] = .ok (.adi 4 8, [])
    ∧ decode [0xA2, 0x89] = .ok (.amc 8 9, [])
    ∧ decode [0xC2, 0x18] = .ok (.spb 1 0, [])
    ∧ decode [0xC1, 0x39] = .ok (.ldb 3 9, [])
    ∧ decode [0xC7, 0x40] = .ok (.sie 4, [])
    ∧ decode [0xD8] = .ok (.psh 8, [])
    ∧ decode [0xCF, 0xFF] = .ok (.sys 0xFF, [])

/-! The step. -/

/-- Without a pin event and an interrupt to take, a running core runs the instruction that the one or two bytes at pc
decode to, on the state with this boundary's lines sampled (R53, R235). -/
def Obligations.StepRunsDecodedInstruction : Prop :=
  ∀ (s u : State) (i : Instr) (b0 b1 : Byte), s.sample = (none, u) → u.run = .running → u.pendingInterrupt = none →
    u.progRead u.pc = .next b0 →
    (decode [b0] = .ok (i, []) ∨ u.progRead (u.pc + 1) = .next b1 ∧ decode [b0, b1] = .ok (i, [])) →
    step s = exec i u

/-- The step after withFetchWord runs the instruction of the table word (log 12). -/
def Obligations.FetchWordRuns : Prop :=
  ∀ (s : State) (nbits w : Nat) (i : Instr), decodeTableWord nbits w = some i →
    step (s.withFetchWord nbits w) = exec i (s.withFetchWord nbits w)

/-- A read of program memory (R52): the byte loaded there, the fault beyond PRAM_SIZE; and a running or halted core's
program memory does not change. -/
def Obligations.ProgRead : Prop :=
  ∀ (s : State) (a : ProgAddr),
    (a.toNat < s.params.pramSize → ∀ v, s.pram.read a.toNat = some v → s.progRead a = .next v)
    ∧ (s.params.pramSize ≤ a.toNat → s.progRead a = .fault .fetchOutOfRange)
    ∧ ((s.run = .running ∨ s.run = .halted) → ∀ t, step s = .next t → t.pram = s.pram)

/-- Self-modification is impossible (R70): only the loader writes program memory, and only while the core is stopped; a
loader's write during a run is refused. -/
def Obligations.OnlyTheLoaderWritesProgram : Prop :=
  ∀ (s t : State), step s = .next t → t.pram ≠ s.pram →
    (s.run = .idle ∨ s.run = .ended) ∧ ∃ a v, s.sample.1 = some (.progLoad a v)

/-- A fetch that cannot have its bytes stops the step before anything of the instruction happens (R52, R246, R272): b0 out
of range or never loaded, or b1 so. -/
def Obligations.FetchFaults : Prop :=
  ∀ (s u : State), s.sample = (none, u) → u.run = .running → u.pendingInterrupt = none →
    (u.params.pramSize ≤ u.pc.toNat → step s = .fault .fetchOutOfRange)
    ∧ (u.pc.toNat < u.params.pramSize → u.pram.read u.pc.toNat = none → step s = .fault .readOfUnwrittenState)
    ∧ ∀ b0, u.progRead u.pc = .next b0 → lengthOf b0 = some 2 →
        (u.params.pramSize ≤ (u.pc + 1).toNat → step s = .fault .fetchOutOfRange)
        ∧ ((u.pc + 1).toNat < u.params.pramSize → u.pram.read (u.pc + 1).toNat = none →
            step s = .fault .readOfUnwrittenState)

/-- A core that takes no interrupt at a boundary (R235, R245): a running one fetches and executes; a halted one waits; an
idle or ended one does nothing. -/
def Obligations.BoundaryWithoutEntry : Prop :=
  ∀ (s u : State), s.sample = (none, u) →
    ((u.run = .idle ∨ u.run = .ended) → step s = .next u)
    ∧ (u.req = 0 → (u.run = .halted → step s = .next u) ∧ (u.run = .running → step s = runInstruction u))

/-! Interrupts. -/

/-- Taking an interrupt (R234, R238): between instructions, the enabled request of lowest number, in a running or a halted
core with none in service. -/
def Obligations.InterruptEntry : Prop :=
  ∀ (s u : State) (k : IntNum), s.sample = (none, u) → (u.run = .running ∨ u.run = .halted) → u.isr = false →
    u.req.getLsbD k.toNat = true → (∀ j, j < k.toNat → u.req.getLsbD j = false) →
    ∃ t, step s = .next t ∧ t.pcs = u.pc ∧ t.srs = u.sr ∧ t.pc.toNat = 16 * (u.vector k).toNat ∧ t.isr = true
      ∧ t.run = .running
      ∧ (∀ i (h : i < 8), i < u.params.ns → t.shadowA[i] = u.regs[8 + i] ∧ t.shadowR[i] = u.regs[i])
      ∧ (∀ i (h : i < 8), u.params.ns ≤ i → t.shadowA[i] = u.shadowA[i] ∧ t.shadowR[i] = u.shadowR[i])
      ∧ t.regs = u.regs ∧ t.sp = u.sp ∧ t.sr = u.sr ∧ t.iv = u.iv ∧ t.ie = u.ie ∧ SameIses u t ∧ SameMemories u t
      ∧ t.sbus = u.sbus ∧ t.events = u.events ∧ t.busTaken = u.busTaken ∧ t.ibus = u.ibus ∧ t.inputs = u.inputs
      ∧ t.params = u.params

/-- No interrupt is taken while one is in service (R236): whatever lines are high, a running core goes on with its
instructions and a halted one waits. Entry sets the in-service flag and leaves ie and the lines alone, rti clears it. -/
def Obligations.NoEntryInService : Prop :=
  ∀ (s u : State), s.sample = (none, u) →
    (u.isr = true → (u.run = .running → step s = runInstruction u) ∧ (u.run = .halted → step s = .next u))
    ∧ (∀ t, u.isr = false → (u.run = .running ∨ u.run = .halted) → u.req ≠ 0 → step s = .next t →
        t.isr = true ∧ t.ie = u.ie ∧ t.ibus = u.ibus)
    ∧ ∀ t, exec .rti u = .next t → t.isr = false ∧ t.ie = u.ie

/-- The effective requests (R232): the lines that are high and enabled, the DMA controller's among them. -/
def Obligations.EffectiveRequests : Prop :=
  ∀ (s : State) (j : Nat), s.req.getLsbD j = true ↔
    s.ie.getLsbD j = true ∧ (s.ibus.getLsbD j = true
      ∨ ∃ p, s.params.dma = some p ∧ p.line.toNat = j ∧ s.dma.irq = true)

/-- rti (R201): the return when an interrupt is in service, the fault when none is. -/
def Obligations.RtiReturns : Prop :=
  ∀ (s : State),
    (s.isr = true → ∃ t, exec .rti s = .next t ∧ t.pc = s.pcs ∧ t.sr = s.srs ∧ t.isr = false
      ∧ (∀ i (h : i < 8), i < s.params.ns → t.regs[8 + i] = s.shadowA[i] ∧ t.regs[i] = s.shadowR[i])
      ∧ (∀ i (h : i < 8), s.params.ns ≤ i → t.regs[8 + i] = s.regs[8 + i] ∧ t.regs[i] = s.regs[i])
      ∧ t.sp = s.sp ∧ t.iv = s.iv ∧ t.ie = s.ie ∧ t.pcs = s.pcs ∧ t.srs = s.srs ∧ t.shadowA = s.shadowA
      ∧ t.shadowR = s.shadowR ∧ SameIses s t ∧ SameMemories s t ∧ SameOutside s t)
    ∧ (s.isr = false → exec .rti s = .fault .rtiOutsideIsr)

/-- While an interrupt is in service no step writes a shadow register, but a rst (R29, R236, R243). -/
def Obligations.ShadowsKeptInService : Prop :=
  ∀ (s t : State), s.isr = true → s.sample.1 ≠ some .rst → step s = .next t →
    t.pcs = s.pcs ∧ t.srs = s.srs ∧ t.shadowA = s.shadowA ∧ t.shadowR = s.shadowR

/-- An interrupt is transparent (R238, R201, R243): whatever an ISR does in any number of steps, its rti gives the
interrupted program its pc, its sr and its pairs below NS back. -/
def Obligations.InterruptTransparent : Prop :=
  ∀ (s t : State) (k : IntNum) (n : Nat), (∀ i ∈ s.inputs, i.pin ≠ some .rst) →
    (∀ m x, m ≤ n → Sys2Proof.core.run m (s.takeInterrupt k) = .next x → x.isr = true) →
    Sys2Proof.core.run n (s.takeInterrupt k) = .next t →
    ∃ u, exec .rti t = .next u ∧ u.pc = s.pc ∧ u.sr = s.sr ∧ u.isr = false
      ∧ ∀ i : PairIdx, i.toNat < s.params.ns → u.pair i = s.pair i

/-! Rules over all instructions. -/

/-- The interrupt registers and who writes them (R27 to R30): iv by mvv, ie by sie, the in-service flag by rti, no shadow
register by any instruction. -/
def Obligations.WritersOfInterruptRegisters : Prop :=
  ∀ (i : Instr) (s t : State), exec i s = .next t →
    (t.iv ≠ s.iv → i.mnemonic = "mvv") ∧ (t.ie ≠ s.ie → i.mnemonic = "sie") ∧ (t.isr ≠ s.isr → i.mnemonic = "rti")
      ∧ t.pcs = s.pcs ∧ t.srs = s.srs ∧ t.shadowA = s.shadowA ∧ t.shadowR = s.shadowR

/-- The status register and who writes it (R26): the six arithmetic operations, the aluc operations, lsr and rti; the
user flags only the last three kinds. -/
def Obligations.WritersOfStatus : Prop :=
  ∀ (i : Instr) (s t : State), exec i s = .next t →
    (t.sr ≠ s.sr → i.mnemonic ∈ ["add", "sub", "adc", "sbc", "adi", "sbi", "asb", "aib", "amc", "aic", "swd", "gsp", "gip",
      "lsr", "rti"])
    ∧ (¬ SameUserFlags s t → i.mnemonic ∈ ["asb", "aib", "amc", "aic", "swd", "gsp", "gip", "lsr", "rti"])

/-- The stack pointer, the memories, the run state, the parameters and who writes them (R24, R70, R31, R66). -/
def Obligations.WritersOfTheRest : Prop :=
  ∀ (i : Instr) (s t : State), exec i s = .next t →
    (t.sp ≠ s.sp → i.mnemonic ∈ ["mvs", "jsr", "ret", "str", "lsr", "psh", "pop"])
      ∧ (t.dram ≠ s.dram → i.mnemonic ∈ ["jsr", "stb", "spb", "str", "psh"])
      ∧ (t.run ≠ s.run → i.mnemonic ∈ ["hlt", "sys"])
      ∧ (t.sbus ≠ s.sbus → i.mnemonic = "sys")
      ∧ t.pram = s.pram ∧ t.params = s.params ∧ t.inputs = s.inputs ∧ t.busTaken = s.busTaken

/-- What the environment has seen is never taken back: the events of a state begin those of the next (R33, R61). That a rst
keeps them, like every other step, is the model's choice (log 33). -/
def Obligations.EventsGrow : Prop :=
  ∀ (s t : State), step s = .next t → ∃ es, t.events = s.events ++ es

/-! Reset, start and the loader. -/

/-- The values the spec gives for reset (R37, R271): IDLE, no interrupt enabled or in service, every ISE at the first call
of its sequence. -/
def Obligations.ResetValues : Prop :=
  State.reset.run = .idle ∧ State.reset.ie = 0 ∧ State.reset.isr = false ∧ State.reset.amc.cnt = 0
    ∧ State.reset.aic.cnt = 0 ∧ State.reset.swd.cnt = 0 ∧ State.reset.gsp.cnt = 0 ∧ State.reset.gip.cnt = 0
    ∧ (∀ a, State.reset.pram.read a = none) ∧ ∀ a, State.reset.dram.read a = none

/-- `rst` in any run state (R271): the core is in its reset state, the memories keep what they hold. That the devices, the
lines and the event list stay is the model's choice (log 33). -/
def Obligations.RstPin : Prop :=
  ∀ (s u : State), s.sample = (some .rst, u) →
    ∃ t, step s = .next t ∧ t.run = .idle ∧ t.ie = 0 ∧ t.isr = false ∧ t.amc.cnt = 0 ∧ t.aic.cnt = 0 ∧ t.swd.cnt = 0
      ∧ t.gsp.cnt = 0 ∧ t.gip.cnt = 0 ∧ SameMemories u t ∧ t.events = u.events ∧ t.dma = u.dma ∧ t.params = u.params
      ∧ t.inputs = u.inputs

/-- `start` in an idle or an ended core (R274): pc becomes 0x000, the core runs, nothing else changes. -/
def Obligations.StartPin : Prop :=
  ∀ (s u : State), s.sample = (some .start, u) → (u.run = .idle ∨ u.run = .ended) →
    ∃ t, step s = .next t ∧ t.pc = 0x000 ∧ t.run = .running ∧ t.regs = u.regs ∧ t.sp = u.sp ∧ t.sr = u.sr
      ∧ SameInterrupts u t ∧ SameIses u t ∧ SameMemories u t ∧ t.sbus = u.sbus ∧ t.events = u.events ∧ t.dma = u.dma
      ∧ t.busTaken = u.busTaken ∧ t.ibus = u.ibus ∧ t.inputs = u.inputs ∧ t.params = u.params

/-- The loader's writes to a stopped core (R272, R273), those of data with extdaddrsel asserted: the byte, and no other cell
of either memory. That the peripherals see nothing of a data write is the model's choice (log 34). -/
def Obligations.LoaderWrites : Prop :=
  ∀ (s u : State) (v : Byte), (u.run = .idle ∨ u.run = .ended) →
    (∀ a : ProgAddr, s.sample = (some (.progLoad a v), u) → a.toNat < u.params.pramSize →
      ∃ t, step s = .next t ∧ (∀ x, t.pram.read x = if x = a.toNat then some v else u.pram.read x)
        ∧ (∀ x, t.dram.read x = u.dram.read x) ∧ t.regs = u.regs ∧ t.sp = u.sp ∧ t.sr = u.sr ∧ t.pc = u.pc
        ∧ SameInterrupts u t ∧ SameIses u t ∧ SameOutside u t)
    ∧ (∀ a : DataAddr, s.sample = (some (.dataLoad a v), u) → u.busTaken = true → a.toNat < u.params.dramSize →
      u.dmaBars = false →
      ∃ t, step s = .next t ∧ (∀ x, t.dram.read x = if x = a.toNat then some v else u.dram.read x)
        ∧ (∀ x, t.pram.read x = u.pram.read x) ∧ t.regs = u.regs ∧ t.sp = u.sp ∧ t.sr = u.sr ∧ t.pc = u.pc
        ∧ SameInterrupts u t ∧ SameIses u t ∧ SameOutside u t)

/-- The pins that no rule describes during a run, or at an address without memory, are refused by name: the model's choice
(log 32). extdaddrsel takes and releases the data bus (R67, R273, R276); that another master's write needs it, in whatever
run state, changes one DRAM cell and is refused without it, as the loader's is, is the model's choice (log 34). While it is
asserted extdout shows the DRAM word at the external user's address (R276). That extdaddrsel is accepted, and extdout shows
that word, also while a DMA transfer is under way, is the model's choice (log 47). -/
def Obligations.OtherPins : Prop :=
  ∀ (s u : State) (v : Byte),
    ((u.run = .running ∨ u.run = .halted) →
      (s.sample = (some .start, u) → step s = .refused .pinEventDuringRun)
      ∧ (∀ a, s.sample = (some (.progLoad a v), u) → step s = .refused .pinEventDuringRun)
      ∧ ∀ a, s.sample = (some (.dataLoad a v), u) → step s = .refused .pinEventDuringRun)
    ∧ ((u.run = .idle ∨ u.run = .ended) →
      (∀ a : ProgAddr, s.sample = (some (.progLoad a v), u) → u.params.pramSize ≤ a.toNat →
        step s = .refused .externalWriteUndescribed)
      ∧ ∀ a : DataAddr, s.sample = (some (.dataLoad a v), u) → (u.busTaken = false ∨ u.params.dramSize ≤ a.toNat) →
        step s = .refused .externalWriteUndescribed)
    ∧ (∀ on, s.sample = (some (.busSel on), u) → step s = .next { u with busTaken := on })
    ∧ (∀ a : DataAddr, u.busTaken = true → u.extdout a = u.dram.read a.toNat)
    ∧ ∀ a : DataAddr, s.sample = (some (.busWrite a v), u) →
      (u.busTaken = true → a.toNat < u.params.dramSize → u.dmaBars = false →
        ∃ t, step s = .next t ∧ t = u.setDram t.dram
          ∧ ∀ x, t.dram.read x = if x = a.toNat then some v else u.dram.read x)
      ∧ (u.busTaken = false → step s = .refused .externalWriteUndescribed)

/-- How a program comes to run from reset (R272 to R274), whatever the sizes of the memories and the devices: after the
loader's inputs for an object that fits, PRAM holds the program from 0x000 upward, DRAM the data bytes, the data bus is
released, and the core runs at 0x000. That the loader's pins are a list of inputs, one a step, and the program comes from
outside the machine by them, is the model's choice (log 11, 12), and so is a DMA controller that is idle at reset (log 29). -/
def Obligations.LoaderStartsProgram : Prop :=
  ∀ (o : Object) (p : Params), p.wf = true → o.prog.length ≤ p.pramSize → (∀ c ∈ o.data, c.1.toNat < p.dramSize) →
    (o.data.map Prod.fst).Nodup →
    ∃ t, Sys2Proof.core.run (loaderInputs o).length { State.reset with params := p, inputs := loaderInputs o } = .next t
      ∧ t.pc = 0x000 ∧ t.run = .running ∧ t.inputs = [] ∧ t.busTaken = false
      ∧ (∀ j, t.pram.read j = o.prog[j]?)
      ∧ ∀ c ∈ o.data, t.dram.read c.1.toNat = some c.2

/-- The assembler's scaled operands (R88): a program gives mvs the value sp has plus one, and mvv the entry address. -/
def Obligations.AssemblerScaledOperands : Prop :=
  ∀ (labels : List (String × Nat)) (equs : List (String × Byte)) (s : State),
    (∀ (v : BitVec 16) (i : Instr), commandInstr labels equs (.mvs v) = some i →
      ∃ t, exec i s = .next t ∧ t.sp = v - 1)
    ∧ ∀ (a : ProgAddr) (k : IntNum) (i : Instr), commandInstr labels equs (.mvv a k) = some i →
      ∃ t, exec i s = .next t ∧ (t.takeInterrupt k).pc = a

/-! The invariant. -/

/-- Every step keeps the invariant: legal parameters, canonical memories within their sizes, a DMA that is busy only with
legal blocks and asserts its irq from the end of a transfer until the entry of its interrupt at least. -/
def Obligations.StepKeepsInvariant : Prop :=
  ∀ (s t : State), s.Inv → step s = .next t → t.Inv

/-- The reset state has the invariant. Its parameters and the idle DMA controller are the model's choice (log 3, 29). -/
def Obligations.ResetInvariant : Prop := State.reset.Inv

/-! Immediate moves and control transfer (40_move_immediate_and_control.md). -/

/-- mvs (R111). -/
def Obligations.MvsSetsStackPointer : Prop :=
  ∀ (im : BitVec 12) (s : State), ∃ t, exec (.mvs im) s = .next t ∧ t.sp.toNat = (16 * im.toNat + 65535) % 65536
    ∧ t.pc = s.pc + 2 ∧ t.sr = s.sr ∧ SameRegsBut [] s t ∧ SameElsewhere s t

/-- mvv (R112). -/
def Obligations.MvvSetsVector : Prop :=
  ∀ (k : IntNum) (im : Byte) (s : State), ∃ t, exec (.mvv k im) s = .next t
    ∧ (∀ j, t.vector j = if j = k then im else s.vector j) ∧ t.pc = s.pc + 2 ∧ t.sp = s.sp ∧ t.sr = s.sr
    ∧ SameRegsBut [] s t ∧ t.ie = s.ie ∧ t.pcs = s.pcs ∧ t.srs = s.srs ∧ t.shadowA = s.shadowA ∧ t.shadowR = s.shadowR
    ∧ t.isr = s.isr ∧ SameIses s t ∧ SameMemories s t ∧ SameOutside s t

/-- mvi and mov (R119, R190). -/
def Obligations.MviAndMovCopy : Prop :=
  ∀ (rs d : RegNum) (im : Byte) (s : State),
    (∃ t, exec (.mvi d im) s = .next t ∧ t.reg d = im ∧ OnlyRegAndPc d s t)
    ∧ ∃ t, exec (.mov rs d) s = .next t ∧ t.reg d = s.reg rs ∧ OnlyRegAndPc d s t

/-- jmp (R113) and the four conditional branches (R115 to R118): pc becomes the target, or the address after the branch
when its flag is clear; nothing else changes. -/
def Obligations.JumpsAndBranches : Prop :=
  ∀ (im : ProgAddr) (s : State) (i : Instr) (taken : Bool),
    (i, taken) ∈ [(Instr.jmp im, true), (.bzi im, s.sr.z), (.bni im, s.sr.n), (.bci im, s.sr.c), (.bxi im, s.sr.x)] →
    ∃ t, exec i s = .next t ∧ t.pc = (if taken then im else s.pc + 2) ∧ t.sp = s.sp ∧ t.sr = s.sr ∧ SameRegsBut [] s t
      ∧ SameElsewhere s t

/-- jsr (R114): the return address goes to the stack, its upper part first and with four zero bits above it. The second
clause is the same for a stack that runs into the DMA controller's registers: the two bytes are written one after the
other, whatever each write does. -/
def Obligations.JsrCalls : Prop :=
  ∀ (im : ProgAddr) (s : State) (hi lo : Byte), hi.toNat = (s.pc + 2).toNat / 256 → lo.toNat = (s.pc + 2).toNat % 256 →
    (s.canWrite s.sp = true → s.canWrite (s.sp - 1) = true →
      ∃ t, exec (.jsr im) s = .next t
        ∧ (∀ x, t.dram.read x =
            if x = (s.sp - 1).toNat ∧ x < s.params.dramSize then some lo else s.cellAfter s.sp hi x)
        ∧ t.events = s.events ++ [.dataWrite s.sp hi, .dataWrite (s.sp - 1) lo]
        ∧ t.pc = im ∧ t.sp = s.sp - 2 ∧ t.sr = s.sr ∧ SameRegsBut [] s t ∧ SameButData s t ∧ t.dma = s.dma)
    ∧ ∀ s1 s2, s.memWrite s.sp hi = .next s1 → s1.memWrite (s.sp - 1) lo = .next s2 →
      ∃ t, exec (.jsr im) s = .next t ∧ t.dram = s2.dram ∧ t.events = s2.events ∧ t.dma = s2.dma ∧ t.pc = im
        ∧ t.sp = s.sp - 2 ∧ t.sr = s.sr ∧ SameRegsBut [] s t ∧ SameButData s t

/-! The alu group (41_alu.md). -/

/-- add, adc and adi (R131, R132, R142, R144): the exact sum, its low byte to the register, its ninth bit to C. -/
def Obligations.Additions : Prop :=
  ∀ (rs d : RegNum) (im : BitVec 4) (s : State),
    (∃ t, exec (.add rs d) s = .next t
      ∧ ArithDone d ((s.reg rs).toNat + (s.reg d).toNat) (decide (256 ≤ (s.reg rs).toNat + (s.reg d).toNat)) s t)
    ∧ (∃ t, exec (.adc rs d) s = .next t
      ∧ ArithDone d ((s.reg rs).toNat + (s.reg d).toNat + s.sr.c.toNat)
          (decide (256 ≤ (s.reg rs).toNat + (s.reg d).toNat + s.sr.c.toNat)) s t)
    ∧ ∃ t, exec (.adi im d) s = .next t
      ∧ ArithDone d ((s.reg d).toNat + (im.toNat + 1)) (decide (256 ≤ (s.reg d).toNat + (im.toNat + 1))) s t

/-- sub, sbc and sbi (R131, R133, R143, R145): the difference modulo 2^8, C the borrow. In sub and sbc the destination is
the subtrahend, in sbi the minuend. -/
def Obligations.Subtractions : Prop :=
  ∀ (rs d : RegNum) (im : BitVec 4) (s : State),
    (∃ t, exec (.sub rs d) s = .next t
      ∧ ArithDone d ((s.reg rs).toNat + 512 - (s.reg d).toNat) (decide ((s.reg rs).toNat < (s.reg d).toNat)) s t)
    ∧ (∃ t, exec (.sbc rs d) s = .next t
      ∧ ArithDone d ((s.reg rs).toNat + 512 - ((s.reg d).toNat + s.sr.c.toNat))
          (decide ((s.reg rs).toNat < (s.reg d).toNat + s.sr.c.toNat)) s t)
    ∧ ∃ t, exec (.sbi im d) s = .next t
      ∧ ArithDone d ((s.reg d).toNat + 512 - (im.toNat + 1)) (decide ((s.reg d).toNat < im.toNat + 1)) s t

/-- Multi-byte arithmetic (R147): add then adc, and sub then sbc, low bytes first, make the 16-bit sum and difference of two
two-byte numbers in registers that do not run into each other; C is the carry or borrow of the whole. -/
def Obligations.TwoByteArithmetic : Prop :=
  ∀ (sl sh dl dh : RegNum) (s : State), dl ≠ sh → dl ≠ dh →
    (∃ t u, exec (.add sl dl) s = .next t ∧ exec (.adc sh dh) t = .next u
      ∧ 65536 * u.sr.c.toNat + 256 * (u.reg dh).toNat + (u.reg dl).toNat
        = (256 * (s.reg sh).toNat + (s.reg sl).toNat) + (256 * (s.reg dh).toNat + (s.reg dl).toNat))
    ∧ ∃ t u, exec (.sub sl dl) s = .next t ∧ exec (.sbc sh dh) t = .next u
      ∧ (256 * (u.reg dh).toNat + (u.reg dl).toNat) + (256 * (s.reg dh).toNat + (s.reg dl).toNat)
        = (256 * (s.reg sh).toNat + (s.reg sl).toNat) + 65536 * u.sr.c.toNat

/-- and, lor, xor, not (R134, R135, R140, R141): bit by bit, and no flag. -/
def Obligations.LogicBitByBit : Prop :=
  ∀ (rs d : RegNum) (s : State),
    (∃ t, exec (.and rs d) s = .next t ∧ OnlyRegAndPc d s t
      ∧ ∀ j, j < 8 → (t.reg d).getLsbD j = ((s.reg rs).getLsbD j && (s.reg d).getLsbD j))
    ∧ (∃ t, exec (.lor rs d) s = .next t ∧ OnlyRegAndPc d s t
      ∧ ∀ j, j < 8 → (t.reg d).getLsbD j = ((s.reg rs).getLsbD j || (s.reg d).getLsbD j))
    ∧ (∃ t, exec (.xor rs d) s = .next t ∧ OnlyRegAndPc d s t
      ∧ ∀ j, j < 8 → (t.reg d).getLsbD j = ((s.reg rs).getLsbD j != (s.reg d).getLsbD j))
    ∧ ∃ t, exec (.not rs d) s = .next t ∧ OnlyRegAndPc d s t
      ∧ ∀ j, j < 8 → (t.reg d).getLsbD j = !(s.reg rs).getLsbD j

/-- sll, rol, srl, ror (R136 to R139) by a count of 0 to 7, as arithmetic on the old destination, and no flag; by 8 to 255
the result is the free value of R146 and everything else as before. -/
def Obligations.ShiftsAndRotates : Prop :=
  ∀ (rs d : RegNum) (s : State) (i : Instr) (result : Nat),
    (i, result) ∈ [(Instr.sll rs d, (s.reg d).toNat * 2 ^ (s.reg rs).toNat % 256),
      (.srl rs d, (s.reg d).toNat / 2 ^ (s.reg rs).toNat),
      (.rol rs d, (s.reg d).toNat * 2 ^ (s.reg rs).toNat % 256 + (s.reg d).toNat / 2 ^ (8 - (s.reg rs).toNat)),
      (.ror rs d, (s.reg d).toNat / 2 ^ (s.reg rs).toNat + (s.reg d).toNat * 2 ^ (8 - (s.reg rs).toNat) % 256)] →
    ∃ t, exec i s = .next t ∧ OnlyRegAndPc d s t ∧ ((s.reg rs).toNat ≤ 7 → (t.reg d).toNat = result)

/-! The aluc group (42_aluc_ise.md). -/

/-- asb and aib (R166, R167): the S-box of x[s] to x[d]; the flags are the ISE's (R163), so nothing is said of sr. -/
def Obligations.AsbAndAib : Prop :=
  ∀ (rs d : RegNum) (s : State),
    (∃ t, exec (.asb rs d) s = .next t ∧ t.reg d = aesSbox (s.reg rs) ∧ AlucFrame d s t ∧ SameIses s t)
    ∧ ∃ t, exec (.aib rs d) s = .next t ∧ t.reg d = aesSboxInv (s.reg rs) ∧ AlucFrame d s t ∧ SameIses s t

/-- The S-box tables are what R173 says they are: the affine map of the inverse in GF(2^8), and each other's inverse. The
manual prints no table: the function is PRESUMED from general knowledge (log 28). -/
def Obligations.AesSboxes : Prop :=
  ∀ v : Byte,
    (∃ u, (v = 0 ∧ u = 0 ∨ gfProduct u v = 1)
      ∧ aesSbox v = u ^^^ u.rotateLeft 1 ^^^ u.rotateLeft 2 ^^^ u.rotateLeft 3 ^^^ u.rotateLeft 4 ^^^ 0x63)
    ∧ aesSboxInv (aesSbox v) = v ∧ aesSbox (aesSboxInv v) = v

/-- amc and aic (R168, R169): what each of the five calls returns and leaves in the ISE. The result of the load-only first
call and all flags are free. -/
def Obligations.MixColumnCalls : Prop :=
  ∀ (rs d : RegNum) (s : State),
    (∃ t, exec (.amc rs d) s = .next t ∧ AlucFrame d s t ∧ t.aic = s.aic ∧ t.swd = s.swd ∧ t.gsp = s.gsp ∧ t.gip = s.gip
      ∧ (s.amc.cnt = 0 → t.amc.cnt = 1 ∧ t.amc.inp.b0 = s.reg rs ∧ t.amc.inp.b1 = s.reg d)
      ∧ (s.amc.cnt = 1 → t.amc.cnt = 2 ∧ t.amc.out = mixColumn ⟨s.amc.inp.b0, s.amc.inp.b1, s.reg rs, s.reg d⟩
          ∧ t.reg d = t.amc.out.b3)
      ∧ (s.amc.cnt = 2 → t.amc.cnt = 3 ∧ t.amc.out = s.amc.out ∧ t.reg d = s.amc.out.b2)
      ∧ (s.amc.cnt = 3 → t.amc.cnt = 4 ∧ t.amc.out = s.amc.out ∧ t.reg d = s.amc.out.b1)
      ∧ (s.amc.cnt = 4 → t.amc.cnt = 0 ∧ t.reg d = s.amc.out.b0))
    ∧ ∃ t, exec (.aic rs d) s = .next t ∧ AlucFrame d s t ∧ t.amc = s.amc ∧ t.swd = s.swd ∧ t.gsp = s.gsp ∧ t.gip = s.gip
      ∧ (s.aic.cnt = 0 → t.aic.cnt = 1 ∧ t.aic.inp.b0 = s.reg rs ∧ t.aic.inp.b1 = s.reg d)
      ∧ (s.aic.cnt = 1 → t.aic.cnt = 2 ∧ t.aic.out = mixColumnInv ⟨s.aic.inp.b0, s.aic.inp.b1, s.reg rs, s.reg d⟩
          ∧ t.reg d = t.aic.out.b3)
      ∧ (s.aic.cnt = 2 → t.aic.cnt = 3 ∧ t.aic.out = s.aic.out ∧ t.reg d = s.aic.out.b2)
      ∧ (s.aic.cnt = 3 → t.aic.cnt = 4 ∧ t.aic.out = s.aic.out ∧ t.reg d = s.aic.out.b1)
      ∧ (s.aic.cnt = 4 → t.aic.cnt = 0 ∧ t.reg d = s.aic.out.b0)

/-- The two column functions of R174 undo each other. The manual prints neither: they are PRESUMED from general knowledge
(log 28). -/
def Obligations.MixColumnsInverse : Prop :=
  ∀ c : Column, mixColumnInv (mixColumn c) = c ∧ mixColumn (mixColumnInv c) = c

/-- swd (R170): what each of the six calls returns and leaves in the ISE. -/
def Obligations.SwdCalls : Prop :=
  ∀ (rs d : RegNum) (s : State), ∃ t, exec (.swd rs d) s = .next t ∧ AlucFrame d s t ∧ t.amc = s.amc ∧ t.aic = s.aic
    ∧ t.gsp = s.gsp ∧ t.gip = s.gip
    ∧ (s.swd.cnt = 0 → t.swd.cnt = 1 ∧ t.swd.inp = s.swd.inp.extractLsb' 16 16 ++ s.reg d ++ s.reg rs)
    ∧ (s.swd.cnt = 1 → t.swd.cnt = 2 ∧ t.swd.inp = s.reg d ++ s.reg rs ++ s.swd.inp.extractLsb' 0 16)
    ∧ (s.swd.cnt = 2 → t.swd.cnt = 3 ∧ t.swd.out = s.swd.inp.rotateLeft (s.reg rs).toNat
        ∧ t.reg d = t.swd.out.extractLsb' 24 8)
    ∧ (s.swd.cnt = 3 → t.swd.cnt = 4 ∧ t.swd.out = s.swd.out ∧ t.reg d = s.swd.out.extractLsb' 16 8)
    ∧ (s.swd.cnt = 4 → t.swd.cnt = 5 ∧ t.swd.out = s.swd.out ∧ t.reg d = s.swd.out.extractLsb' 8 8)
    ∧ (s.swd.cnt = 5 → t.swd.cnt = 0 ∧ t.reg d = s.swd.out.extractLsb' 0 8)

/-- The whole six-call sequence of swd (R170) rotates the 32-bit number left by the third call's first operand, and is ready
for the next sequence. -/
def Obligations.SwdSequence : Prop :=
  ∀ (st : RotIse) (o1 o2 o3 o4 o5 o6 : IseOperands), st.cnt = 0 →
    ∃ f1 f2 b3 b2 b1 b0 st', iseSequence rotCall st [o1, o2, o3, o4, o5, o6] = ([f1, f2, b3, b2, b1, b0], st')
      ∧ st'.cnt = 0 ∧ b3 ++ b2 ++ b1 ++ b0 = (o2.b ++ o2.a ++ o1.b ++ o1.a).rotateLeft o3.a.toNat

/-- gsp and gip (R171, R172): loading two bytes in each of calls 1 to 8, the permuted block and its byte 15 at call 8, bytes
14 down to 0 at calls 9 to 23. -/
def Obligations.GiftCalls : Prop :=
  ∀ (rs d : RegNum) (s : State),
    (∃ t, exec (.gsp rs d) s = .next t ∧ AlucFrame d s t ∧ t.amc = s.amc ∧ t.aic = s.aic ∧ t.swd = s.swd ∧ t.gip = s.gip
      ∧ t.gsp.cnt.val = (s.gsp.cnt.val + 1) % 23
      ∧ (s.gsp.cnt.val < 8 → getByte t.gsp.inp (2 * s.gsp.cnt.val) = giftSboxByte (s.reg rs)
          ∧ getByte t.gsp.inp (2 * s.gsp.cnt.val + 1) = giftSboxByte (s.reg d)
          ∧ ∀ j, j < 2 * s.gsp.cnt.val → getByte t.gsp.inp j = getByte s.gsp.inp j)
      ∧ (s.gsp.cnt.val = 7 → t.gsp.out = giftPerm t.gsp.inp ∧ t.reg d = getByte t.gsp.out 15)
      ∧ (8 ≤ s.gsp.cnt.val → t.gsp.out = s.gsp.out ∧ t.reg d = getByte s.gsp.out (22 - s.gsp.cnt.val)))
    ∧ ∃ t, exec (.gip rs d) s = .next t ∧ AlucFrame d s t ∧ t.amc = s.amc ∧ t.aic = s.aic ∧ t.swd = s.swd ∧ t.gsp = s.gsp
      ∧ t.gip.cnt.val = (s.gip.cnt.val + 1) % 23
      ∧ (s.gip.cnt.val < 8 → getByte t.gip.inp (2 * s.gip.cnt.val) = s.reg rs
          ∧ getByte t.gip.inp (2 * s.gip.cnt.val + 1) = s.reg d
          ∧ ∀ j, j < 2 * s.gip.cnt.val → getByte t.gip.inp j = getByte s.gip.inp j)
      ∧ (s.gip.cnt.val = 7 → t.gip.out = giftPermInv t.gip.inp ∧ t.reg d = giftSboxInvByte (getByte t.gip.out 15))
      ∧ (8 ≤ s.gip.cnt.val → t.gip.out = s.gip.out ∧ t.reg d = giftSboxInvByte (getByte s.gip.out (22 - s.gip.cnt.val)))

/-- gip undoes gsp (R171, R172): sixteen bytes loaded into gsp, its sixteen results loaded into gip in the order of their
places, come back out of gip, last byte first. The GIFT functions of R175 are PRESUMED from general knowledge (log 28). -/
def Obligations.GipUndoesGsp : Prop :=
  ∀ (x : Fin 16 → Byte) (sp ip : GiftIse) (free : Byte) (rest : List IseOperands), sp.cnt = 0 → ip.cnt = 0 →
    rest.length = 15 →
    ∃ (fs : List Byte) (y : Fin 16 → Byte) (gs : List Byte) (sp' ip' : GiftIse), fs.length = 7 ∧ gs.length = 7
      ∧ iseSequence (giftCall giftSboxByte giftPerm id) sp
          (((List.finRange 8).map fun j => ⟨x ⟨2 * j, by omega⟩, x ⟨2 * j + 1, by omega⟩, free⟩) ++ rest)
        = (fs ++ ((List.finRange 16).map fun j => y j.rev), sp')
      ∧ iseSequence (giftCall id giftPermInv giftSboxInvByte) ip
          (((List.finRange 8).map fun j => ⟨y ⟨2 * j, by omega⟩, y ⟨2 * j + 1, by omega⟩, free⟩) ++ rest)
        = (gs ++ ((List.finRange 16).map fun j => x j.rev), ip')
      ∧ sp'.cnt = 0 ∧ ip'.cnt = 0

/-! Loads, stores and the stack (43_gen1.md, 44_stack.md, 20_memory.md). -/

/-- ldb and lpb (R191, R192) at an address that gives a byte: the byte to the destination, and for lpb r_i one higher without
a carry into a_i; where the destination of lpb is r_i itself its value is free. At a register of the DMA controller, of whose
reads the manual says nothing, the byte is a free value: the model's choice (log 31). -/
def Obligations.LoadsRead : Prop :=
  ∀ (i : PairIdx) (d : RegNum) (s : State) (v : Byte), s.readValue (s.pair i) = some v →
    (∃ t, exec (.ldb i d) s = .next t ∧ t.reg d = v ∧ SameRegsBut [d] s t ∧ t.pc = s.pc + 2 ∧ t.sp = s.sp ∧ t.sr = s.sr
      ∧ ReadFrame (s.pair i) s t)
    ∧ ∃ t, exec (.lpb i d) s = .next t ∧ SameRegsBut [d, rNum i] s t
      ∧ (d ≠ rNum i → t.reg d = v ∧ (t.reg (rNum i)).toNat = ((s.reg (rNum i)).toNat + 1) % 256)
      ∧ t.pc = s.pc + 2 ∧ t.sp = s.sp ∧ t.sr = s.sr ∧ ReadFrame (s.pair i) s t

/-- stb and spb (R193, R194) at an address that takes a byte: x[v] as it was before, and for spb r_i one higher. -/
def Obligations.StoresWrite : Prop :=
  ∀ (v : RegNum) (i : PairIdx) (s : State), s.canWrite (s.pair i) = true →
    (∃ t, exec (.stb v i) s = .next t ∧ WriteFrame (s.pair i) (s.reg v) s t ∧ SameRegsBut [] s t ∧ t.pc = s.pc + 2
      ∧ t.sp = s.sp ∧ t.sr = s.sr)
    ∧ ∃ t, exec (.spb v i) s = .next t ∧ WriteFrame (s.pair i) (s.reg v) s t ∧ SameRegsBut [rNum i] s t
      ∧ (t.reg (rNum i)).toNat = ((s.reg (rNum i)).toNat + 1) % 256 ∧ t.pc = s.pc + 2 ∧ t.sp = s.sp ∧ t.sr = s.sr

/-- psh and str (R220, R196): the byte at sp, then sp one lower. -/
def Obligations.PushesWrite : Prop :=
  ∀ (rs : RegNum) (s : State), s.canWrite s.sp = true →
    (∃ t, exec (.psh rs) s = .next t ∧ WriteFrame s.sp (s.reg rs) s t ∧ SameRegsBut [] s t ∧ t.pc = s.pc + 1
      ∧ t.sp = s.sp - 1 ∧ t.sr = s.sr)
    ∧ ∃ t b, exec .str s = .next t ∧ WriteFrame s.sp b s t ∧ SameRegsBut [] s t ∧ t.pc = s.pc + 1 ∧ t.sp = s.sp - 1
      ∧ t.sr = s.sr
      ∧ b = BitVec.ofBoolListBE [s.sr.u3, s.sr.u2, s.sr.u1, s.sr.u0, s.sr.x, s.sr.c, s.sr.n, s.sr.z]

/-- pop and lsr (R221, R197): sp one higher, then the byte there, to the register or to all eight flags. At a register of the
DMA controller the byte is a free value: the model's choice (log 31). -/
def Obligations.PopsRead : Prop :=
  ∀ (d : RegNum) (s : State) (v : Byte), s.readValue (s.sp + 1) = some v →
    (∃ t, exec (.pop d) s = .next t ∧ t.reg d = v ∧ SameRegsBut [d] s t ∧ t.pc = s.pc + 1 ∧ t.sp = s.sp + 1 ∧ t.sr = s.sr
      ∧ ReadFrame (s.sp + 1) s t)
    ∧ ∃ t, exec .lsr s = .next t ∧ SameRegsBut [] s t ∧ t.pc = s.pc + 1 ∧ t.sp = s.sp + 1 ∧ ReadFrame (s.sp + 1) s t
      ∧ v = BitVec.ofBoolListBE [t.sr.u3, t.sr.u2, t.sr.u1, t.sr.u0, t.sr.x, t.sr.c, t.sr.n, t.sr.z]

/-- ret (R195): two bytes from the stack, the low byte of pc and then its upper four bits; the rest of the second byte is
ignored. At a register of the DMA controller a byte is a free value: the model's choice (log 31). -/
def Obligations.RetReturns : Prop :=
  ∀ (s : State) (lo hi : Byte), s.readValue (s.sp + 1) = some lo →
    ((s.setSp (s.sp + 1)).afterRead (s.sp + 1)).readValue (s.sp + 2) = some hi →
    ∃ t, exec .ret s = .next t ∧ t.pc.toNat = 256 * (hi.toNat % 16) + lo.toNat ∧ t.sp = s.sp + 2 ∧ t.sr = s.sr
      ∧ SameRegsBut [] s t ∧ SameButData s t ∧ (∀ x, t.dram.read x = s.dram.read x) ∧ t.dma = s.dma
      ∧ t.events = s.events ++ [.dataRead (s.sp + 1), .dataRead (s.sp + 2)]

/-- Push and pop, call and return (R58, R59, R114, R195) on a stack in DRAM: what went on the stack comes off it, and sp is
back where it was. -/
def Obligations.StackRoundTrips : Prop :=
  ∀ (s : State) (rs d : RegNum) (im : ProgAddr), s.canWrite s.sp = true → s.sp.toNat < s.params.dramSize →
    s.answersRead s.sp.toNat = false →
    (∃ t u, exec (.psh rs) s = .next t ∧ exec (.pop d) t = .next u ∧ u.reg d = s.reg rs ∧ u.sp = s.sp)
    ∧ (∃ t u, exec .str s = .next t ∧ exec .lsr t = .next u ∧ u.sr = s.sr ∧ u.sp = s.sp)
    ∧ (s.canWrite (s.sp - 1) = true → (s.sp - 1).toNat < s.params.dramSize → s.answersRead (s.sp - 1).toNat = false →
        ∃ t u, exec (.jsr im) s = .next t ∧ exec .ret t = .next u ∧ u.pc = s.pc + 2 ∧ u.sp = s.sp ∧ u.sr = s.sr
          ∧ u.regs = s.regs)

/-- Where a data access stops (R54, R55, R67): with another master on the bus every instruction that accesses data stops;
without one, a load or pop where nothing answers stops, and so does a store or push with no place to go, the second access
of ret and jsr like the first. -/
def Obligations.DataAccessStops : Prop :=
  ∀ (s : State) (i : PairIdx) (r : RegNum) (im : ProgAddr),
    (s.busBusy = true → ∀ c ∈ [Instr.ldb i r, .lpb i r, .stb r i, .spb r i, .psh r, .pop r, .str, .lsr, .ret, .jsr im],
      exec c s = .fault .busContention)
    ∧ (s.busBusy = false →
      (∀ a f, s.answersRead a = false →
        (s.params.dramSize ≤ a ∧ f = .dataAccessOutOfRange
          ∨ a < s.params.dramSize ∧ s.dram.read a = none ∧ f = .readOfUnwrittenState) →
        (a = (s.pair i).toNat → ∀ c ∈ [Instr.ldb i r, .lpb i r], exec c s = .fault f)
        ∧ (a = (s.sp + 1).toNat → ∀ c ∈ [Instr.pop r, .lsr, .ret], exec c s = .fault f)
        ∧ (a = (s.sp + 2).toNat → (s.readValue (s.sp + 1)).isSome = true → exec .ret s = .fault f))
      ∧ ∀ a, s.params.dramSize ≤ a → s.claimed a = false →
        (a = (s.pair i).toNat → ∀ c ∈ [Instr.stb r i, .spb r i], exec c s = .fault .dataAccessOutOfRange)
        ∧ (a = s.sp.toNat → ∀ c ∈ [Instr.psh r, .str, .jsr im], exec c s = .fault .dataAccessOutOfRange)
        ∧ (a = (s.sp - 1).toNat → s.canWrite s.sp = true → exec (.jsr im) s = .fault .dataAccessOutOfRange))

/-! The other gen1 instructions. -/

/-- rie and sie (R198, R199): all sixteen bits, a_i the upper half. -/
def Obligations.RieAndSie : Prop :=
  ∀ (i : PairIdx) (s : State),
    (∃ t, exec (.rie i) s = .next t ∧ (t.reg (aNum i)).toNat = s.ie.toNat / 256 ∧ (t.reg (rNum i)).toNat = s.ie.toNat % 256
      ∧ SameRegsBut [aNum i, rNum i] s t ∧ t.pc = s.pc + 2 ∧ t.sp = s.sp ∧ t.sr = s.sr ∧ SameElsewhere s t)
    ∧ ∃ t, exec (.sie i) s = .next t ∧ t.ie.toNat = 256 * (s.reg (aNum i)).toNat + (s.reg (rNum i)).toNat
      ∧ SameRegsBut [] s t ∧ t.pc = s.pc + 2 ∧ t.sp = s.sp ∧ t.sr = s.sr ∧ t.iv = s.iv ∧ t.pcs = s.pcs ∧ t.srs = s.srs
      ∧ t.shadowA = s.shadowA ∧ t.shadowR = s.shadowR ∧ t.isr = s.isr ∧ SameIses s t ∧ SameMemories s t ∧ SameOutside s t

/-- hlt (R200, R245): the core is halted with pc at the next instruction, and waits there, step after step, with no enabled
request or with an interrupt in service. That an empty list of inputs keeps the lines at their level and brings no pin event,
on which the waiting rests, is the model's choice (log 11). The entry that ends the wait is InterruptEntry's. -/
def Obligations.HltWaits : Prop :=
  ∀ (s : State),
    ∃ t, exec .hlt s = .next t ∧ t.run = .halted ∧ t.pc = s.pc + 1 ∧ t.sp = s.sp ∧ t.sr = s.sr ∧ SameRegsBut [] s t
      ∧ SameInterrupts s t ∧ SameIses s t ∧ SameMemories s t ∧ t.sbus = s.sbus ∧ t.events = s.events ∧ t.dma = s.dma
      ∧ t.busTaken = s.busTaken ∧ t.ibus = s.ibus ∧ t.inputs = s.inputs ∧ t.params = s.params
      ∧ (s.inputs = [] → s.isr = true ∨ s.req = 0 → ∀ n, Sys2Proof.core.run n t = .next t)

/-- sys (R202): the byte on the s-bus and in the event list, END_CODE ends the run; the acknowledge code of its own line
drops the DMA controller's irq (R241, R255), and nothing else of the core changes. What else becomes of the controller is the
model's choice (log 29): its source, destination and count stay as they are, one whose interrupt is not yet entered is idle,
and a further transfer goes on. -/
def Obligations.SysOutputs : Prop :=
  ∀ (im : Byte) (s : State), ∃ t, exec (.sys im) s = .next t ∧ t.sbus = im ∧ t.events = s.events ++ [.sbusOut im]
    ∧ t.run = (if im = 0xFF then .ended else s.run) ∧ t.pc = s.pc + 2 ∧ t.sp = s.sp ∧ t.sr = s.sr ∧ SameRegsBut [] s t
    ∧ SameInterrupts s t ∧ SameIses s t ∧ SameMemories s t ∧ t.busTaken = s.busTaken ∧ t.ibus = s.ibus
    ∧ t.inputs = s.inputs ∧ t.params = s.params
    ∧ t.dma.src = s.dma.src ∧ t.dma.dst = s.dma.dst ∧ t.dma.count = s.dma.count
    ∧ ((∃ p, s.params.dma = some p ∧ im.toNat = 0x10 + p.line.toNat) →
        t.dma.irq = false ∧ t.dma.phase = if s.dma.phase = .busy then .busy else .idle)
    ∧ ((∀ p, s.params.dma = some p → im.toNat ≠ 0x10 + p.line.toNat) → t.dma = s.dma)

/-! The example DMA controller (60_exceptions.md R254, R255). -/

/-- A store to one of the controller's registers (R254), by stb, spb, psh or str, each with the pc, the sp and the r_i it
ends with: the register takes the byte, 0xFF at 0x0100 starts a legal transfer, and a start that is not legal or a command
that is not described is refused by name (log 30). That the irq of an earlier transfer stays as it is at a start, until its
acknowledge, is the model's choice (log 29). -/
def Obligations.DmaRegisterStores : Prop :=
  ∀ (s : State) (p : DmaParams) (v : RegNum) (i : PairIdx) (c : Instr) (a : DataAddr) (b : Byte) (pc' : ProgAddr)
    (sp' : DataAddr) (r' : Byte),
    (c, a, b, pc', sp', r') ∈ [
      (Instr.stb v i, s.pair i, s.reg v, s.pc + 2, s.sp, s.reg (rNum i)),
      (.spb v i, s.pair i, s.reg v, s.pc + 2, s.sp, s.reg (rNum i) + 1),
      (.psh v, s.sp, s.reg v, s.pc + 1, s.sp - 1, s.reg (rNum i)),
      (.str, s.sp, s.sr.toByte, s.pc + 1, s.sp - 1, s.reg (rNum i))] →
    s.params.dma = some p → s.busBusy = false →
    (∀ d : Dma,
      (a = 0x0101 ∧ d = { s.dma with src := s.dma.src.extractLsb' 8 8 ++ b }
        ∨ a = 0x0102 ∧ d = { s.dma with src := b ++ s.dma.src.extractLsb' 0 8 }
        ∨ a = 0x0103 ∧ d = { s.dma with dst := s.dma.dst.extractLsb' 8 8 ++ b }
        ∨ a = 0x0104 ∧ d = { s.dma with dst := b ++ s.dma.dst.extractLsb' 0 8 }
        ∨ a = 0x0105 ∧ d = { s.dma with count := b }
        ∨ a = 0x0100 ∧ b = 0xFF ∧ dmaBlocksLegal s p = true ∧ d = { s.dma with phase := .busy }) →
      ∃ t, exec c s = .next t ∧ t.dma = d ∧ (∀ x, t.dram.read x = s.cellAfter a b x)
        ∧ t.events = s.events ++ [.dataWrite a b] ∧ SameButData s t ∧ SameRegsBut [rNum i] s t ∧ t.reg (rNum i) = r'
        ∧ t.pc = pc' ∧ t.sp = sp' ∧ t.sr = s.sr)
    ∧ (a = 0x0100 →
      (b = 0xFF → dmaBlocksLegal s p = false → exec c s = .refused .dmaBlocksIllegal)
      ∧ (b ≠ 0xFF → exec c s = .refused .dmaCommandUndescribed))

/-- The end of a transfer and the interrupt that announces it (R254, R255): a legal transfer of (n + 1) << G bytes is in
DRAM when the ISR is entered, and the core may use the bus again. The model's
choices are (log 29) that the completion is an input, moves all bytes at once, comes alike in any run state, copies a cell
without a value as one without a value and leaves the source, destination and count registers as they are, and (log 34) that
the controller's writes are no events and no peripheral sees them. -/
def Obligations.DmaTransfer : Prop :=
  ∀ (s u : State) (p : DmaParams), s.sample = (some .dmaDone, u) → u.params.dma = some p → u.dma.phase = .busy →
    dmaBlocksLegal u p = true → u.busTaken = false →
    ∃ t, step s = .next t
      ∧ (∀ x, t.dram.read x =
          if u.dma.dst.toNat ≤ x ∧ x < u.dma.dst.toNat + (u.dma.count.toNat + 1) * 2 ^ p.g then
            u.dram.read (u.dma.src.toNat + (x - u.dma.dst.toNat))
          else u.dram.read x)
      ∧ t.dma = { u.dma with phase := .done, irq := true } ∧ t.regs = u.regs ∧ t.pc = u.pc ∧ t.sp = u.sp ∧ t.sr = u.sr
      ∧ SameButData u t ∧ t.events = u.events
      ∧ (u.ie.getLsbD p.line.toNat = true → t.req.getLsbD p.line.toNat = true)
      ∧ (t.takeInterrupt p.line).dram = t.dram ∧ t.busBusy = true ∧ (t.takeInterrupt p.line).busBusy = false

end
end

