-- ==== Sys2Proof/Laws/Decode.lean ====
section
/-! SUPPORT. The small lemmas of the decoder's and the encoder's fields: what a nibble, an immediate or a pair index reads back
as once it is written. -/

namespace Sys2Proof

@[simp] theorem hiNib_byteOf (h l : BitVec 4) : hiNib (byteOf h l) = h := by
  revert h l
  decide

@[simp] theorem loNib_byteOf (h l : BitVec 4) : loNib (byteOf h l) = l := by
  revert h l
  decide

@[simp] theorem byteOf_nibs (b : Byte) : byteOf (hiNib b) (loNib b) = b := by
  revert b
  decide

@[simp] theorem pairOf_pairNib (p : Bool) (i : PairIdx) : pairOf (pairNib p i) = i := by
  revert p i
  decide

@[simp] theorem topBit_pairNib (p : Bool) (i : PairIdx) : topBit (pairNib p i) = p := by
  revert p i
  decide

@[simp] theorem pairNib_topBit_pairOf (n : BitVec 4) : pairNib (topBit n) (pairOf n) = n := by
  revert n
  decide

/-- The two parts of a 12-bit immediate make it up again (R85). -/
theorem im12_parts (o : BitVec 4) (im : BitVec 12) : im12 (byteOf o (im.extractLsb' 8 4)) (im.extractLsb' 0 8) = im := by
  simp only [im12, loNib_byteOf]
  ext j hj
  simp only [BitVec.getElem_append, BitVec.getElem_extractLsb']
  split
  · simp [BitVec.getLsbD_eq_getElem hj]
  · rw [← BitVec.getLsbD_eq_getElem hj]
    congr 1
    omega

end Sys2Proof
end

