-- ==== Sys2Proof/Laws/State.lean ====
section
/-! SUPPORT. What each named update of the state does to each field: one lemma per field per update, true by unfolding it once.
The accessors `reg` and `vector` and the tests on addresses are carried over the updates that do not concern them. -/

namespace Sys2Proof.Machine

variable (s : State)

theorem State.inDram_iff (a : Nat) : s.inDram a = true ↔ a < s.params.dramSize := by simp [State.inDram]

theorem State.inPram_iff (a : Nat) : s.inPram a = true ↔ a < s.params.pramSize := by simp [State.inPram]

/-! setReg -/

@[simp] theorem State.setReg_regs (n : RegNum) (v : Byte) : (s.setReg n v).regs = s.regs.set n.toNat v := rfl
@[simp] theorem State.setReg_pc (n : RegNum) (v : Byte) : (s.setReg n v).pc = s.pc := rfl
@[simp] theorem State.setReg_sp (n : RegNum) (v : Byte) : (s.setReg n v).sp = s.sp := rfl
@[simp] theorem State.setReg_sr (n : RegNum) (v : Byte) : (s.setReg n v).sr = s.sr := rfl
@[simp] theorem State.setReg_iv (n : RegNum) (v : Byte) : (s.setReg n v).iv = s.iv := rfl
@[simp] theorem State.setReg_ie (n : RegNum) (v : Byte) : (s.setReg n v).ie = s.ie := rfl
@[simp] theorem State.setReg_pcs (n : RegNum) (v : Byte) : (s.setReg n v).pcs = s.pcs := rfl
@[simp] theorem State.setReg_srs (n : RegNum) (v : Byte) : (s.setReg n v).srs = s.srs := rfl
@[simp] theorem State.setReg_shadowA (n : RegNum) (v : Byte) : (s.setReg n v).shadowA = s.shadowA := rfl
@[simp] theorem State.setReg_shadowR (n : RegNum) (v : Byte) : (s.setReg n v).shadowR = s.shadowR := rfl
@[simp] theorem State.setReg_isr (n : RegNum) (v : Byte) : (s.setReg n v).isr = s.isr := rfl
@[simp] theorem State.setReg_run (n : RegNum) (v : Byte) : (s.setReg n v).run = s.run := rfl
@[simp] theorem State.setReg_sbus (n : RegNum) (v : Byte) : (s.setReg n v).sbus = s.sbus := rfl
@[simp] theorem State.setReg_amc (n : RegNum) (v : Byte) : (s.setReg n v).amc = s.amc := rfl
@[simp] theorem State.setReg_aic (n : RegNum) (v : Byte) : (s.setReg n v).aic = s.aic := rfl
@[simp] theorem State.setReg_swd (n : RegNum) (v : Byte) : (s.setReg n v).swd = s.swd := rfl
@[simp] theorem State.setReg_gsp (n : RegNum) (v : Byte) : (s.setReg n v).gsp = s.gsp := rfl
@[simp] theorem State.setReg_gip (n : RegNum) (v : Byte) : (s.setReg n v).gip = s.gip := rfl
@[simp] theorem State.setReg_pram (n : RegNum) (v : Byte) : (s.setReg n v).pram = s.pram := rfl
@[simp] theorem State.setReg_dram (n : RegNum) (v : Byte) : (s.setReg n v).dram = s.dram := rfl
@[simp] theorem State.setReg_dma (n : RegNum) (v : Byte) : (s.setReg n v).dma = s.dma := rfl
@[simp] theorem State.setReg_busTaken (n : RegNum) (v : Byte) : (s.setReg n v).busTaken = s.busTaken := rfl
@[simp] theorem State.setReg_ibus (n : RegNum) (v : Byte) : (s.setReg n v).ibus = s.ibus := rfl
@[simp] theorem State.setReg_inputs (n : RegNum) (v : Byte) : (s.setReg n v).inputs = s.inputs := rfl
@[simp] theorem State.setReg_events (n : RegNum) (v : Byte) : (s.setReg n v).events = s.events := rfl
@[simp] theorem State.setReg_params (n : RegNum) (v : Byte) : (s.setReg n v).params = s.params := rfl
@[simp] theorem State.setReg_tick (n : RegNum) (v : Byte) : (s.setReg n v).tick = s.tick := rfl
@[simp] theorem State.setReg_vector (n : RegNum) (v : Byte) (j : IntNum) : (s.setReg n v).vector j = s.vector j := rfl
@[simp] theorem State.setReg_inDram (n : RegNum) (v : Byte) (x : Nat) : (s.setReg n v).inDram x = s.inDram x := rfl
@[simp] theorem State.setReg_inPram (n : RegNum) (v : Byte) (x : Nat) : (s.setReg n v).inPram x = s.inPram x := rfl
@[simp] theorem State.setReg_dmaClaims (n : RegNum) (v : Byte) (x : Nat) : (s.setReg n v).dmaClaims x = s.dmaClaims x := rfl
@[simp] theorem State.setReg_claimed (n : RegNum) (v : Byte) (x : Nat) : (s.setReg n v).claimed x = s.claimed x := rfl
@[simp] theorem State.setReg_answersRead (n : RegNum) (v : Byte) (x : Nat) : (s.setReg n v).answersRead x = s.answersRead x := rfl
@[simp] theorem State.setReg_dmaBars (n : RegNum) (v : Byte) : (s.setReg n v).dmaBars = s.dmaBars := rfl
@[simp] theorem State.setReg_busBusy (n : RegNum) (v : Byte) : (s.setReg n v).busBusy = s.busBusy := rfl

/-! setVector -/

@[simp] theorem State.setVector_regs (k : IntNum) (v : Byte) : (s.setVector k v).regs = s.regs := rfl
@[simp] theorem State.setVector_pc (k : IntNum) (v : Byte) : (s.setVector k v).pc = s.pc := rfl
@[simp] theorem State.setVector_sp (k : IntNum) (v : Byte) : (s.setVector k v).sp = s.sp := rfl
@[simp] theorem State.setVector_sr (k : IntNum) (v : Byte) : (s.setVector k v).sr = s.sr := rfl
@[simp] theorem State.setVector_iv (k : IntNum) (v : Byte) : (s.setVector k v).iv = s.iv.set k.toNat v := rfl
@[simp] theorem State.setVector_ie (k : IntNum) (v : Byte) : (s.setVector k v).ie = s.ie := rfl
@[simp] theorem State.setVector_pcs (k : IntNum) (v : Byte) : (s.setVector k v).pcs = s.pcs := rfl
@[simp] theorem State.setVector_srs (k : IntNum) (v : Byte) : (s.setVector k v).srs = s.srs := rfl
@[simp] theorem State.setVector_shadowA (k : IntNum) (v : Byte) : (s.setVector k v).shadowA = s.shadowA := rfl
@[simp] theorem State.setVector_shadowR (k : IntNum) (v : Byte) : (s.setVector k v).shadowR = s.shadowR := rfl
@[simp] theorem State.setVector_isr (k : IntNum) (v : Byte) : (s.setVector k v).isr = s.isr := rfl
@[simp] theorem State.setVector_run (k : IntNum) (v : Byte) : (s.setVector k v).run = s.run := rfl
@[simp] theorem State.setVector_sbus (k : IntNum) (v : Byte) : (s.setVector k v).sbus = s.sbus := rfl
@[simp] theorem State.setVector_amc (k : IntNum) (v : Byte) : (s.setVector k v).amc = s.amc := rfl
@[simp] theorem State.setVector_aic (k : IntNum) (v : Byte) : (s.setVector k v).aic = s.aic := rfl
@[simp] theorem State.setVector_swd (k : IntNum) (v : Byte) : (s.setVector k v).swd = s.swd := rfl
@[simp] theorem State.setVector_gsp (k : IntNum) (v : Byte) : (s.setVector k v).gsp = s.gsp := rfl
@[simp] theorem State.setVector_gip (k : IntNum) (v : Byte) : (s.setVector k v).gip = s.gip := rfl
@[simp] theorem State.setVector_pram (k : IntNum) (v : Byte) : (s.setVector k v).pram = s.pram := rfl
@[simp] theorem State.setVector_dram (k : IntNum) (v : Byte) : (s.setVector k v).dram = s.dram := rfl
@[simp] theorem State.setVector_dma (k : IntNum) (v : Byte) : (s.setVector k v).dma = s.dma := rfl
@[simp] theorem State.setVector_busTaken (k : IntNum) (v : Byte) : (s.setVector k v).busTaken = s.busTaken := rfl
@[simp] theorem State.setVector_ibus (k : IntNum) (v : Byte) : (s.setVector k v).ibus = s.ibus := rfl
@[simp] theorem State.setVector_inputs (k : IntNum) (v : Byte) : (s.setVector k v).inputs = s.inputs := rfl
@[simp] theorem State.setVector_events (k : IntNum) (v : Byte) : (s.setVector k v).events = s.events := rfl
@[simp] theorem State.setVector_params (k : IntNum) (v : Byte) : (s.setVector k v).params = s.params := rfl
@[simp] theorem State.setVector_tick (k : IntNum) (v : Byte) : (s.setVector k v).tick = s.tick := rfl
@[simp] theorem State.setVector_reg (k : IntNum) (v : Byte) (y : RegNum) : (s.setVector k v).reg y = s.reg y := rfl
@[simp] theorem State.setVector_pair (k : IntNum) (v : Byte) (i : PairIdx) : (s.setVector k v).pair i = s.pair i := rfl
@[simp] theorem State.setVector_inDram (k : IntNum) (v : Byte) (x : Nat) : (s.setVector k v).inDram x = s.inDram x := rfl
@[simp] theorem State.setVector_inPram (k : IntNum) (v : Byte) (x : Nat) : (s.setVector k v).inPram x = s.inPram x := rfl
@[simp] theorem State.setVector_dmaClaims (k : IntNum) (v : Byte) (x : Nat) : (s.setVector k v).dmaClaims x = s.dmaClaims x := rfl
@[simp] theorem State.setVector_claimed (k : IntNum) (v : Byte) (x : Nat) : (s.setVector k v).claimed x = s.claimed x := rfl
@[simp] theorem State.setVector_answersRead (k : IntNum) (v : Byte) (x : Nat) : (s.setVector k v).answersRead x = s.answersRead x := rfl
@[simp] theorem State.setVector_dmaBars (k : IntNum) (v : Byte) : (s.setVector k v).dmaBars = s.dmaBars := rfl
@[simp] theorem State.setVector_busBusy (k : IntNum) (v : Byte) : (s.setVector k v).busBusy = s.busBusy := rfl

/-! setSr -/

@[simp] theorem State.setSr_regs (f : Sr) : (s.setSr f).regs = s.regs := rfl
@[simp] theorem State.setSr_pc (f : Sr) : (s.setSr f).pc = s.pc := rfl
@[simp] theorem State.setSr_sp (f : Sr) : (s.setSr f).sp = s.sp := rfl
@[simp] theorem State.setSr_sr (f : Sr) : (s.setSr f).sr = f := rfl
@[simp] theorem State.setSr_iv (f : Sr) : (s.setSr f).iv = s.iv := rfl
@[simp] theorem State.setSr_ie (f : Sr) : (s.setSr f).ie = s.ie := rfl
@[simp] theorem State.setSr_pcs (f : Sr) : (s.setSr f).pcs = s.pcs := rfl
@[simp] theorem State.setSr_srs (f : Sr) : (s.setSr f).srs = s.srs := rfl
@[simp] theorem State.setSr_shadowA (f : Sr) : (s.setSr f).shadowA = s.shadowA := rfl
@[simp] theorem State.setSr_shadowR (f : Sr) : (s.setSr f).shadowR = s.shadowR := rfl
@[simp] theorem State.setSr_isr (f : Sr) : (s.setSr f).isr = s.isr := rfl
@[simp] theorem State.setSr_run (f : Sr) : (s.setSr f).run = s.run := rfl
@[simp] theorem State.setSr_sbus (f : Sr) : (s.setSr f).sbus = s.sbus := rfl
@[simp] theorem State.setSr_amc (f : Sr) : (s.setSr f).amc = s.amc := rfl
@[simp] theorem State.setSr_aic (f : Sr) : (s.setSr f).aic = s.aic := rfl
@[simp] theorem State.setSr_swd (f : Sr) : (s.setSr f).swd = s.swd := rfl
@[simp] theorem State.setSr_gsp (f : Sr) : (s.setSr f).gsp = s.gsp := rfl
@[simp] theorem State.setSr_gip (f : Sr) : (s.setSr f).gip = s.gip := rfl
@[simp] theorem State.setSr_pram (f : Sr) : (s.setSr f).pram = s.pram := rfl
@[simp] theorem State.setSr_dram (f : Sr) : (s.setSr f).dram = s.dram := rfl
@[simp] theorem State.setSr_dma (f : Sr) : (s.setSr f).dma = s.dma := rfl
@[simp] theorem State.setSr_busTaken (f : Sr) : (s.setSr f).busTaken = s.busTaken := rfl
@[simp] theorem State.setSr_ibus (f : Sr) : (s.setSr f).ibus = s.ibus := rfl
@[simp] theorem State.setSr_inputs (f : Sr) : (s.setSr f).inputs = s.inputs := rfl
@[simp] theorem State.setSr_events (f : Sr) : (s.setSr f).events = s.events := rfl
@[simp] theorem State.setSr_params (f : Sr) : (s.setSr f).params = s.params := rfl
@[simp] theorem State.setSr_tick (f : Sr) : (s.setSr f).tick = s.tick := rfl
@[simp] theorem State.setSr_reg (f : Sr) (y : RegNum) : (s.setSr f).reg y = s.reg y := rfl
@[simp] theorem State.setSr_pair (f : Sr) (i : PairIdx) : (s.setSr f).pair i = s.pair i := rfl
@[simp] theorem State.setSr_vector (f : Sr) (j : IntNum) : (s.setSr f).vector j = s.vector j := rfl
@[simp] theorem State.setSr_inDram (f : Sr) (x : Nat) : (s.setSr f).inDram x = s.inDram x := rfl
@[simp] theorem State.setSr_inPram (f : Sr) (x : Nat) : (s.setSr f).inPram x = s.inPram x := rfl
@[simp] theorem State.setSr_dmaClaims (f : Sr) (x : Nat) : (s.setSr f).dmaClaims x = s.dmaClaims x := rfl
@[simp] theorem State.setSr_claimed (f : Sr) (x : Nat) : (s.setSr f).claimed x = s.claimed x := rfl
@[simp] theorem State.setSr_answersRead (f : Sr) (x : Nat) : (s.setSr f).answersRead x = s.answersRead x := rfl
@[simp] theorem State.setSr_dmaBars (f : Sr) : (s.setSr f).dmaBars = s.dmaBars := rfl
@[simp] theorem State.setSr_busBusy (f : Sr) : (s.setSr f).busBusy = s.busBusy := rfl

/-! setPc -/

@[simp] theorem State.setPc_regs (a : ProgAddr) : (s.setPc a).regs = s.regs := rfl
@[simp] theorem State.setPc_pc (a : ProgAddr) : (s.setPc a).pc = a := rfl
@[simp] theorem State.setPc_sp (a : ProgAddr) : (s.setPc a).sp = s.sp := rfl
@[simp] theorem State.setPc_sr (a : ProgAddr) : (s.setPc a).sr = s.sr := rfl
@[simp] theorem State.setPc_iv (a : ProgAddr) : (s.setPc a).iv = s.iv := rfl
@[simp] theorem State.setPc_ie (a : ProgAddr) : (s.setPc a).ie = s.ie := rfl
@[simp] theorem State.setPc_pcs (a : ProgAddr) : (s.setPc a).pcs = s.pcs := rfl
@[simp] theorem State.setPc_srs (a : ProgAddr) : (s.setPc a).srs = s.srs := rfl
@[simp] theorem State.setPc_shadowA (a : ProgAddr) : (s.setPc a).shadowA = s.shadowA := rfl
@[simp] theorem State.setPc_shadowR (a : ProgAddr) : (s.setPc a).shadowR = s.shadowR := rfl
@[simp] theorem State.setPc_isr (a : ProgAddr) : (s.setPc a).isr = s.isr := rfl
@[simp] theorem State.setPc_run (a : ProgAddr) : (s.setPc a).run = s.run := rfl
@[simp] theorem State.setPc_sbus (a : ProgAddr) : (s.setPc a).sbus = s.sbus := rfl
@[simp] theorem State.setPc_amc (a : ProgAddr) : (s.setPc a).amc = s.amc := rfl
@[simp] theorem State.setPc_aic (a : ProgAddr) : (s.setPc a).aic = s.aic := rfl
@[simp] theorem State.setPc_swd (a : ProgAddr) : (s.setPc a).swd = s.swd := rfl
@[simp] theorem State.setPc_gsp (a : ProgAddr) : (s.setPc a).gsp = s.gsp := rfl
@[simp] theorem State.setPc_gip (a : ProgAddr) : (s.setPc a).gip = s.gip := rfl
@[simp] theorem State.setPc_pram (a : ProgAddr) : (s.setPc a).pram = s.pram := rfl
@[simp] theorem State.setPc_dram (a : ProgAddr) : (s.setPc a).dram = s.dram := rfl
@[simp] theorem State.setPc_dma (a : ProgAddr) : (s.setPc a).dma = s.dma := rfl
@[simp] theorem State.setPc_busTaken (a : ProgAddr) : (s.setPc a).busTaken = s.busTaken := rfl
@[simp] theorem State.setPc_ibus (a : ProgAddr) : (s.setPc a).ibus = s.ibus := rfl
@[simp] theorem State.setPc_inputs (a : ProgAddr) : (s.setPc a).inputs = s.inputs := rfl
@[simp] theorem State.setPc_events (a : ProgAddr) : (s.setPc a).events = s.events := rfl
@[simp] theorem State.setPc_params (a : ProgAddr) : (s.setPc a).params = s.params := rfl
@[simp] theorem State.setPc_tick (a : ProgAddr) : (s.setPc a).tick = s.tick := rfl
@[simp] theorem State.setPc_reg (a : ProgAddr) (y : RegNum) : (s.setPc a).reg y = s.reg y := rfl
@[simp] theorem State.setPc_pair (a : ProgAddr) (i : PairIdx) : (s.setPc a).pair i = s.pair i := rfl
@[simp] theorem State.setPc_vector (a : ProgAddr) (j : IntNum) : (s.setPc a).vector j = s.vector j := rfl
@[simp] theorem State.setPc_inDram (a : ProgAddr) (x : Nat) : (s.setPc a).inDram x = s.inDram x := rfl
@[simp] theorem State.setPc_inPram (a : ProgAddr) (x : Nat) : (s.setPc a).inPram x = s.inPram x := rfl
@[simp] theorem State.setPc_dmaClaims (a : ProgAddr) (x : Nat) : (s.setPc a).dmaClaims x = s.dmaClaims x := rfl
@[simp] theorem State.setPc_claimed (a : ProgAddr) (x : Nat) : (s.setPc a).claimed x = s.claimed x := rfl
@[simp] theorem State.setPc_answersRead (a : ProgAddr) (x : Nat) : (s.setPc a).answersRead x = s.answersRead x := rfl
@[simp] theorem State.setPc_dmaBars (a : ProgAddr) : (s.setPc a).dmaBars = s.dmaBars := rfl
@[simp] theorem State.setPc_busBusy (a : ProgAddr) : (s.setPc a).busBusy = s.busBusy := rfl

/-! advance -/

@[simp] theorem State.advance_regs (l : Nat) : (s.advance l).regs = s.regs := rfl
@[simp] theorem State.advance_pc (l : Nat) : (s.advance l).pc = s.pc + BitVec.ofNat 12 l := rfl
@[simp] theorem State.advance_sp (l : Nat) : (s.advance l).sp = s.sp := rfl
@[simp] theorem State.advance_sr (l : Nat) : (s.advance l).sr = s.sr := rfl
@[simp] theorem State.advance_iv (l : Nat) : (s.advance l).iv = s.iv := rfl
@[simp] theorem State.advance_ie (l : Nat) : (s.advance l).ie = s.ie := rfl
@[simp] theorem State.advance_pcs (l : Nat) : (s.advance l).pcs = s.pcs := rfl
@[simp] theorem State.advance_srs (l : Nat) : (s.advance l).srs = s.srs := rfl
@[simp] theorem State.advance_shadowA (l : Nat) : (s.advance l).shadowA = s.shadowA := rfl
@[simp] theorem State.advance_shadowR (l : Nat) : (s.advance l).shadowR = s.shadowR := rfl
@[simp] theorem State.advance_isr (l : Nat) : (s.advance l).isr = s.isr := rfl
@[simp] theorem State.advance_run (l : Nat) : (s.advance l).run = s.run := rfl
@[simp] theorem State.advance_sbus (l : Nat) : (s.advance l).sbus = s.sbus := rfl
@[simp] theorem State.advance_amc (l : Nat) : (s.advance l).amc = s.amc := rfl
@[simp] theorem State.advance_aic (l : Nat) : (s.advance l).aic = s.aic := rfl
@[simp] theorem State.advance_swd (l : Nat) : (s.advance l).swd = s.swd := rfl
@[simp] theorem State.advance_gsp (l : Nat) : (s.advance l).gsp = s.gsp := rfl
@[simp] theorem State.advance_gip (l : Nat) : (s.advance l).gip = s.gip := rfl
@[simp] theorem State.advance_pram (l : Nat) : (s.advance l).pram = s.pram := rfl
@[simp] theorem State.advance_dram (l : Nat) : (s.advance l).dram = s.dram := rfl
@[simp] theorem State.advance_dma (l : Nat) : (s.advance l).dma = s.dma := rfl
@[simp] theorem State.advance_busTaken (l : Nat) : (s.advance l).busTaken = s.busTaken := rfl
@[simp] theorem State.advance_ibus (l : Nat) : (s.advance l).ibus = s.ibus := rfl
@[simp] theorem State.advance_inputs (l : Nat) : (s.advance l).inputs = s.inputs := rfl
@[simp] theorem State.advance_events (l : Nat) : (s.advance l).events = s.events := rfl
@[simp] theorem State.advance_params (l : Nat) : (s.advance l).params = s.params := rfl
@[simp] theorem State.advance_tick (l : Nat) : (s.advance l).tick = s.tick := rfl
@[simp] theorem State.advance_reg (l : Nat) (y : RegNum) : (s.advance l).reg y = s.reg y := rfl
@[simp] theorem State.advance_pair (l : Nat) (i : PairIdx) : (s.advance l).pair i = s.pair i := rfl
@[simp] theorem State.advance_vector (l : Nat) (j : IntNum) : (s.advance l).vector j = s.vector j := rfl
@[simp] theorem State.advance_inDram (l : Nat) (x : Nat) : (s.advance l).inDram x = s.inDram x := rfl
@[simp] theorem State.advance_inPram (l : Nat) (x : Nat) : (s.advance l).inPram x = s.inPram x := rfl
@[simp] theorem State.advance_dmaClaims (l : Nat) (x : Nat) : (s.advance l).dmaClaims x = s.dmaClaims x := rfl
@[simp] theorem State.advance_claimed (l : Nat) (x : Nat) : (s.advance l).claimed x = s.claimed x := rfl
@[simp] theorem State.advance_answersRead (l : Nat) (x : Nat) : (s.advance l).answersRead x = s.answersRead x := rfl
@[simp] theorem State.advance_dmaBars (l : Nat) : (s.advance l).dmaBars = s.dmaBars := rfl
@[simp] theorem State.advance_busBusy (l : Nat) : (s.advance l).busBusy = s.busBusy := rfl

/-! setSp -/

@[simp] theorem State.setSp_regs (v : DataAddr) : (s.setSp v).regs = s.regs := rfl
@[simp] theorem State.setSp_pc (v : DataAddr) : (s.setSp v).pc = s.pc := rfl
@[simp] theorem State.setSp_sp (v : DataAddr) : (s.setSp v).sp = v := rfl
@[simp] theorem State.setSp_sr (v : DataAddr) : (s.setSp v).sr = s.sr := rfl
@[simp] theorem State.setSp_iv (v : DataAddr) : (s.setSp v).iv = s.iv := rfl
@[simp] theorem State.setSp_ie (v : DataAddr) : (s.setSp v).ie = s.ie := rfl
@[simp] theorem State.setSp_pcs (v : DataAddr) : (s.setSp v).pcs = s.pcs := rfl
@[simp] theorem State.setSp_srs (v : DataAddr) : (s.setSp v).srs = s.srs := rfl
@[simp] theorem State.setSp_shadowA (v : DataAddr) : (s.setSp v).shadowA = s.shadowA := rfl
@[simp] theorem State.setSp_shadowR (v : DataAddr) : (s.setSp v).shadowR = s.shadowR := rfl
@[simp] theorem State.setSp_isr (v : DataAddr) : (s.setSp v).isr = s.isr := rfl
@[simp] theorem State.setSp_run (v : DataAddr) : (s.setSp v).run = s.run := rfl
@[simp] theorem State.setSp_sbus (v : DataAddr) : (s.setSp v).sbus = s.sbus := rfl
@[simp] theorem State.setSp_amc (v : DataAddr) : (s.setSp v).amc = s.amc := rfl
@[simp] theorem State.setSp_aic (v : DataAddr) : (s.setSp v).aic = s.aic := rfl
@[simp] theorem State.setSp_swd (v : DataAddr) : (s.setSp v).swd = s.swd := rfl
@[simp] theorem State.setSp_gsp (v : DataAddr) : (s.setSp v).gsp = s.gsp := rfl
@[simp] theorem State.setSp_gip (v : DataAddr) : (s.setSp v).gip = s.gip := rfl
@[simp] theorem State.setSp_pram (v : DataAddr) : (s.setSp v).pram = s.pram := rfl
@[simp] theorem State.setSp_dram (v : DataAddr) : (s.setSp v).dram = s.dram := rfl
@[simp] theorem State.setSp_dma (v : DataAddr) : (s.setSp v).dma = s.dma := rfl
@[simp] theorem State.setSp_busTaken (v : DataAddr) : (s.setSp v).busTaken = s.busTaken := rfl
@[simp] theorem State.setSp_ibus (v : DataAddr) : (s.setSp v).ibus = s.ibus := rfl
@[simp] theorem State.setSp_inputs (v : DataAddr) : (s.setSp v).inputs = s.inputs := rfl
@[simp] theorem State.setSp_events (v : DataAddr) : (s.setSp v).events = s.events := rfl
@[simp] theorem State.setSp_params (v : DataAddr) : (s.setSp v).params = s.params := rfl
@[simp] theorem State.setSp_tick (v : DataAddr) : (s.setSp v).tick = s.tick := rfl
@[simp] theorem State.setSp_reg (v : DataAddr) (y : RegNum) : (s.setSp v).reg y = s.reg y := rfl
@[simp] theorem State.setSp_pair (v : DataAddr) (i : PairIdx) : (s.setSp v).pair i = s.pair i := rfl
@[simp] theorem State.setSp_vector (v : DataAddr) (j : IntNum) : (s.setSp v).vector j = s.vector j := rfl
@[simp] theorem State.setSp_inDram (v : DataAddr) (x : Nat) : (s.setSp v).inDram x = s.inDram x := rfl
@[simp] theorem State.setSp_inPram (v : DataAddr) (x : Nat) : (s.setSp v).inPram x = s.inPram x := rfl
@[simp] theorem State.setSp_dmaClaims (v : DataAddr) (x : Nat) : (s.setSp v).dmaClaims x = s.dmaClaims x := rfl
@[simp] theorem State.setSp_claimed (v : DataAddr) (x : Nat) : (s.setSp v).claimed x = s.claimed x := rfl
@[simp] theorem State.setSp_answersRead (v : DataAddr) (x : Nat) : (s.setSp v).answersRead x = s.answersRead x := rfl
@[simp] theorem State.setSp_dmaBars (v : DataAddr) : (s.setSp v).dmaBars = s.dmaBars := rfl
@[simp] theorem State.setSp_busBusy (v : DataAddr) : (s.setSp v).busBusy = s.busBusy := rfl

/-! setIe -/

@[simp] theorem State.setIe_regs (v : BitVec 16) : (s.setIe v).regs = s.regs := rfl
@[simp] theorem State.setIe_pc (v : BitVec 16) : (s.setIe v).pc = s.pc := rfl
@[simp] theorem State.setIe_sp (v : BitVec 16) : (s.setIe v).sp = s.sp := rfl
@[simp] theorem State.setIe_sr (v : BitVec 16) : (s.setIe v).sr = s.sr := rfl
@[simp] theorem State.setIe_iv (v : BitVec 16) : (s.setIe v).iv = s.iv := rfl
@[simp] theorem State.setIe_ie (v : BitVec 16) : (s.setIe v).ie = v := rfl
@[simp] theorem State.setIe_pcs (v : BitVec 16) : (s.setIe v).pcs = s.pcs := rfl
@[simp] theorem State.setIe_srs (v : BitVec 16) : (s.setIe v).srs = s.srs := rfl
@[simp] theorem State.setIe_shadowA (v : BitVec 16) : (s.setIe v).shadowA = s.shadowA := rfl
@[simp] theorem State.setIe_shadowR (v : BitVec 16) : (s.setIe v).shadowR = s.shadowR := rfl
@[simp] theorem State.setIe_isr (v : BitVec 16) : (s.setIe v).isr = s.isr := rfl
@[simp] theorem State.setIe_run (v : BitVec 16) : (s.setIe v).run = s.run := rfl
@[simp] theorem State.setIe_sbus (v : BitVec 16) : (s.setIe v).sbus = s.sbus := rfl
@[simp] theorem State.setIe_amc (v : BitVec 16) : (s.setIe v).amc = s.amc := rfl
@[simp] theorem State.setIe_aic (v : BitVec 16) : (s.setIe v).aic = s.aic := rfl
@[simp] theorem State.setIe_swd (v : BitVec 16) : (s.setIe v).swd = s.swd := rfl
@[simp] theorem State.setIe_gsp (v : BitVec 16) : (s.setIe v).gsp = s.gsp := rfl
@[simp] theorem State.setIe_gip (v : BitVec 16) : (s.setIe v).gip = s.gip := rfl
@[simp] theorem State.setIe_pram (v : BitVec 16) : (s.setIe v).pram = s.pram := rfl
@[simp] theorem State.setIe_dram (v : BitVec 16) : (s.setIe v).dram = s.dram := rfl
@[simp] theorem State.setIe_dma (v : BitVec 16) : (s.setIe v).dma = s.dma := rfl
@[simp] theorem State.setIe_busTaken (v : BitVec 16) : (s.setIe v).busTaken = s.busTaken := rfl
@[simp] theorem State.setIe_ibus (v : BitVec 16) : (s.setIe v).ibus = s.ibus := rfl
@[simp] theorem State.setIe_inputs (v : BitVec 16) : (s.setIe v).inputs = s.inputs := rfl
@[simp] theorem State.setIe_events (v : BitVec 16) : (s.setIe v).events = s.events := rfl
@[simp] theorem State.setIe_params (v : BitVec 16) : (s.setIe v).params = s.params := rfl
@[simp] theorem State.setIe_tick (v : BitVec 16) : (s.setIe v).tick = s.tick := rfl
@[simp] theorem State.setIe_reg (v : BitVec 16) (y : RegNum) : (s.setIe v).reg y = s.reg y := rfl
@[simp] theorem State.setIe_pair (v : BitVec 16) (i : PairIdx) : (s.setIe v).pair i = s.pair i := rfl
@[simp] theorem State.setIe_vector (v : BitVec 16) (j : IntNum) : (s.setIe v).vector j = s.vector j := rfl
@[simp] theorem State.setIe_inDram (v : BitVec 16) (x : Nat) : (s.setIe v).inDram x = s.inDram x := rfl
@[simp] theorem State.setIe_inPram (v : BitVec 16) (x : Nat) : (s.setIe v).inPram x = s.inPram x := rfl
@[simp] theorem State.setIe_dmaClaims (v : BitVec 16) (x : Nat) : (s.setIe v).dmaClaims x = s.dmaClaims x := rfl
@[simp] theorem State.setIe_claimed (v : BitVec 16) (x : Nat) : (s.setIe v).claimed x = s.claimed x := rfl
@[simp] theorem State.setIe_answersRead (v : BitVec 16) (x : Nat) : (s.setIe v).answersRead x = s.answersRead x := rfl
@[simp] theorem State.setIe_dmaBars (v : BitVec 16) : (s.setIe v).dmaBars = s.dmaBars := rfl
@[simp] theorem State.setIe_busBusy (v : BitVec 16) : (s.setIe v).busBusy = s.busBusy := rfl

/-! setRun -/

@[simp] theorem State.setRun_regs (r : RunState) : (s.setRun r).regs = s.regs := rfl
@[simp] theorem State.setRun_pc (r : RunState) : (s.setRun r).pc = s.pc := rfl
@[simp] theorem State.setRun_sp (r : RunState) : (s.setRun r).sp = s.sp := rfl
@[simp] theorem State.setRun_sr (r : RunState) : (s.setRun r).sr = s.sr := rfl
@[simp] theorem State.setRun_iv (r : RunState) : (s.setRun r).iv = s.iv := rfl
@[simp] theorem State.setRun_ie (r : RunState) : (s.setRun r).ie = s.ie := rfl
@[simp] theorem State.setRun_pcs (r : RunState) : (s.setRun r).pcs = s.pcs := rfl
@[simp] theorem State.setRun_srs (r : RunState) : (s.setRun r).srs = s.srs := rfl
@[simp] theorem State.setRun_shadowA (r : RunState) : (s.setRun r).shadowA = s.shadowA := rfl
@[simp] theorem State.setRun_shadowR (r : RunState) : (s.setRun r).shadowR = s.shadowR := rfl
@[simp] theorem State.setRun_isr (r : RunState) : (s.setRun r).isr = s.isr := rfl
@[simp] theorem State.setRun_run (r : RunState) : (s.setRun r).run = r := rfl
@[simp] theorem State.setRun_sbus (r : RunState) : (s.setRun r).sbus = s.sbus := rfl
@[simp] theorem State.setRun_amc (r : RunState) : (s.setRun r).amc = s.amc := rfl
@[simp] theorem State.setRun_aic (r : RunState) : (s.setRun r).aic = s.aic := rfl
@[simp] theorem State.setRun_swd (r : RunState) : (s.setRun r).swd = s.swd := rfl
@[simp] theorem State.setRun_gsp (r : RunState) : (s.setRun r).gsp = s.gsp := rfl
@[simp] theorem State.setRun_gip (r : RunState) : (s.setRun r).gip = s.gip := rfl
@[simp] theorem State.setRun_pram (r : RunState) : (s.setRun r).pram = s.pram := rfl
@[simp] theorem State.setRun_dram (r : RunState) : (s.setRun r).dram = s.dram := rfl
@[simp] theorem State.setRun_dma (r : RunState) : (s.setRun r).dma = s.dma := rfl
@[simp] theorem State.setRun_busTaken (r : RunState) : (s.setRun r).busTaken = s.busTaken := rfl
@[simp] theorem State.setRun_ibus (r : RunState) : (s.setRun r).ibus = s.ibus := rfl
@[simp] theorem State.setRun_inputs (r : RunState) : (s.setRun r).inputs = s.inputs := rfl
@[simp] theorem State.setRun_events (r : RunState) : (s.setRun r).events = s.events := rfl
@[simp] theorem State.setRun_params (r : RunState) : (s.setRun r).params = s.params := rfl
@[simp] theorem State.setRun_tick (r : RunState) : (s.setRun r).tick = s.tick := rfl
@[simp] theorem State.setRun_reg (r : RunState) (y : RegNum) : (s.setRun r).reg y = s.reg y := rfl
@[simp] theorem State.setRun_pair (r : RunState) (i : PairIdx) : (s.setRun r).pair i = s.pair i := rfl
@[simp] theorem State.setRun_vector (r : RunState) (j : IntNum) : (s.setRun r).vector j = s.vector j := rfl
@[simp] theorem State.setRun_inDram (r : RunState) (x : Nat) : (s.setRun r).inDram x = s.inDram x := rfl
@[simp] theorem State.setRun_inPram (r : RunState) (x : Nat) : (s.setRun r).inPram x = s.inPram x := rfl
@[simp] theorem State.setRun_dmaClaims (r : RunState) (x : Nat) : (s.setRun r).dmaClaims x = s.dmaClaims x := rfl
@[simp] theorem State.setRun_claimed (r : RunState) (x : Nat) : (s.setRun r).claimed x = s.claimed x := rfl
@[simp] theorem State.setRun_answersRead (r : RunState) (x : Nat) : (s.setRun r).answersRead x = s.answersRead x := rfl
@[simp] theorem State.setRun_dmaBars (r : RunState) : (s.setRun r).dmaBars = s.dmaBars := rfl
@[simp] theorem State.setRun_busBusy (r : RunState) : (s.setRun r).busBusy = s.busBusy := rfl

/-! setDram -/

@[simp] theorem State.setDram_regs (m : Memory) : (s.setDram m).regs = s.regs := rfl
@[simp] theorem State.setDram_pc (m : Memory) : (s.setDram m).pc = s.pc := rfl
@[simp] theorem State.setDram_sp (m : Memory) : (s.setDram m).sp = s.sp := rfl
@[simp] theorem State.setDram_sr (m : Memory) : (s.setDram m).sr = s.sr := rfl
@[simp] theorem State.setDram_iv (m : Memory) : (s.setDram m).iv = s.iv := rfl
@[simp] theorem State.setDram_ie (m : Memory) : (s.setDram m).ie = s.ie := rfl
@[simp] theorem State.setDram_pcs (m : Memory) : (s.setDram m).pcs = s.pcs := rfl
@[simp] theorem State.setDram_srs (m : Memory) : (s.setDram m).srs = s.srs := rfl
@[simp] theorem State.setDram_shadowA (m : Memory) : (s.setDram m).shadowA = s.shadowA := rfl
@[simp] theorem State.setDram_shadowR (m : Memory) : (s.setDram m).shadowR = s.shadowR := rfl
@[simp] theorem State.setDram_isr (m : Memory) : (s.setDram m).isr = s.isr := rfl
@[simp] theorem State.setDram_run (m : Memory) : (s.setDram m).run = s.run := rfl
@[simp] theorem State.setDram_sbus (m : Memory) : (s.setDram m).sbus = s.sbus := rfl
@[simp] theorem State.setDram_amc (m : Memory) : (s.setDram m).amc = s.amc := rfl
@[simp] theorem State.setDram_aic (m : Memory) : (s.setDram m).aic = s.aic := rfl
@[simp] theorem State.setDram_swd (m : Memory) : (s.setDram m).swd = s.swd := rfl
@[simp] theorem State.setDram_gsp (m : Memory) : (s.setDram m).gsp = s.gsp := rfl
@[simp] theorem State.setDram_gip (m : Memory) : (s.setDram m).gip = s.gip := rfl
@[simp] theorem State.setDram_pram (m : Memory) : (s.setDram m).pram = s.pram := rfl
@[simp] theorem State.setDram_dram (m : Memory) : (s.setDram m).dram = m := rfl
@[simp] theorem State.setDram_dma (m : Memory) : (s.setDram m).dma = s.dma := rfl
@[simp] theorem State.setDram_busTaken (m : Memory) : (s.setDram m).busTaken = s.busTaken := rfl
@[simp] theorem State.setDram_ibus (m : Memory) : (s.setDram m).ibus = s.ibus := rfl
@[simp] theorem State.setDram_inputs (m : Memory) : (s.setDram m).inputs = s.inputs := rfl
@[simp] theorem State.setDram_events (m : Memory) : (s.setDram m).events = s.events := rfl
@[simp] theorem State.setDram_params (m : Memory) : (s.setDram m).params = s.params := rfl
@[simp] theorem State.setDram_tick (m : Memory) : (s.setDram m).tick = s.tick := rfl
@[simp] theorem State.setDram_reg (m : Memory) (y : RegNum) : (s.setDram m).reg y = s.reg y := rfl
@[simp] theorem State.setDram_pair (m : Memory) (i : PairIdx) : (s.setDram m).pair i = s.pair i := rfl
@[simp] theorem State.setDram_vector (m : Memory) (j : IntNum) : (s.setDram m).vector j = s.vector j := rfl
@[simp] theorem State.setDram_inDram (m : Memory) (x : Nat) : (s.setDram m).inDram x = s.inDram x := rfl
@[simp] theorem State.setDram_inPram (m : Memory) (x : Nat) : (s.setDram m).inPram x = s.inPram x := rfl
@[simp] theorem State.setDram_dmaClaims (m : Memory) (x : Nat) : (s.setDram m).dmaClaims x = s.dmaClaims x := rfl
@[simp] theorem State.setDram_claimed (m : Memory) (x : Nat) : (s.setDram m).claimed x = s.claimed x := rfl
@[simp] theorem State.setDram_answersRead (m : Memory) (x : Nat) : (s.setDram m).answersRead x = s.answersRead x := rfl
@[simp] theorem State.setDram_dmaBars (m : Memory) : (s.setDram m).dmaBars = s.dmaBars := rfl
@[simp] theorem State.setDram_busBusy (m : Memory) : (s.setDram m).busBusy = s.busBusy := rfl

/-! setPram -/

@[simp] theorem State.setPram_regs (m : Memory) : (s.setPram m).regs = s.regs := rfl
@[simp] theorem State.setPram_pc (m : Memory) : (s.setPram m).pc = s.pc := rfl
@[simp] theorem State.setPram_sp (m : Memory) : (s.setPram m).sp = s.sp := rfl
@[simp] theorem State.setPram_sr (m : Memory) : (s.setPram m).sr = s.sr := rfl
@[simp] theorem State.setPram_iv (m : Memory) : (s.setPram m).iv = s.iv := rfl
@[simp] theorem State.setPram_ie (m : Memory) : (s.setPram m).ie = s.ie := rfl
@[simp] theorem State.setPram_pcs (m : Memory) : (s.setPram m).pcs = s.pcs := rfl
@[simp] theorem State.setPram_srs (m : Memory) : (s.setPram m).srs = s.srs := rfl
@[simp] theorem State.setPram_shadowA (m : Memory) : (s.setPram m).shadowA = s.shadowA := rfl
@[simp] theorem State.setPram_shadowR (m : Memory) : (s.setPram m).shadowR = s.shadowR := rfl
@[simp] theorem State.setPram_isr (m : Memory) : (s.setPram m).isr = s.isr := rfl
@[simp] theorem State.setPram_run (m : Memory) : (s.setPram m).run = s.run := rfl
@[simp] theorem State.setPram_sbus (m : Memory) : (s.setPram m).sbus = s.sbus := rfl
@[simp] theorem State.setPram_amc (m : Memory) : (s.setPram m).amc = s.amc := rfl
@[simp] theorem State.setPram_aic (m : Memory) : (s.setPram m).aic = s.aic := rfl
@[simp] theorem State.setPram_swd (m : Memory) : (s.setPram m).swd = s.swd := rfl
@[simp] theorem State.setPram_gsp (m : Memory) : (s.setPram m).gsp = s.gsp := rfl
@[simp] theorem State.setPram_gip (m : Memory) : (s.setPram m).gip = s.gip := rfl
@[simp] theorem State.setPram_pram (m : Memory) : (s.setPram m).pram = m := rfl
@[simp] theorem State.setPram_dram (m : Memory) : (s.setPram m).dram = s.dram := rfl
@[simp] theorem State.setPram_dma (m : Memory) : (s.setPram m).dma = s.dma := rfl
@[simp] theorem State.setPram_busTaken (m : Memory) : (s.setPram m).busTaken = s.busTaken := rfl
@[simp] theorem State.setPram_ibus (m : Memory) : (s.setPram m).ibus = s.ibus := rfl
@[simp] theorem State.setPram_inputs (m : Memory) : (s.setPram m).inputs = s.inputs := rfl
@[simp] theorem State.setPram_events (m : Memory) : (s.setPram m).events = s.events := rfl
@[simp] theorem State.setPram_params (m : Memory) : (s.setPram m).params = s.params := rfl
@[simp] theorem State.setPram_tick (m : Memory) : (s.setPram m).tick = s.tick := rfl
@[simp] theorem State.setPram_reg (m : Memory) (y : RegNum) : (s.setPram m).reg y = s.reg y := rfl
@[simp] theorem State.setPram_pair (m : Memory) (i : PairIdx) : (s.setPram m).pair i = s.pair i := rfl
@[simp] theorem State.setPram_vector (m : Memory) (j : IntNum) : (s.setPram m).vector j = s.vector j := rfl
@[simp] theorem State.setPram_inDram (m : Memory) (x : Nat) : (s.setPram m).inDram x = s.inDram x := rfl
@[simp] theorem State.setPram_inPram (m : Memory) (x : Nat) : (s.setPram m).inPram x = s.inPram x := rfl
@[simp] theorem State.setPram_dmaClaims (m : Memory) (x : Nat) : (s.setPram m).dmaClaims x = s.dmaClaims x := rfl
@[simp] theorem State.setPram_claimed (m : Memory) (x : Nat) : (s.setPram m).claimed x = s.claimed x := rfl
@[simp] theorem State.setPram_answersRead (m : Memory) (x : Nat) : (s.setPram m).answersRead x = s.answersRead x := rfl
@[simp] theorem State.setPram_dmaBars (m : Memory) : (s.setPram m).dmaBars = s.dmaBars := rfl
@[simp] theorem State.setPram_busBusy (m : Memory) : (s.setPram m).busBusy = s.busBusy := rfl

/-! setDma -/

@[simp] theorem State.setDma_regs (d : Dma) : (s.setDma d).regs = s.regs := rfl
@[simp] theorem State.setDma_pc (d : Dma) : (s.setDma d).pc = s.pc := rfl
@[simp] theorem State.setDma_sp (d : Dma) : (s.setDma d).sp = s.sp := rfl
@[simp] theorem State.setDma_sr (d : Dma) : (s.setDma d).sr = s.sr := rfl
@[simp] theorem State.setDma_iv (d : Dma) : (s.setDma d).iv = s.iv := rfl
@[simp] theorem State.setDma_ie (d : Dma) : (s.setDma d).ie = s.ie := rfl
@[simp] theorem State.setDma_pcs (d : Dma) : (s.setDma d).pcs = s.pcs := rfl
@[simp] theorem State.setDma_srs (d : Dma) : (s.setDma d).srs = s.srs := rfl
@[simp] theorem State.setDma_shadowA (d : Dma) : (s.setDma d).shadowA = s.shadowA := rfl
@[simp] theorem State.setDma_shadowR (d : Dma) : (s.setDma d).shadowR = s.shadowR := rfl
@[simp] theorem State.setDma_isr (d : Dma) : (s.setDma d).isr = s.isr := rfl
@[simp] theorem State.setDma_run (d : Dma) : (s.setDma d).run = s.run := rfl
@[simp] theorem State.setDma_sbus (d : Dma) : (s.setDma d).sbus = s.sbus := rfl
@[simp] theorem State.setDma_amc (d : Dma) : (s.setDma d).amc = s.amc := rfl
@[simp] theorem State.setDma_aic (d : Dma) : (s.setDma d).aic = s.aic := rfl
@[simp] theorem State.setDma_swd (d : Dma) : (s.setDma d).swd = s.swd := rfl
@[simp] theorem State.setDma_gsp (d : Dma) : (s.setDma d).gsp = s.gsp := rfl
@[simp] theorem State.setDma_gip (d : Dma) : (s.setDma d).gip = s.gip := rfl
@[simp] theorem State.setDma_pram (d : Dma) : (s.setDma d).pram = s.pram := rfl
@[simp] theorem State.setDma_dram (d : Dma) : (s.setDma d).dram = s.dram := rfl
@[simp] theorem State.setDma_dma (d : Dma) : (s.setDma d).dma = d := rfl
@[simp] theorem State.setDma_busTaken (d : Dma) : (s.setDma d).busTaken = s.busTaken := rfl
@[simp] theorem State.setDma_ibus (d : Dma) : (s.setDma d).ibus = s.ibus := rfl
@[simp] theorem State.setDma_inputs (d : Dma) : (s.setDma d).inputs = s.inputs := rfl
@[simp] theorem State.setDma_events (d : Dma) : (s.setDma d).events = s.events := rfl
@[simp] theorem State.setDma_params (d : Dma) : (s.setDma d).params = s.params := rfl
@[simp] theorem State.setDma_tick (d : Dma) : (s.setDma d).tick = s.tick := rfl
@[simp] theorem State.setDma_reg (d : Dma) (y : RegNum) : (s.setDma d).reg y = s.reg y := rfl
@[simp] theorem State.setDma_pair (d : Dma) (i : PairIdx) : (s.setDma d).pair i = s.pair i := rfl
@[simp] theorem State.setDma_vector (d : Dma) (j : IntNum) : (s.setDma d).vector j = s.vector j := rfl
@[simp] theorem State.setDma_inDram (d : Dma) (x : Nat) : (s.setDma d).inDram x = s.inDram x := rfl
@[simp] theorem State.setDma_inPram (d : Dma) (x : Nat) : (s.setDma d).inPram x = s.inPram x := rfl
@[simp] theorem State.setDma_dmaClaims (d : Dma) (x : Nat) : (s.setDma d).dmaClaims x = s.dmaClaims x := rfl
@[simp] theorem State.setDma_claimed (d : Dma) (x : Nat) : (s.setDma d).claimed x = s.claimed x := rfl
@[simp] theorem State.setDma_answersRead (d : Dma) (x : Nat) : (s.setDma d).answersRead x = s.answersRead x := rfl

/-! setSbus -/

@[simp] theorem State.setSbus_regs (v : Byte) : (s.setSbus v).regs = s.regs := rfl
@[simp] theorem State.setSbus_pc (v : Byte) : (s.setSbus v).pc = s.pc := rfl
@[simp] theorem State.setSbus_sp (v : Byte) : (s.setSbus v).sp = s.sp := rfl
@[simp] theorem State.setSbus_sr (v : Byte) : (s.setSbus v).sr = s.sr := rfl
@[simp] theorem State.setSbus_iv (v : Byte) : (s.setSbus v).iv = s.iv := rfl
@[simp] theorem State.setSbus_ie (v : Byte) : (s.setSbus v).ie = s.ie := rfl
@[simp] theorem State.setSbus_pcs (v : Byte) : (s.setSbus v).pcs = s.pcs := rfl
@[simp] theorem State.setSbus_srs (v : Byte) : (s.setSbus v).srs = s.srs := rfl
@[simp] theorem State.setSbus_shadowA (v : Byte) : (s.setSbus v).shadowA = s.shadowA := rfl
@[simp] theorem State.setSbus_shadowR (v : Byte) : (s.setSbus v).shadowR = s.shadowR := rfl
@[simp] theorem State.setSbus_isr (v : Byte) : (s.setSbus v).isr = s.isr := rfl
@[simp] theorem State.setSbus_run (v : Byte) : (s.setSbus v).run = s.run := rfl
@[simp] theorem State.setSbus_sbus (v : Byte) : (s.setSbus v).sbus = v := rfl
@[simp] theorem State.setSbus_amc (v : Byte) : (s.setSbus v).amc = s.amc := rfl
@[simp] theorem State.setSbus_aic (v : Byte) : (s.setSbus v).aic = s.aic := rfl
@[simp] theorem State.setSbus_swd (v : Byte) : (s.setSbus v).swd = s.swd := rfl
@[simp] theorem State.setSbus_gsp (v : Byte) : (s.setSbus v).gsp = s.gsp := rfl
@[simp] theorem State.setSbus_gip (v : Byte) : (s.setSbus v).gip = s.gip := rfl
@[simp] theorem State.setSbus_pram (v : Byte) : (s.setSbus v).pram = s.pram := rfl
@[simp] theorem State.setSbus_dram (v : Byte) : (s.setSbus v).dram = s.dram := rfl
@[simp] theorem State.setSbus_dma (v : Byte) : (s.setSbus v).dma = s.dma := rfl
@[simp] theorem State.setSbus_busTaken (v : Byte) : (s.setSbus v).busTaken = s.busTaken := rfl
@[simp] theorem State.setSbus_ibus (v : Byte) : (s.setSbus v).ibus = s.ibus := rfl
@[simp] theorem State.setSbus_inputs (v : Byte) : (s.setSbus v).inputs = s.inputs := rfl
@[simp] theorem State.setSbus_events (v : Byte) : (s.setSbus v).events = s.events := rfl
@[simp] theorem State.setSbus_params (v : Byte) : (s.setSbus v).params = s.params := rfl
@[simp] theorem State.setSbus_tick (v : Byte) : (s.setSbus v).tick = s.tick := rfl
@[simp] theorem State.setSbus_reg (v : Byte) (y : RegNum) : (s.setSbus v).reg y = s.reg y := rfl
@[simp] theorem State.setSbus_pair (v : Byte) (i : PairIdx) : (s.setSbus v).pair i = s.pair i := rfl
@[simp] theorem State.setSbus_vector (v : Byte) (j : IntNum) : (s.setSbus v).vector j = s.vector j := rfl
@[simp] theorem State.setSbus_inDram (v : Byte) (x : Nat) : (s.setSbus v).inDram x = s.inDram x := rfl
@[simp] theorem State.setSbus_inPram (v : Byte) (x : Nat) : (s.setSbus v).inPram x = s.inPram x := rfl
@[simp] theorem State.setSbus_dmaClaims (v : Byte) (x : Nat) : (s.setSbus v).dmaClaims x = s.dmaClaims x := rfl
@[simp] theorem State.setSbus_claimed (v : Byte) (x : Nat) : (s.setSbus v).claimed x = s.claimed x := rfl
@[simp] theorem State.setSbus_answersRead (v : Byte) (x : Nat) : (s.setSbus v).answersRead x = s.answersRead x := rfl
@[simp] theorem State.setSbus_dmaBars (v : Byte) : (s.setSbus v).dmaBars = s.dmaBars := rfl
@[simp] theorem State.setSbus_busBusy (v : Byte) : (s.setSbus v).busBusy = s.busBusy := rfl

/-! setAmc -/

@[simp] theorem State.setAmc_regs (c : MixIse) : (s.setAmc c).regs = s.regs := rfl
@[simp] theorem State.setAmc_pc (c : MixIse) : (s.setAmc c).pc = s.pc := rfl
@[simp] theorem State.setAmc_sp (c : MixIse) : (s.setAmc c).sp = s.sp := rfl
@[simp] theorem State.setAmc_sr (c : MixIse) : (s.setAmc c).sr = s.sr := rfl
@[simp] theorem State.setAmc_iv (c : MixIse) : (s.setAmc c).iv = s.iv := rfl
@[simp] theorem State.setAmc_ie (c : MixIse) : (s.setAmc c).ie = s.ie := rfl
@[simp] theorem State.setAmc_pcs (c : MixIse) : (s.setAmc c).pcs = s.pcs := rfl
@[simp] theorem State.setAmc_srs (c : MixIse) : (s.setAmc c).srs = s.srs := rfl
@[simp] theorem State.setAmc_shadowA (c : MixIse) : (s.setAmc c).shadowA = s.shadowA := rfl
@[simp] theorem State.setAmc_shadowR (c : MixIse) : (s.setAmc c).shadowR = s.shadowR := rfl
@[simp] theorem State.setAmc_isr (c : MixIse) : (s.setAmc c).isr = s.isr := rfl
@[simp] theorem State.setAmc_run (c : MixIse) : (s.setAmc c).run = s.run := rfl
@[simp] theorem State.setAmc_sbus (c : MixIse) : (s.setAmc c).sbus = s.sbus := rfl
@[simp] theorem State.setAmc_amc (c : MixIse) : (s.setAmc c).amc = c := rfl
@[simp] theorem State.setAmc_aic (c : MixIse) : (s.setAmc c).aic = s.aic := rfl
@[simp] theorem State.setAmc_swd (c : MixIse) : (s.setAmc c).swd = s.swd := rfl
@[simp] theorem State.setAmc_gsp (c : MixIse) : (s.setAmc c).gsp = s.gsp := rfl
@[simp] theorem State.setAmc_gip (c : MixIse) : (s.setAmc c).gip = s.gip := rfl
@[simp] theorem State.setAmc_pram (c : MixIse) : (s.setAmc c).pram = s.pram := rfl
@[simp] theorem State.setAmc_dram (c : MixIse) : (s.setAmc c).dram = s.dram := rfl
@[simp] theorem State.setAmc_dma (c : MixIse) : (s.setAmc c).dma = s.dma := rfl
@[simp] theorem State.setAmc_busTaken (c : MixIse) : (s.setAmc c).busTaken = s.busTaken := rfl
@[simp] theorem State.setAmc_ibus (c : MixIse) : (s.setAmc c).ibus = s.ibus := rfl
@[simp] theorem State.setAmc_inputs (c : MixIse) : (s.setAmc c).inputs = s.inputs := rfl
@[simp] theorem State.setAmc_events (c : MixIse) : (s.setAmc c).events = s.events := rfl
@[simp] theorem State.setAmc_params (c : MixIse) : (s.setAmc c).params = s.params := rfl
@[simp] theorem State.setAmc_tick (c : MixIse) : (s.setAmc c).tick = s.tick := rfl
@[simp] theorem State.setAmc_reg (c : MixIse) (y : RegNum) : (s.setAmc c).reg y = s.reg y := rfl
@[simp] theorem State.setAmc_pair (c : MixIse) (i : PairIdx) : (s.setAmc c).pair i = s.pair i := rfl
@[simp] theorem State.setAmc_vector (c : MixIse) (j : IntNum) : (s.setAmc c).vector j = s.vector j := rfl
@[simp] theorem State.setAmc_inDram (c : MixIse) (x : Nat) : (s.setAmc c).inDram x = s.inDram x := rfl
@[simp] theorem State.setAmc_inPram (c : MixIse) (x : Nat) : (s.setAmc c).inPram x = s.inPram x := rfl
@[simp] theorem State.setAmc_dmaClaims (c : MixIse) (x : Nat) : (s.setAmc c).dmaClaims x = s.dmaClaims x := rfl
@[simp] theorem State.setAmc_claimed (c : MixIse) (x : Nat) : (s.setAmc c).claimed x = s.claimed x := rfl
@[simp] theorem State.setAmc_answersRead (c : MixIse) (x : Nat) : (s.setAmc c).answersRead x = s.answersRead x := rfl
@[simp] theorem State.setAmc_dmaBars (c : MixIse) : (s.setAmc c).dmaBars = s.dmaBars := rfl
@[simp] theorem State.setAmc_busBusy (c : MixIse) : (s.setAmc c).busBusy = s.busBusy := rfl

/-! setAic -/

@[simp] theorem State.setAic_regs (c : MixIse) : (s.setAic c).regs = s.regs := rfl
@[simp] theorem State.setAic_pc (c : MixIse) : (s.setAic c).pc = s.pc := rfl
@[simp] theorem State.setAic_sp (c : MixIse) : (s.setAic c).sp = s.sp := rfl
@[simp] theorem State.setAic_sr (c : MixIse) : (s.setAic c).sr = s.sr := rfl
@[simp] theorem State.setAic_iv (c : MixIse) : (s.setAic c).iv = s.iv := rfl
@[simp] theorem State.setAic_ie (c : MixIse) : (s.setAic c).ie = s.ie := rfl
@[simp] theorem State.setAic_pcs (c : MixIse) : (s.setAic c).pcs = s.pcs := rfl
@[simp] theorem State.setAic_srs (c : MixIse) : (s.setAic c).srs = s.srs := rfl
@[simp] theorem State.setAic_shadowA (c : MixIse) : (s.setAic c).shadowA = s.shadowA := rfl
@[simp] theorem State.setAic_shadowR (c : MixIse) : (s.setAic c).shadowR = s.shadowR := rfl
@[simp] theorem State.setAic_isr (c : MixIse) : (s.setAic c).isr = s.isr := rfl
@[simp] theorem State.setAic_run (c : MixIse) : (s.setAic c).run = s.run := rfl
@[simp] theorem State.setAic_sbus (c : MixIse) : (s.setAic c).sbus = s.sbus := rfl
@[simp] theorem State.setAic_amc (c : MixIse) : (s.setAic c).amc = s.amc := rfl
@[simp] theorem State.setAic_aic (c : MixIse) : (s.setAic c).aic = c := rfl
@[simp] theorem State.setAic_swd (c : MixIse) : (s.setAic c).swd = s.swd := rfl
@[simp] theorem State.setAic_gsp (c : MixIse) : (s.setAic c).gsp = s.gsp := rfl
@[simp] theorem State.setAic_gip (c : MixIse) : (s.setAic c).gip = s.gip := rfl
@[simp] theorem State.setAic_pram (c : MixIse) : (s.setAic c).pram = s.pram := rfl
@[simp] theorem State.setAic_dram (c : MixIse) : (s.setAic c).dram = s.dram := rfl
@[simp] theorem State.setAic_dma (c : MixIse) : (s.setAic c).dma = s.dma := rfl
@[simp] theorem State.setAic_busTaken (c : MixIse) : (s.setAic c).busTaken = s.busTaken := rfl
@[simp] theorem State.setAic_ibus (c : MixIse) : (s.setAic c).ibus = s.ibus := rfl
@[simp] theorem State.setAic_inputs (c : MixIse) : (s.setAic c).inputs = s.inputs := rfl
@[simp] theorem State.setAic_events (c : MixIse) : (s.setAic c).events = s.events := rfl
@[simp] theorem State.setAic_params (c : MixIse) : (s.setAic c).params = s.params := rfl
@[simp] theorem State.setAic_tick (c : MixIse) : (s.setAic c).tick = s.tick := rfl
@[simp] theorem State.setAic_reg (c : MixIse) (y : RegNum) : (s.setAic c).reg y = s.reg y := rfl
@[simp] theorem State.setAic_pair (c : MixIse) (i : PairIdx) : (s.setAic c).pair i = s.pair i := rfl
@[simp] theorem State.setAic_vector (c : MixIse) (j : IntNum) : (s.setAic c).vector j = s.vector j := rfl
@[simp] theorem State.setAic_inDram (c : MixIse) (x : Nat) : (s.setAic c).inDram x = s.inDram x := rfl
@[simp] theorem State.setAic_inPram (c : MixIse) (x : Nat) : (s.setAic c).inPram x = s.inPram x := rfl
@[simp] theorem State.setAic_dmaClaims (c : MixIse) (x : Nat) : (s.setAic c).dmaClaims x = s.dmaClaims x := rfl
@[simp] theorem State.setAic_claimed (c : MixIse) (x : Nat) : (s.setAic c).claimed x = s.claimed x := rfl
@[simp] theorem State.setAic_answersRead (c : MixIse) (x : Nat) : (s.setAic c).answersRead x = s.answersRead x := rfl
@[simp] theorem State.setAic_dmaBars (c : MixIse) : (s.setAic c).dmaBars = s.dmaBars := rfl
@[simp] theorem State.setAic_busBusy (c : MixIse) : (s.setAic c).busBusy = s.busBusy := rfl

/-! setSwd -/

@[simp] theorem State.setSwd_regs (c : RotIse) : (s.setSwd c).regs = s.regs := rfl
@[simp] theorem State.setSwd_pc (c : RotIse) : (s.setSwd c).pc = s.pc := rfl
@[simp] theorem State.setSwd_sp (c : RotIse) : (s.setSwd c).sp = s.sp := rfl
@[simp] theorem State.setSwd_sr (c : RotIse) : (s.setSwd c).sr = s.sr := rfl
@[simp] theorem State.setSwd_iv (c : RotIse) : (s.setSwd c).iv = s.iv := rfl
@[simp] theorem State.setSwd_ie (c : RotIse) : (s.setSwd c).ie = s.ie := rfl
@[simp] theorem State.setSwd_pcs (c : RotIse) : (s.setSwd c).pcs = s.pcs := rfl
@[simp] theorem State.setSwd_srs (c : RotIse) : (s.setSwd c).srs = s.srs := rfl
@[simp] theorem State.setSwd_shadowA (c : RotIse) : (s.setSwd c).shadowA = s.shadowA := rfl
@[simp] theorem State.setSwd_shadowR (c : RotIse) : (s.setSwd c).shadowR = s.shadowR := rfl
@[simp] theorem State.setSwd_isr (c : RotIse) : (s.setSwd c).isr = s.isr := rfl
@[simp] theorem State.setSwd_run (c : RotIse) : (s.setSwd c).run = s.run := rfl
@[simp] theorem State.setSwd_sbus (c : RotIse) : (s.setSwd c).sbus = s.sbus := rfl
@[simp] theorem State.setSwd_amc (c : RotIse) : (s.setSwd c).amc = s.amc := rfl
@[simp] theorem State.setSwd_aic (c : RotIse) : (s.setSwd c).aic = s.aic := rfl
@[simp] theorem State.setSwd_swd (c : RotIse) : (s.setSwd c).swd = c := rfl
@[simp] theorem State.setSwd_gsp (c : RotIse) : (s.setSwd c).gsp = s.gsp := rfl
@[simp] theorem State.setSwd_gip (c : RotIse) : (s.setSwd c).gip = s.gip := rfl
@[simp] theorem State.setSwd_pram (c : RotIse) : (s.setSwd c).pram = s.pram := rfl
@[simp] theorem State.setSwd_dram (c : RotIse) : (s.setSwd c).dram = s.dram := rfl
@[simp] theorem State.setSwd_dma (c : RotIse) : (s.setSwd c).dma = s.dma := rfl
@[simp] theorem State.setSwd_busTaken (c : RotIse) : (s.setSwd c).busTaken = s.busTaken := rfl
@[simp] theorem State.setSwd_ibus (c : RotIse) : (s.setSwd c).ibus = s.ibus := rfl
@[simp] theorem State.setSwd_inputs (c : RotIse) : (s.setSwd c).inputs = s.inputs := rfl
@[simp] theorem State.setSwd_events (c : RotIse) : (s.setSwd c).events = s.events := rfl
@[simp] theorem State.setSwd_params (c : RotIse) : (s.setSwd c).params = s.params := rfl
@[simp] theorem State.setSwd_tick (c : RotIse) : (s.setSwd c).tick = s.tick := rfl
@[simp] theorem State.setSwd_reg (c : RotIse) (y : RegNum) : (s.setSwd c).reg y = s.reg y := rfl
@[simp] theorem State.setSwd_pair (c : RotIse) (i : PairIdx) : (s.setSwd c).pair i = s.pair i := rfl
@[simp] theorem State.setSwd_vector (c : RotIse) (j : IntNum) : (s.setSwd c).vector j = s.vector j := rfl
@[simp] theorem State.setSwd_inDram (c : RotIse) (x : Nat) : (s.setSwd c).inDram x = s.inDram x := rfl
@[simp] theorem State.setSwd_inPram (c : RotIse) (x : Nat) : (s.setSwd c).inPram x = s.inPram x := rfl
@[simp] theorem State.setSwd_dmaClaims (c : RotIse) (x : Nat) : (s.setSwd c).dmaClaims x = s.dmaClaims x := rfl
@[simp] theorem State.setSwd_claimed (c : RotIse) (x : Nat) : (s.setSwd c).claimed x = s.claimed x := rfl
@[simp] theorem State.setSwd_answersRead (c : RotIse) (x : Nat) : (s.setSwd c).answersRead x = s.answersRead x := rfl
@[simp] theorem State.setSwd_dmaBars (c : RotIse) : (s.setSwd c).dmaBars = s.dmaBars := rfl
@[simp] theorem State.setSwd_busBusy (c : RotIse) : (s.setSwd c).busBusy = s.busBusy := rfl

/-! setGsp -/

@[simp] theorem State.setGsp_regs (c : GiftIse) : (s.setGsp c).regs = s.regs := rfl
@[simp] theorem State.setGsp_pc (c : GiftIse) : (s.setGsp c).pc = s.pc := rfl
@[simp] theorem State.setGsp_sp (c : GiftIse) : (s.setGsp c).sp = s.sp := rfl
@[simp] theorem State.setGsp_sr (c : GiftIse) : (s.setGsp c).sr = s.sr := rfl
@[simp] theorem State.setGsp_iv (c : GiftIse) : (s.setGsp c).iv = s.iv := rfl
@[simp] theorem State.setGsp_ie (c : GiftIse) : (s.setGsp c).ie = s.ie := rfl
@[simp] theorem State.setGsp_pcs (c : GiftIse) : (s.setGsp c).pcs = s.pcs := rfl
@[simp] theorem State.setGsp_srs (c : GiftIse) : (s.setGsp c).srs = s.srs := rfl
@[simp] theorem State.setGsp_shadowA (c : GiftIse) : (s.setGsp c).shadowA = s.shadowA := rfl
@[simp] theorem State.setGsp_shadowR (c : GiftIse) : (s.setGsp c).shadowR = s.shadowR := rfl
@[simp] theorem State.setGsp_isr (c : GiftIse) : (s.setGsp c).isr = s.isr := rfl
@[simp] theorem State.setGsp_run (c : GiftIse) : (s.setGsp c).run = s.run := rfl
@[simp] theorem State.setGsp_sbus (c : GiftIse) : (s.setGsp c).sbus = s.sbus := rfl
@[simp] theorem State.setGsp_amc (c : GiftIse) : (s.setGsp c).amc = s.amc := rfl
@[simp] theorem State.setGsp_aic (c : GiftIse) : (s.setGsp c).aic = s.aic := rfl
@[simp] theorem State.setGsp_swd (c : GiftIse) : (s.setGsp c).swd = s.swd := rfl
@[simp] theorem State.setGsp_gsp (c : GiftIse) : (s.setGsp c).gsp = c := rfl
@[simp] theorem State.setGsp_gip (c : GiftIse) : (s.setGsp c).gip = s.gip := rfl
@[simp] theorem State.setGsp_pram (c : GiftIse) : (s.setGsp c).pram = s.pram := rfl
@[simp] theorem State.setGsp_dram (c : GiftIse) : (s.setGsp c).dram = s.dram := rfl
@[simp] theorem State.setGsp_dma (c : GiftIse) : (s.setGsp c).dma = s.dma := rfl
@[simp] theorem State.setGsp_busTaken (c : GiftIse) : (s.setGsp c).busTaken = s.busTaken := rfl
@[simp] theorem State.setGsp_ibus (c : GiftIse) : (s.setGsp c).ibus = s.ibus := rfl
@[simp] theorem State.setGsp_inputs (c : GiftIse) : (s.setGsp c).inputs = s.inputs := rfl
@[simp] theorem State.setGsp_events (c : GiftIse) : (s.setGsp c).events = s.events := rfl
@[simp] theorem State.setGsp_params (c : GiftIse) : (s.setGsp c).params = s.params := rfl
@[simp] theorem State.setGsp_tick (c : GiftIse) : (s.setGsp c).tick = s.tick := rfl
@[simp] theorem State.setGsp_reg (c : GiftIse) (y : RegNum) : (s.setGsp c).reg y = s.reg y := rfl
@[simp] theorem State.setGsp_pair (c : GiftIse) (i : PairIdx) : (s.setGsp c).pair i = s.pair i := rfl
@[simp] theorem State.setGsp_vector (c : GiftIse) (j : IntNum) : (s.setGsp c).vector j = s.vector j := rfl
@[simp] theorem State.setGsp_inDram (c : GiftIse) (x : Nat) : (s.setGsp c).inDram x = s.inDram x := rfl
@[simp] theorem State.setGsp_inPram (c : GiftIse) (x : Nat) : (s.setGsp c).inPram x = s.inPram x := rfl
@[simp] theorem State.setGsp_dmaClaims (c : GiftIse) (x : Nat) : (s.setGsp c).dmaClaims x = s.dmaClaims x := rfl
@[simp] theorem State.setGsp_claimed (c : GiftIse) (x : Nat) : (s.setGsp c).claimed x = s.claimed x := rfl
@[simp] theorem State.setGsp_answersRead (c : GiftIse) (x : Nat) : (s.setGsp c).answersRead x = s.answersRead x := rfl
@[simp] theorem State.setGsp_dmaBars (c : GiftIse) : (s.setGsp c).dmaBars = s.dmaBars := rfl
@[simp] theorem State.setGsp_busBusy (c : GiftIse) : (s.setGsp c).busBusy = s.busBusy := rfl

/-! setGip -/

@[simp] theorem State.setGip_regs (c : GiftIse) : (s.setGip c).regs = s.regs := rfl
@[simp] theorem State.setGip_pc (c : GiftIse) : (s.setGip c).pc = s.pc := rfl
@[simp] theorem State.setGip_sp (c : GiftIse) : (s.setGip c).sp = s.sp := rfl
@[simp] theorem State.setGip_sr (c : GiftIse) : (s.setGip c).sr = s.sr := rfl
@[simp] theorem State.setGip_iv (c : GiftIse) : (s.setGip c).iv = s.iv := rfl
@[simp] theorem State.setGip_ie (c : GiftIse) : (s.setGip c).ie = s.ie := rfl
@[simp] theorem State.setGip_pcs (c : GiftIse) : (s.setGip c).pcs = s.pcs := rfl
@[simp] theorem State.setGip_srs (c : GiftIse) : (s.setGip c).srs = s.srs := rfl
@[simp] theorem State.setGip_shadowA (c : GiftIse) : (s.setGip c).shadowA = s.shadowA := rfl
@[simp] theorem State.setGip_shadowR (c : GiftIse) : (s.setGip c).shadowR = s.shadowR := rfl
@[simp] theorem State.setGip_isr (c : GiftIse) : (s.setGip c).isr = s.isr := rfl
@[simp] theorem State.setGip_run (c : GiftIse) : (s.setGip c).run = s.run := rfl
@[simp] theorem State.setGip_sbus (c : GiftIse) : (s.setGip c).sbus = s.sbus := rfl
@[simp] theorem State.setGip_amc (c : GiftIse) : (s.setGip c).amc = s.amc := rfl
@[simp] theorem State.setGip_aic (c : GiftIse) : (s.setGip c).aic = s.aic := rfl
@[simp] theorem State.setGip_swd (c : GiftIse) : (s.setGip c).swd = s.swd := rfl
@[simp] theorem State.setGip_gsp (c : GiftIse) : (s.setGip c).gsp = s.gsp := rfl
@[simp] theorem State.setGip_gip (c : GiftIse) : (s.setGip c).gip = c := rfl
@[simp] theorem State.setGip_pram (c : GiftIse) : (s.setGip c).pram = s.pram := rfl
@[simp] theorem State.setGip_dram (c : GiftIse) : (s.setGip c).dram = s.dram := rfl
@[simp] theorem State.setGip_dma (c : GiftIse) : (s.setGip c).dma = s.dma := rfl
@[simp] theorem State.setGip_busTaken (c : GiftIse) : (s.setGip c).busTaken = s.busTaken := rfl
@[simp] theorem State.setGip_ibus (c : GiftIse) : (s.setGip c).ibus = s.ibus := rfl
@[simp] theorem State.setGip_inputs (c : GiftIse) : (s.setGip c).inputs = s.inputs := rfl
@[simp] theorem State.setGip_events (c : GiftIse) : (s.setGip c).events = s.events := rfl
@[simp] theorem State.setGip_params (c : GiftIse) : (s.setGip c).params = s.params := rfl
@[simp] theorem State.setGip_tick (c : GiftIse) : (s.setGip c).tick = s.tick := rfl
@[simp] theorem State.setGip_reg (c : GiftIse) (y : RegNum) : (s.setGip c).reg y = s.reg y := rfl
@[simp] theorem State.setGip_pair (c : GiftIse) (i : PairIdx) : (s.setGip c).pair i = s.pair i := rfl
@[simp] theorem State.setGip_vector (c : GiftIse) (j : IntNum) : (s.setGip c).vector j = s.vector j := rfl
@[simp] theorem State.setGip_inDram (c : GiftIse) (x : Nat) : (s.setGip c).inDram x = s.inDram x := rfl
@[simp] theorem State.setGip_inPram (c : GiftIse) (x : Nat) : (s.setGip c).inPram x = s.inPram x := rfl
@[simp] theorem State.setGip_dmaClaims (c : GiftIse) (x : Nat) : (s.setGip c).dmaClaims x = s.dmaClaims x := rfl
@[simp] theorem State.setGip_claimed (c : GiftIse) (x : Nat) : (s.setGip c).claimed x = s.claimed x := rfl
@[simp] theorem State.setGip_answersRead (c : GiftIse) (x : Nat) : (s.setGip c).answersRead x = s.answersRead x := rfl
@[simp] theorem State.setGip_dmaBars (c : GiftIse) : (s.setGip c).dmaBars = s.dmaBars := rfl
@[simp] theorem State.setGip_busBusy (c : GiftIse) : (s.setGip c).busBusy = s.busBusy := rfl

/-! emit -/

@[simp] theorem State.emit_regs (e : Event) : (s.emit e).regs = s.regs := rfl
@[simp] theorem State.emit_pc (e : Event) : (s.emit e).pc = s.pc := rfl
@[simp] theorem State.emit_sp (e : Event) : (s.emit e).sp = s.sp := rfl
@[simp] theorem State.emit_sr (e : Event) : (s.emit e).sr = s.sr := rfl
@[simp] theorem State.emit_iv (e : Event) : (s.emit e).iv = s.iv := rfl
@[simp] theorem State.emit_ie (e : Event) : (s.emit e).ie = s.ie := rfl
@[simp] theorem State.emit_pcs (e : Event) : (s.emit e).pcs = s.pcs := rfl
@[simp] theorem State.emit_srs (e : Event) : (s.emit e).srs = s.srs := rfl
@[simp] theorem State.emit_shadowA (e : Event) : (s.emit e).shadowA = s.shadowA := rfl
@[simp] theorem State.emit_shadowR (e : Event) : (s.emit e).shadowR = s.shadowR := rfl
@[simp] theorem State.emit_isr (e : Event) : (s.emit e).isr = s.isr := rfl
@[simp] theorem State.emit_run (e : Event) : (s.emit e).run = s.run := rfl
@[simp] theorem State.emit_sbus (e : Event) : (s.emit e).sbus = s.sbus := rfl
@[simp] theorem State.emit_amc (e : Event) : (s.emit e).amc = s.amc := rfl
@[simp] theorem State.emit_aic (e : Event) : (s.emit e).aic = s.aic := rfl
@[simp] theorem State.emit_swd (e : Event) : (s.emit e).swd = s.swd := rfl
@[simp] theorem State.emit_gsp (e : Event) : (s.emit e).gsp = s.gsp := rfl
@[simp] theorem State.emit_gip (e : Event) : (s.emit e).gip = s.gip := rfl
@[simp] theorem State.emit_pram (e : Event) : (s.emit e).pram = s.pram := rfl
@[simp] theorem State.emit_dram (e : Event) : (s.emit e).dram = s.dram := rfl
@[simp] theorem State.emit_dma (e : Event) : (s.emit e).dma = s.dma := rfl
@[simp] theorem State.emit_busTaken (e : Event) : (s.emit e).busTaken = s.busTaken := rfl
@[simp] theorem State.emit_ibus (e : Event) : (s.emit e).ibus = s.ibus := rfl
@[simp] theorem State.emit_inputs (e : Event) : (s.emit e).inputs = s.inputs := rfl
@[simp] theorem State.emit_events (e : Event) : (s.emit e).events = s.events ++ [e] := rfl
@[simp] theorem State.emit_params (e : Event) : (s.emit e).params = s.params := rfl
@[simp] theorem State.emit_tick (e : Event) : (s.emit e).tick = s.tick := rfl
@[simp] theorem State.emit_reg (e : Event) (y : RegNum) : (s.emit e).reg y = s.reg y := rfl
@[simp] theorem State.emit_pair (e : Event) (i : PairIdx) : (s.emit e).pair i = s.pair i := rfl
@[simp] theorem State.emit_vector (e : Event) (j : IntNum) : (s.emit e).vector j = s.vector j := rfl
@[simp] theorem State.emit_inDram (e : Event) (x : Nat) : (s.emit e).inDram x = s.inDram x := rfl
@[simp] theorem State.emit_inPram (e : Event) (x : Nat) : (s.emit e).inPram x = s.inPram x := rfl
@[simp] theorem State.emit_dmaClaims (e : Event) (x : Nat) : (s.emit e).dmaClaims x = s.dmaClaims x := rfl
@[simp] theorem State.emit_claimed (e : Event) (x : Nat) : (s.emit e).claimed x = s.claimed x := rfl
@[simp] theorem State.emit_answersRead (e : Event) (x : Nat) : (s.emit e).answersRead x = s.answersRead x := rfl
@[simp] theorem State.emit_dmaBars (e : Event) : (s.emit e).dmaBars = s.dmaBars := rfl
@[simp] theorem State.emit_busBusy (e : Event) : (s.emit e).busBusy = s.busBusy := rfl

/-! bump -/

@[simp] theorem State.bump_regs : s.bump.regs = s.regs := rfl
@[simp] theorem State.bump_pc : s.bump.pc = s.pc := rfl
@[simp] theorem State.bump_sp : s.bump.sp = s.sp := rfl
@[simp] theorem State.bump_sr : s.bump.sr = s.sr := rfl
@[simp] theorem State.bump_iv : s.bump.iv = s.iv := rfl
@[simp] theorem State.bump_ie : s.bump.ie = s.ie := rfl
@[simp] theorem State.bump_pcs : s.bump.pcs = s.pcs := rfl
@[simp] theorem State.bump_srs : s.bump.srs = s.srs := rfl
@[simp] theorem State.bump_shadowA : s.bump.shadowA = s.shadowA := rfl
@[simp] theorem State.bump_shadowR : s.bump.shadowR = s.shadowR := rfl
@[simp] theorem State.bump_isr : s.bump.isr = s.isr := rfl
@[simp] theorem State.bump_run : s.bump.run = s.run := rfl
@[simp] theorem State.bump_sbus : s.bump.sbus = s.sbus := rfl
@[simp] theorem State.bump_amc : s.bump.amc = s.amc := rfl
@[simp] theorem State.bump_aic : s.bump.aic = s.aic := rfl
@[simp] theorem State.bump_swd : s.bump.swd = s.swd := rfl
@[simp] theorem State.bump_gsp : s.bump.gsp = s.gsp := rfl
@[simp] theorem State.bump_gip : s.bump.gip = s.gip := rfl
@[simp] theorem State.bump_pram : s.bump.pram = s.pram := rfl
@[simp] theorem State.bump_dram : s.bump.dram = s.dram := rfl
@[simp] theorem State.bump_dma : s.bump.dma = s.dma := rfl
@[simp] theorem State.bump_busTaken : s.bump.busTaken = s.busTaken := rfl
@[simp] theorem State.bump_ibus : s.bump.ibus = s.ibus := rfl
@[simp] theorem State.bump_inputs : s.bump.inputs = s.inputs := rfl
@[simp] theorem State.bump_events : s.bump.events = s.events := rfl
@[simp] theorem State.bump_params : s.bump.params = s.params := rfl
@[simp] theorem State.bump_tick : s.bump.tick = s.tick + 1 := rfl
@[simp] theorem State.bump_reg (y : RegNum) : s.bump.reg y = s.reg y := rfl
@[simp] theorem State.bump_pair (i : PairIdx) : s.bump.pair i = s.pair i := rfl
@[simp] theorem State.bump_vector (j : IntNum) : s.bump.vector j = s.vector j := rfl
@[simp] theorem State.bump_inDram (x : Nat) : s.bump.inDram x = s.inDram x := rfl
@[simp] theorem State.bump_inPram (x : Nat) : s.bump.inPram x = s.inPram x := rfl
@[simp] theorem State.bump_dmaClaims (x : Nat) : s.bump.dmaClaims x = s.dmaClaims x := rfl
@[simp] theorem State.bump_claimed (x : Nat) : s.bump.claimed x = s.claimed x := rfl
@[simp] theorem State.bump_answersRead (x : Nat) : s.bump.answersRead x = s.answersRead x := rfl
@[simp] theorem State.bump_dmaBars : s.bump.dmaBars = s.dmaBars := rfl
@[simp] theorem State.bump_busBusy : s.bump.busBusy = s.busBusy := rfl

/-! takeInterrupt -/

@[simp] theorem State.takeInterrupt_regs (k : IntNum) : (s.takeInterrupt k).regs = s.regs := rfl
@[simp] theorem State.takeInterrupt_pc (k : IntNum) : (s.takeInterrupt k).pc = entryAddr (s.vector k) := rfl
@[simp] theorem State.takeInterrupt_sp (k : IntNum) : (s.takeInterrupt k).sp = s.sp := rfl
@[simp] theorem State.takeInterrupt_sr (k : IntNum) : (s.takeInterrupt k).sr = s.sr := rfl
@[simp] theorem State.takeInterrupt_iv (k : IntNum) : (s.takeInterrupt k).iv = s.iv := rfl
@[simp] theorem State.takeInterrupt_ie (k : IntNum) : (s.takeInterrupt k).ie = s.ie := rfl
@[simp] theorem State.takeInterrupt_pcs (k : IntNum) : (s.takeInterrupt k).pcs = s.pc := rfl
@[simp] theorem State.takeInterrupt_srs (k : IntNum) : (s.takeInterrupt k).srs = s.sr := rfl
@[simp] theorem State.takeInterrupt_isr (k : IntNum) : (s.takeInterrupt k).isr = true := rfl
@[simp] theorem State.takeInterrupt_run (k : IntNum) : (s.takeInterrupt k).run = .running := rfl
@[simp] theorem State.takeInterrupt_sbus (k : IntNum) : (s.takeInterrupt k).sbus = s.sbus := rfl
@[simp] theorem State.takeInterrupt_amc (k : IntNum) : (s.takeInterrupt k).amc = s.amc := rfl
@[simp] theorem State.takeInterrupt_aic (k : IntNum) : (s.takeInterrupt k).aic = s.aic := rfl
@[simp] theorem State.takeInterrupt_swd (k : IntNum) : (s.takeInterrupt k).swd = s.swd := rfl
@[simp] theorem State.takeInterrupt_gsp (k : IntNum) : (s.takeInterrupt k).gsp = s.gsp := rfl
@[simp] theorem State.takeInterrupt_gip (k : IntNum) : (s.takeInterrupt k).gip = s.gip := rfl
@[simp] theorem State.takeInterrupt_pram (k : IntNum) : (s.takeInterrupt k).pram = s.pram := rfl
@[simp] theorem State.takeInterrupt_dram (k : IntNum) : (s.takeInterrupt k).dram = s.dram := rfl
@[simp] theorem State.takeInterrupt_dma (k : IntNum) : (s.takeInterrupt k).dma = dmaEntered s k := rfl
@[simp] theorem State.takeInterrupt_busTaken (k : IntNum) : (s.takeInterrupt k).busTaken = s.busTaken := rfl
@[simp] theorem State.takeInterrupt_ibus (k : IntNum) : (s.takeInterrupt k).ibus = s.ibus := rfl
@[simp] theorem State.takeInterrupt_inputs (k : IntNum) : (s.takeInterrupt k).inputs = s.inputs := rfl
@[simp] theorem State.takeInterrupt_events (k : IntNum) : (s.takeInterrupt k).events = s.events := rfl
@[simp] theorem State.takeInterrupt_params (k : IntNum) : (s.takeInterrupt k).params = s.params := rfl
@[simp] theorem State.takeInterrupt_tick (k : IntNum) : (s.takeInterrupt k).tick = s.tick := rfl
@[simp] theorem State.takeInterrupt_reg (k : IntNum) (y : RegNum) : (s.takeInterrupt k).reg y = s.reg y := rfl
@[simp] theorem State.takeInterrupt_pair (k : IntNum) (i : PairIdx) : (s.takeInterrupt k).pair i = s.pair i := rfl
@[simp] theorem State.takeInterrupt_vector (k : IntNum) (j : IntNum) : (s.takeInterrupt k).vector j = s.vector j := rfl
@[simp] theorem State.takeInterrupt_inDram (k : IntNum) (x : Nat) : (s.takeInterrupt k).inDram x = s.inDram x := rfl
@[simp] theorem State.takeInterrupt_inPram (k : IntNum) (x : Nat) : (s.takeInterrupt k).inPram x = s.inPram x := rfl
@[simp] theorem State.takeInterrupt_dmaClaims (k : IntNum) (x : Nat) : (s.takeInterrupt k).dmaClaims x = s.dmaClaims x := rfl
@[simp] theorem State.takeInterrupt_claimed (k : IntNum) (x : Nat) : (s.takeInterrupt k).claimed x = s.claimed x := rfl
@[simp] theorem State.takeInterrupt_answersRead (k : IntNum) (x : Nat) : (s.takeInterrupt k).answersRead x = s.answersRead x := rfl

/-! returnFromInterrupt -/

@[simp] theorem State.returnFromInterrupt_regs : s.returnFromInterrupt.regs = s.restoredRegs := rfl
@[simp] theorem State.returnFromInterrupt_pc : s.returnFromInterrupt.pc = s.pcs := rfl
@[simp] theorem State.returnFromInterrupt_sp : s.returnFromInterrupt.sp = s.sp := rfl
@[simp] theorem State.returnFromInterrupt_sr : s.returnFromInterrupt.sr = s.srs := rfl
@[simp] theorem State.returnFromInterrupt_iv : s.returnFromInterrupt.iv = s.iv := rfl
@[simp] theorem State.returnFromInterrupt_ie : s.returnFromInterrupt.ie = s.ie := rfl
@[simp] theorem State.returnFromInterrupt_pcs : s.returnFromInterrupt.pcs = s.pcs := rfl
@[simp] theorem State.returnFromInterrupt_srs : s.returnFromInterrupt.srs = s.srs := rfl
@[simp] theorem State.returnFromInterrupt_shadowA : s.returnFromInterrupt.shadowA = s.shadowA := rfl
@[simp] theorem State.returnFromInterrupt_shadowR : s.returnFromInterrupt.shadowR = s.shadowR := rfl
@[simp] theorem State.returnFromInterrupt_isr : s.returnFromInterrupt.isr = false := rfl
@[simp] theorem State.returnFromInterrupt_run : s.returnFromInterrupt.run = s.run := rfl
@[simp] theorem State.returnFromInterrupt_sbus : s.returnFromInterrupt.sbus = s.sbus := rfl
@[simp] theorem State.returnFromInterrupt_amc : s.returnFromInterrupt.amc = s.amc := rfl
@[simp] theorem State.returnFromInterrupt_aic : s.returnFromInterrupt.aic = s.aic := rfl
@[simp] theorem State.returnFromInterrupt_swd : s.returnFromInterrupt.swd = s.swd := rfl
@[simp] theorem State.returnFromInterrupt_gsp : s.returnFromInterrupt.gsp = s.gsp := rfl
@[simp] theorem State.returnFromInterrupt_gip : s.returnFromInterrupt.gip = s.gip := rfl
@[simp] theorem State.returnFromInterrupt_pram : s.returnFromInterrupt.pram = s.pram := rfl
@[simp] theorem State.returnFromInterrupt_dram : s.returnFromInterrupt.dram = s.dram := rfl
@[simp] theorem State.returnFromInterrupt_dma : s.returnFromInterrupt.dma = s.dma := rfl
@[simp] theorem State.returnFromInterrupt_busTaken : s.returnFromInterrupt.busTaken = s.busTaken := rfl
@[simp] theorem State.returnFromInterrupt_ibus : s.returnFromInterrupt.ibus = s.ibus := rfl
@[simp] theorem State.returnFromInterrupt_inputs : s.returnFromInterrupt.inputs = s.inputs := rfl
@[simp] theorem State.returnFromInterrupt_events : s.returnFromInterrupt.events = s.events := rfl
@[simp] theorem State.returnFromInterrupt_params : s.returnFromInterrupt.params = s.params := rfl
@[simp] theorem State.returnFromInterrupt_tick : s.returnFromInterrupt.tick = s.tick := rfl
@[simp] theorem State.returnFromInterrupt_vector (j : IntNum) : s.returnFromInterrupt.vector j = s.vector j := rfl
@[simp] theorem State.returnFromInterrupt_inDram (x : Nat) : s.returnFromInterrupt.inDram x = s.inDram x := rfl
@[simp] theorem State.returnFromInterrupt_inPram (x : Nat) : s.returnFromInterrupt.inPram x = s.inPram x := rfl
@[simp] theorem State.returnFromInterrupt_dmaClaims (x : Nat) : s.returnFromInterrupt.dmaClaims x = s.dmaClaims x := rfl
@[simp] theorem State.returnFromInterrupt_claimed (x : Nat) : s.returnFromInterrupt.claimed x = s.claimed x := rfl
@[simp] theorem State.returnFromInterrupt_answersRead (x : Nat) : s.returnFromInterrupt.answersRead x = s.answersRead x := rfl
@[simp] theorem State.returnFromInterrupt_dmaBars : s.returnFromInterrupt.dmaBars = s.dmaBars := rfl
@[simp] theorem State.returnFromInterrupt_busBusy : s.returnFromInterrupt.busBusy = s.busBusy := rfl

/-! storeDram -/

@[simp] theorem State.storeDram_regs (a : Nat) (v : Byte) : (s.storeDram a v).regs = s.regs := by
  unfold State.storeDram
  split <;> rfl

@[simp] theorem State.storeDram_pc (a : Nat) (v : Byte) : (s.storeDram a v).pc = s.pc := by
  unfold State.storeDram
  split <;> rfl

@[simp] theorem State.storeDram_sp (a : Nat) (v : Byte) : (s.storeDram a v).sp = s.sp := by
  unfold State.storeDram
  split <;> rfl

@[simp] theorem State.storeDram_sr (a : Nat) (v : Byte) : (s.storeDram a v).sr = s.sr := by
  unfold State.storeDram
  split <;> rfl

@[simp] theorem State.storeDram_iv (a : Nat) (v : Byte) : (s.storeDram a v).iv = s.iv := by
  unfold State.storeDram
  split <;> rfl

@[simp] theorem State.storeDram_ie (a : Nat) (v : Byte) : (s.storeDram a v).ie = s.ie := by
  unfold State.storeDram
  split <;> rfl

@[simp] theorem State.storeDram_pcs (a : Nat) (v : Byte) : (s.storeDram a v).pcs = s.pcs := by
  unfold State.storeDram
  split <;> rfl

@[simp] theorem State.storeDram_srs (a : Nat) (v : Byte) : (s.storeDram a v).srs = s.srs := by
  unfold State.storeDram
  split <;> rfl

@[simp] theorem State.storeDram_shadowA (a : Nat) (v : Byte) : (s.storeDram a v).shadowA = s.shadowA := by
  unfold State.storeDram
  split <;> rfl

@[simp] theorem State.storeDram_shadowR (a : Nat) (v : Byte) : (s.storeDram a v).shadowR = s.shadowR := by
  unfold State.storeDram
  split <;> rfl

@[simp] theorem State.storeDram_isr (a : Nat) (v : Byte) : (s.storeDram a v).isr = s.isr := by
  unfold State.storeDram
  split <;> rfl

@[simp] theorem State.storeDram_run (a : Nat) (v : Byte) : (s.storeDram a v).run = s.run := by
  unfold State.storeDram
  split <;> rfl

@[simp] theorem State.storeDram_sbus (a : Nat) (v : Byte) : (s.storeDram a v).sbus = s.sbus := by
  unfold State.storeDram
  split <;> rfl

@[simp] theorem State.storeDram_amc (a : Nat) (v : Byte) : (s.storeDram a v).amc = s.amc := by
  unfold State.storeDram
  split <;> rfl

@[simp] theorem State.storeDram_aic (a : Nat) (v : Byte) : (s.storeDram a v).aic = s.aic := by
  unfold State.storeDram
  split <;> rfl

@[simp] theorem State.storeDram_swd (a : Nat) (v : Byte) : (s.storeDram a v).swd = s.swd := by
  unfold State.storeDram
  split <;> rfl

@[simp] theorem State.storeDram_gsp (a : Nat) (v : Byte) : (s.storeDram a v).gsp = s.gsp := by
  unfold State.storeDram
  split <;> rfl

@[simp] theorem State.storeDram_gip (a : Nat) (v : Byte) : (s.storeDram a v).gip = s.gip := by
  unfold State.storeDram
  split <;> rfl

@[simp] theorem State.storeDram_pram (a : Nat) (v : Byte) : (s.storeDram a v).pram = s.pram := by
  unfold State.storeDram
  split <;> rfl

@[simp] theorem State.storeDram_dma (a : Nat) (v : Byte) : (s.storeDram a v).dma = s.dma := by
  unfold State.storeDram
  split <;> rfl

@[simp] theorem State.storeDram_busTaken (a : Nat) (v : Byte) : (s.storeDram a v).busTaken = s.busTaken := by
  unfold State.storeDram
  split <;> rfl

@[simp] theorem State.storeDram_ibus (a : Nat) (v : Byte) : (s.storeDram a v).ibus = s.ibus := by
  unfold State.storeDram
  split <;> rfl

@[simp] theorem State.storeDram_inputs (a : Nat) (v : Byte) : (s.storeDram a v).inputs = s.inputs := by
  unfold State.storeDram
  split <;> rfl

@[simp] theorem State.storeDram_events (a : Nat) (v : Byte) : (s.storeDram a v).events = s.events := by
  unfold State.storeDram
  split <;> rfl

@[simp] theorem State.storeDram_params (a : Nat) (v : Byte) : (s.storeDram a v).params = s.params := by
  unfold State.storeDram
  split <;> rfl

@[simp] theorem State.storeDram_tick (a : Nat) (v : Byte) : (s.storeDram a v).tick = s.tick := by
  unfold State.storeDram
  split <;> rfl

@[simp] theorem State.storeDram_reg (a : Nat) (v : Byte) (n : RegNum) : (s.storeDram a v).reg n = s.reg n := by
  unfold State.storeDram
  split <;> rfl

@[simp] theorem State.storeDram_pair (a : Nat) (v : Byte) (i : PairIdx) : (s.storeDram a v).pair i = s.pair i := by
  unfold State.storeDram
  split <;> rfl

@[simp] theorem State.storeDram_vector (a : Nat) (v : Byte) (j : IntNum) : (s.storeDram a v).vector j = s.vector j := by
  unfold State.storeDram
  split <;> rfl

@[simp] theorem State.storeDram_inDram (a : Nat) (v : Byte) (x : Nat) : (s.storeDram a v).inDram x = s.inDram x := by
  unfold State.storeDram
  split <;> rfl

@[simp] theorem State.storeDram_inPram (a : Nat) (v : Byte) (x : Nat) : (s.storeDram a v).inPram x = s.inPram x := by
  unfold State.storeDram
  split <;> rfl

@[simp] theorem State.storeDram_dmaClaims (a : Nat) (v : Byte) (x : Nat) : (s.storeDram a v).dmaClaims x = s.dmaClaims x := by
  unfold State.storeDram
  split <;> rfl

@[simp] theorem State.storeDram_claimed (a : Nat) (v : Byte) (x : Nat) : (s.storeDram a v).claimed x = s.claimed x := by
  unfold State.storeDram
  split <;> rfl

@[simp] theorem State.storeDram_answersRead (a : Nat) (v : Byte) (x : Nat) : (s.storeDram a v).answersRead x = s.answersRead x := by
  unfold State.storeDram
  split <;> rfl

@[simp] theorem State.storeDram_dmaBars (a : Nat) (v : Byte) : (s.storeDram a v).dmaBars = s.dmaBars := by
  unfold State.storeDram
  split <;> rfl

@[simp] theorem State.storeDram_busBusy (a : Nat) (v : Byte) : (s.storeDram a v).busBusy = s.busBusy := by
  unfold State.storeDram
  split <;> rfl

end Sys2Proof.Machine
end

