-- ==== Sys2Proof/Laws/Operands.lean ====
section
/-! SUPPORT. The operand forms: what a register, a pair or a vector reads as after a write, and the nine-bit sums and differences
as numbers. -/

namespace Sys2Proof.Machine

/-- A register read after a register write. -/
theorem State.reg_setReg (s : State) (n : RegNum) (v : Byte) (m : RegNum) :
    (s.setReg n v).reg m = if m = n then v else s.reg m := by
  simp only [State.reg, State.setReg_regs, Vector.getElem_set]
  by_cases h : m = n
  · simp [h]
  · have : n.toNat ≠ m.toNat := fun e => h (BitVec.eq_of_toNat_eq e.symm)
    simp [h, this]

@[simp] theorem State.reg_setReg_same (s : State) (n : RegNum) (v : Byte) : (s.setReg n v).reg n = v := by
  simp [State.reg_setReg]

theorem State.reg_setReg_ne (s : State) (n : RegNum) (v : Byte) (m : RegNum) (h : m ≠ n) :
    (s.setReg n v).reg m = s.reg m := by
  simp [State.reg_setReg, h]

/-- Two states with the same registers, one by one, have the same registers. -/
theorem State.regs_ext (s t : State) (h : ∀ n, t.reg n = s.reg n) : t.regs = s.regs := by
  apply Vector.ext
  intro i hi
  have := h (BitVec.ofNat 4 i)
  simpa [State.reg, Nat.mod_eq_of_lt hi] using this

/-- A vector register read after a write of one. -/
theorem State.vector_setVector (s : State) (k : IntNum) (v : Byte) (j : IntNum) :
    (s.setVector k v).vector j = if j = k then v else s.vector j := by
  simp only [State.vector, State.setVector_iv, Vector.getElem_set]
  by_cases h : j = k
  · simp [h]
  · have : k.toNat ≠ j.toNat := fun e => h (BitVec.eq_of_toNat_eq e.symm)
    simp [h, this]

/-- The numbers of a pair's halves: r_i is i, a_i is 8 + i (R20). -/
theorem rNum_toNat (i : PairIdx) : (rNum i).toNat = i.toNat := by
  revert i
  decide

theorem aNum_toNat (i : PairIdx) : (aNum i).toNat = 8 + i.toNat := by
  revert i
  decide

theorem rNum_ne_aNum (i j : PairIdx) : rNum i ≠ aNum j := by
  revert i j
  decide

theorem aNum_ne_rNum (i j : PairIdx) : aNum i ≠ rNum j := fun h => rNum_ne_aNum j i h.symm

/-- The two halves written by `setPair`. -/
theorem State.reg_setPair (s : State) (i : PairIdx) (v : BitVec 16) (n : RegNum) :
    (s.setPair i v).reg n =
      if n = rNum i then v.extractLsb' 0 8 else if n = aNum i then v.extractLsb' 8 8 else s.reg n := by
  simp only [State.setPair, State.reg_setReg]

/-- A pair reads back as it was written. -/
theorem State.pair_setPair (s : State) (i : PairIdx) (v : BitVec 16) : (s.setPair i v).pair i = v := by
  simp only [State.pair, State.reg_setPair, if_neg (aNum_ne_rNum i i), if_true]
  ext j hj
  simp only [BitVec.getElem_append, BitVec.getElem_extractLsb']
  split
  · simp [BitVec.getLsbD_eq_getElem hj]
  · rw [← BitVec.getLsbD_eq_getElem hj]
    congr 1
    omega

/-- The step of lpb and spb: r_i only. -/
theorem State.reg_stepPair (s : State) (i : PairIdx) (n : RegNum) :
    (s.stepPair i).reg n = if n = rNum i then s.reg (rNum i) + 1 else s.reg n := by
  simp only [State.stepPair, State.reg_setReg]

theorem vec8_getElem (f : Fin 8 → Byte) (i : Nat) (h : i < 8) : (vec8 f)[i] = f ⟨i, h⟩ := by
  rcases i with _ | _ | _ | _ | _ | _ | _ | _ | i <;> first | rfl | omega

theorem vec16_getElem (f : Fin 16 → Byte) (i : Nat) (h : i < 16) : (vec16 f)[i] = f ⟨i, h⟩ := by
  rcases i with _ | _ | _ | _ | _ | _ | _ | _ | _ | _ | _ | _ | _ | _ | _ | _ | i <;> first | rfl | omega

/-! The nine-bit values as numbers (R131). -/

theorem sum9_toNat (a b : Byte) (c : Bool) : (sum9 a b c).toNat = a.toNat + b.toNat + c.toNat := by
  have ha := a.isLt
  have hb := b.isLt
  cases c <;> simp [sum9, BitVec.toNat_add] <;> omega

theorem diff9_toNat (a b : Byte) (c : Bool) :
    (diff9 a b c).toNat = (a.toNat + 512 - b.toNat - c.toNat) % 512 := by
  have ha := a.isLt
  have hb := b.isLt
  cases c <;> simp [diff9, BitVec.toNat_sub] <;> omega

theorem result8_toNat (t : BitVec 9) : (result8 t).toNat = t.toNat % 256 := by
  simp [result8]

theorem carry9_eq (t : BitVec 9) : carry9 t = decide (256 ≤ t.toNat) := by
  revert t
  decide

/-- The top bit of a byte, and whether it is zero, by its value (R131). -/
theorem byte_top (b : Byte) : b[7] = decide (128 ≤ b.toNat) := by
  revert b
  decide

theorem byte_beq_zero (b : Byte) : (b == 0#8) = decide (b.toNat = 0) := by
  revert b
  decide

/-- The operand of adi and sbi as a number, 1..16 (R87). -/
theorem adiAmount_toNat (im : BitVec 4) : (adiAmount im).toNat = im.toNat + 1 := by
  revert im
  decide

/-- The status register survives its trip through a byte. -/
@[simp] theorem Sr.ofByte_toByte (f : Sr) : Sr.ofByte f.toByte = f := by
  obtain ⟨u3, u2, u1, u0, x, c, n, z⟩ := f
  revert u3 u2 u1 u0 x c n z
  decide

/-- The byte of the status register, flag by flag (R25). -/
theorem Sr.toByte_eq (f : Sr) : f.toByte = BitVec.ofBoolListBE [f.u3, f.u2, f.u1, f.u0, f.x, f.c, f.n, f.z] := by
  obtain ⟨u3, u2, u1, u0, x, c, n, z⟩ := f
  revert u3 u2 u1 u0 x c n z
  decide

@[simp] theorem Sr.toByte_ofByte (b : Byte) : (Sr.ofByte b).toByte = b := by
  revert b
  decide

end Sys2Proof.Machine
end

