-- ==== Sys2Proof/Laws/Ise.lean ====
section
/-! SUPPORT. The bytes of an ISE's buffers, and the multiplication of the column functions. -/

namespace Sys2Proof.Machine

/-- A byte of a buffer after a byte is written (R170 to R172). -/
theorem getByte_putByte {w : Nat} (v : BitVec w) (k j : Nat) (b : Byte) (h : 8 * k + 8 ≤ w) :
    getByte (putByte v k b) j = if j = k then b else getByte v j := by
  ext i hi
  have ff : ∀ n, (255#8).getLsbD n = decide (n < 8) := by
    intro n
    by_cases h : n < 8
    · interval_cases n <;> rfl
    · simp [h]
      exact BitVec.getLsbD_of_ge _ _ (by omega)
  simp only [getByte, putByte, BitVec.getElem_extractLsb', BitVec.getLsbD_or, BitVec.getLsbD_and, BitVec.getLsbD_not,
    BitVec.getLsbD_shiftLeft, BitVec.getLsbD_setWidth, ff]
  by_cases hjk : j = k
  · subst hjk
    simp [show 8 * j + i < w by omega, hi, show i < w by omega]
  · simp only [if_neg hjk]
    by_cases h3 : 8 * j + i < w
    · by_cases h2 : 8 * j + i < 8 * k
      · simp [h2, h3, BitVec.getElem_extractLsb']
      · have : ¬ (8 * j + i - 8 * k < 8) := by omega
        simp [h2, h3, this]
        intro _ hb
        rw [BitVec.getLsbD_of_ge b _ (by omega)] at hb
        exact absurd hb (by simp)
    · simp [h3, BitVec.getElem_extractLsb']
      rw [BitVec.getLsbD_of_ge _ _ (by omega)]

/-- Two blocks with the same sixteen bytes are the same. -/
theorem eq_of_getByte (u v : BitVec 128) (h : ∀ j, j < 16 → getByte u j = getByte v j) : u = v := by
  apply BitVec.eq_of_getLsbD_eq
  intro i hi
  have := congrArg (fun b : Byte => b.getLsbD (i % 8)) (h (i / 8) (by omega))
  simpa [getByte, Nat.mod_lt, Nat.div_add_mod] using this

/-! The multiplication is linear (R174). -/

theorem xor_left_comm_bits {w} (a b c : BitVec w) : a ^^^ (b ^^^ c) = b ^^^ (a ^^^ c) := by
  rw [← BitVec.xor_assoc, BitVec.xor_comm a b, BitVec.xor_assoc]

theorem shiftLeft_xor_byte (a b : Byte) (n : Nat) : (a ^^^ b) <<< n = a <<< n ^^^ b <<< n := by
  ext i hi
  by_cases h : i < n <;> simp [h]

theorem gfDouble_xor (a b : Byte) : gfDouble (a ^^^ b) = gfDouble a ^^^ gfDouble b := by
  unfold gfDouble
  rw [shiftLeft_xor_byte, BitVec.getLsbD_xor]
  rcases a.getLsbD 7 <;> rcases b.getLsbD 7 <;> simp [BitVec.xor_assoc, BitVec.xor_comm, xor_left_comm_bits]

theorem gfMul_xor (c : BitVec 4) (a b : Byte) : gfMul c (a ^^^ b) = gfMul c a ^^^ gfMul c b := by
  unfold gfMul
  simp only [gfDouble_xor]
  rcases c.getLsbD 0 <;> rcases c.getLsbD 1 <;> rcases c.getLsbD 2 <;> rcases c.getLsbD 3 <;>
    simp [BitVec.xor_assoc, BitVec.xor_comm, xor_left_comm_bits]

end Sys2Proof.Machine
end

