-- ==== Sys2Proof/Laws/Memory.lean ====
section
/-! SUPPORT. The laws of a memory: what a byte reads as after a write, an erasure, a copy, and that every operation keeps the
canonical form. -/

namespace Sys2Proof.Machine

@[simp] theorem Memory.read_nil (a : Nat) : Memory.read [] a = none := rfl

theorem Memory.read_cons (b : Nat) (w : Byte) (m : Memory) (a : Nat) :
    Memory.read ((b, w) :: m) a = if a = b then some w else Memory.read m a := rfl

/-- A read after a write: the value written at that address, the old byte at any other. -/
theorem Memory.read_write (m : Memory) (a : Nat) (v : Byte) (x : Nat) :
    (m.write a v).read x = if x = a then some v else m.read x := by
  induction m with
  | nil => simp [Memory.write, Memory.read_cons]
  | cons c m ih =>
    obtain ⟨b, w⟩ := c
    simp only [Memory.write]
    split
    · simp only [Memory.read_cons]
    · split
      · subst_vars
        simp only [Memory.read_cons]
        split <;> rfl
      · simp only [Memory.read_cons, ih]
        split <;> split <;> simp_all

/-- A read after an erasure: no value at that address, the old byte at any other. -/
theorem Memory.read_erase (m : Memory) (a x : Nat) :
    (m.erase a).read x = if x = a then none else m.read x := by
  induction m with
  | nil => simp [Memory.erase]
  | cons c m ih =>
    obtain ⟨b, w⟩ := c
    simp only [Memory.erase] at ih ⊢
    by_cases h : b = a
    · subst h
      simp only [List.filter_cons, bne_self_eq_false, Bool.false_eq_true, if_false, ih, Memory.read_cons]
      split <;> rfl
    · simp only [List.filter_cons, bne_iff_ne, ne_eq, h, not_false_eq_true, if_true, Memory.read_cons, ih]
      split <;> split <;> simp_all

/-- A read after `put`. -/
theorem Memory.read_put (m : Memory) (a : Nat) (v : Option Byte) (x : Nat) :
    (m.put a v).read x = if x = a then v else m.read x := by
  cases v with
  | none => exact Memory.read_erase m a x
  | some v => exact Memory.read_write m a v x

/-- A read after a copy: the source's byte inside the destination block, the old byte outside it. -/
theorem Memory.read_copy (m : Memory) (src dst n x : Nat) :
    (m.copy src dst n).read x = if dst ≤ x ∧ x < dst + n then m.read (src + (x - dst)) else m.read x := by
  induction n with
  | zero => simp [Memory.copy]
  | succ n ih =>
    simp only [Memory.copy, Memory.read_put, ih]
    by_cases h : x = dst + n
    · subst h
      simp
    · have : (dst ≤ x ∧ x < dst + (n + 1)) ↔ (dst ≤ x ∧ x < dst + n) := by omega
      simp [h, this]

/-! The canonical form. -/

theorem Memory.wf_iff (m : Memory) : m.wf = true ↔ m.Pairwise (fun c d => c.1 < d.1) := by
  simp [Memory.wf]

theorem Memory.below_iff (n : Nat) (m : Memory) : Memory.below n m = true ↔ ∀ c ∈ m, c.1 < n := by
  simp [Memory.below]

/-- The addresses of a memory after a write are the old ones and the written one. -/
theorem Memory.mem_write (m : Memory) (a : Nat) (v : Byte) (c : Host.Cell) (h : c ∈ m.write a v) : c.1 = a ∨ c ∈ m := by
  induction m with
  | nil => simp_all [Memory.write]
  | cons d m ih =>
    obtain ⟨b, w⟩ := d
    simp only [Memory.write] at h
    split at h
    · simp only [List.mem_cons] at h ⊢
      rcases h with rfl | h
      · exact .inl rfl
      · exact .inr h
    · split at h
      · simp only [List.mem_cons] at h ⊢
        rcases h with rfl | h
        · exact .inl rfl
        · exact .inr (.inr h)
      · simp only [List.mem_cons] at h ⊢
        rcases h with rfl | h
        · exact .inr (.inl rfl)
        · rcases ih h with h | h
          · exact .inl h
          · exact .inr (.inr h)

/-- A write keeps the canonical form. -/
theorem Memory.wf_write (m : Memory) (a : Nat) (v : Byte) (h : m.wf = true) : (m.write a v).wf = true := by
  rw [Memory.wf_iff] at h ⊢
  induction m with
  | nil => simp [Memory.write]
  | cons d m ih =>
    obtain ⟨b, w⟩ := d
    rw [List.pairwise_cons] at h
    obtain ⟨hb, hm⟩ := h
    simp only [Memory.write]
    split
    · rename_i hlt
      refine List.pairwise_cons.2 ⟨?_, List.pairwise_cons.2 ⟨hb, hm⟩⟩
      intro c hc
      rcases List.mem_cons.1 hc with rfl | hc
      · exact hlt
      · exact Nat.lt_trans hlt (hb c hc)
    · split
      · rename_i heq
        subst heq
        exact List.pairwise_cons.2 ⟨hb, hm⟩
      · rename_i hnlt hne
        refine List.pairwise_cons.2 ⟨?_, ih hm⟩
        intro c hc
        rcases Memory.mem_write m a v c hc with h | h
        · simp only [h]
          omega
        · exact hb c h

/-- An erasure keeps the canonical form. -/
theorem Memory.wf_erase (m : Memory) (a : Nat) (h : m.wf = true) : (m.erase a).wf = true := by
  rw [Memory.wf_iff] at h ⊢
  exact h.filter _

theorem Memory.wf_put (m : Memory) (a : Nat) (v : Option Byte) (h : m.wf = true) : (m.put a v).wf = true := by
  cases v with
  | none => exact Memory.wf_erase m a h
  | some v => exact Memory.wf_write m a v h

/-- A copy keeps the canonical form. -/
theorem Memory.wf_copy (m : Memory) (src dst n : Nat) (h : m.wf = true) : (m.copy src dst n).wf = true := by
  induction n with
  | zero => exact h
  | succ n ih => exact Memory.wf_put _ _ _ ih

/-- A write inside the memory keeps every listed address inside it. -/
theorem Memory.below_write (n : Nat) (m : Memory) (a : Nat) (v : Byte) (h : Memory.below n m = true) (ha : a < n) :
    Memory.below n (m.write a v) = true := by
  rw [Memory.below_iff] at h ⊢
  intro c hc
  rcases Memory.mem_write m a v c hc with hc | hc
  · omega
  · exact h c hc

theorem Memory.below_erase (n : Nat) (m : Memory) (a : Nat) (h : Memory.below n m = true) :
    Memory.below n (m.erase a) = true := by
  rw [Memory.below_iff] at h ⊢
  exact fun c hc => h c (List.mem_of_mem_filter hc)

/-- A copy to a block inside the memory keeps every listed address inside it. -/
theorem Memory.below_copy (b : Nat) (m : Memory) (src dst n : Nat) (h : Memory.below b m = true) (hd : dst + n ≤ b) :
    Memory.below b (m.copy src dst n) = true := by
  induction n with
  | zero => exact h
  | succ n ih =>
    simp only [Memory.copy]
    have ih := ih (by omega)
    cases m.read (src + n) with
    | none => exact Memory.below_erase _ _ _ ih
    | some v => exact Memory.below_write _ _ _ _ ih (by omega)

end Sys2Proof.Machine
end

