-- ==== Sys2Proof/Laws/Ops.lean ====
section
/-! SUPPORT. One lemma per shared operation that says all it can do: if it answers a next state, which one. -/

namespace Sys2Proof.Machine

/-- A sequence answers a next value exactly when both its parts do. -/
theorem andThen_eq_next {α β : Type} (o : Answer α) (f : α → Answer β) (y : β) :
    andThen o f = .next y ↔ ∃ x, o = .next x ∧ f x = .next y := by
  cases o <;> simp [andThen]

@[simp] theorem andThen_next {α β : Type} (x : α) (f : α → Answer β) : andThen (.next x) f = f x := rfl

@[simp] theorem andThen_fault {α β : Type} (r : Fault) (f : α → Answer β) :
    andThen (Host.Outcome.fault r : Answer α) f = .fault r := rfl

@[simp] theorem andThen_refused {α β : Type} (r : Refusal) (f : α → Answer β) :
    andThen (Host.Outcome.refused r : Answer α) f = .refused r := rfl

/-! Reads. -/

/-- A read goes through exactly when the bus gives a value (R54). -/
theorem State.memRead_eq_next (s : State) (a : DataAddr) (r : Byte × State) :
    s.memRead a = .next r ↔ s.readValue a = some r.1 ∧ r.2 = s.afterRead a := by
  obtain ⟨v, t⟩ := r
  unfold State.memRead State.readValue
  split
  · simp
  · split
    · simp only [Host.Outcome.next.injEq, Prod.mk.injEq, Option.some.injEq]
      exact and_congr_right fun _ => eq_comm
    · split
      · cases h : s.dram.read a.toNat <;> simp [eq_comm]
      · simp

/-! What a read leaves as it was: everything but the events and the tick. -/

@[simp] theorem State.afterRead_regs (s : State) (a : DataAddr) : (s.afterRead a).regs = s.regs := rfl
@[simp] theorem State.afterRead_pc (s : State) (a : DataAddr) : (s.afterRead a).pc = s.pc := rfl
@[simp] theorem State.afterRead_sp (s : State) (a : DataAddr) : (s.afterRead a).sp = s.sp := rfl
@[simp] theorem State.afterRead_sr (s : State) (a : DataAddr) : (s.afterRead a).sr = s.sr := rfl
@[simp] theorem State.afterRead_iv (s : State) (a : DataAddr) : (s.afterRead a).iv = s.iv := rfl
@[simp] theorem State.afterRead_ie (s : State) (a : DataAddr) : (s.afterRead a).ie = s.ie := rfl
@[simp] theorem State.afterRead_pcs (s : State) (a : DataAddr) : (s.afterRead a).pcs = s.pcs := rfl
@[simp] theorem State.afterRead_srs (s : State) (a : DataAddr) : (s.afterRead a).srs = s.srs := rfl
@[simp] theorem State.afterRead_shadowA (s : State) (a : DataAddr) : (s.afterRead a).shadowA = s.shadowA := rfl
@[simp] theorem State.afterRead_shadowR (s : State) (a : DataAddr) : (s.afterRead a).shadowR = s.shadowR := rfl
@[simp] theorem State.afterRead_isr (s : State) (a : DataAddr) : (s.afterRead a).isr = s.isr := rfl
@[simp] theorem State.afterRead_run (s : State) (a : DataAddr) : (s.afterRead a).run = s.run := rfl
@[simp] theorem State.afterRead_sbus (s : State) (a : DataAddr) : (s.afterRead a).sbus = s.sbus := rfl
@[simp] theorem State.afterRead_amc (s : State) (a : DataAddr) : (s.afterRead a).amc = s.amc := rfl
@[simp] theorem State.afterRead_aic (s : State) (a : DataAddr) : (s.afterRead a).aic = s.aic := rfl
@[simp] theorem State.afterRead_swd (s : State) (a : DataAddr) : (s.afterRead a).swd = s.swd := rfl
@[simp] theorem State.afterRead_gsp (s : State) (a : DataAddr) : (s.afterRead a).gsp = s.gsp := rfl
@[simp] theorem State.afterRead_gip (s : State) (a : DataAddr) : (s.afterRead a).gip = s.gip := rfl
@[simp] theorem State.afterRead_pram (s : State) (a : DataAddr) : (s.afterRead a).pram = s.pram := rfl
@[simp] theorem State.afterRead_dram (s : State) (a : DataAddr) : (s.afterRead a).dram = s.dram := rfl
@[simp] theorem State.afterRead_dma (s : State) (a : DataAddr) : (s.afterRead a).dma = s.dma := rfl
@[simp] theorem State.afterRead_busTaken (s : State) (a : DataAddr) : (s.afterRead a).busTaken = s.busTaken := rfl
@[simp] theorem State.afterRead_ibus (s : State) (a : DataAddr) : (s.afterRead a).ibus = s.ibus := rfl
@[simp] theorem State.afterRead_inputs (s : State) (a : DataAddr) : (s.afterRead a).inputs = s.inputs := rfl
@[simp] theorem State.afterRead_params (s : State) (a : DataAddr) : (s.afterRead a).params = s.params := rfl
@[simp] theorem State.afterRead_reg (s : State) (a : DataAddr) (n : RegNum) : (s.afterRead a).reg n = s.reg n := rfl
@[simp] theorem State.afterRead_events (s : State) (a : DataAddr) : (s.afterRead a).events = s.events ++ [.dataRead a] := rfl
@[simp] theorem State.afterRead_answersRead (s : State) (a : DataAddr) (x : Nat) :
    (s.afterRead a).answersRead x = s.answersRead x := rfl

theorem State.memRead_of_readValue (s : State) (a : DataAddr) (v : Byte) (h : s.readValue a = some v) :
    s.memRead a = .next (v, s.afterRead a) :=
  (State.memRead_eq_next s a (v, s.afterRead a)).2 ⟨h, rfl⟩

/-- A read the bus gives no value for is a fault. -/
theorem State.memRead_of_none (s : State) (a : DataAddr) (h : s.readValue a = none) : isFault (s.memRead a) := by
  unfold State.readValue at h
  unfold State.memRead
  split
  · exact ⟨_, rfl⟩
  · rename_i hb
    split
    · rename_i ha
      simp [hb, ha] at h
    · rename_i ha
      split
      · rename_i hr
        simp only [hb, ha, hr, if_true, Bool.false_eq_true, if_false] at h
        simp only [h]
        exact ⟨_, rfl⟩
      · exact ⟨_, rfl⟩

/-- Which fault a read ends in where nothing answers (R54): beyond DRAM, or a cell nothing has written. -/
theorem State.memRead_stop (s : State) (a : DataAddr) (f : Fault) (hb : s.busBusy = false)
    (hr : s.answersRead a.toNat = false)
    (hf : s.params.dramSize ≤ a.toNat ∧ f = .dataAccessOutOfRange
      ∨ a.toNat < s.params.dramSize ∧ s.dram.read a.toNat = none ∧ f = .readOfUnwrittenState) :
    s.memRead a = .fault f := by
  rcases hf with ⟨h1, rfl⟩ | ⟨h1, h2, rfl⟩
  · have : s.inDram a.toNat = false := by simp [State.inDram, h1]
    simp [State.memRead, hb, hr, this]
  · have : s.inDram a.toNat = true := by simp [State.inDram, h1]
    simp [State.memRead, hb, hr, this, h2]

@[simp] theorem State.afterRead_busBusy (s : State) (a : DataAddr) : (s.afterRead a).busBusy = s.busBusy := rfl

@[simp] theorem State.afterRead_inDram (s : State) (a : DataAddr) (x : Nat) : (s.afterRead a).inDram x = s.inDram x := rfl

/-! Stores. -/

/-- What the DMA controller does with a store leaves everything but itself alone. -/
theorem dmaSees_eq_next (s : State) (a : Nat) (v : Byte) (t : State) (h : dmaSees s a v = .next t) :
    ∃ d, t = s.setDma d := by
  unfold dmaSees dmaCommand at h
  split at h
  · cases h
    exact ⟨s.dma, rfl⟩
  · split at h
    · split at h
      · split at h
        · cases h
          exact ⟨_, rfl⟩
        · cases h
      · cases h
    all_goals
      repeat' split at h
      all_goals
        cases h
        exact ⟨_, rfl⟩

/-- A store outside the DMA controller's registers leaves it alone. -/
theorem dmaSees_of_not_claims (s : State) (a : Nat) (v : Byte) (h : s.dmaClaims a = false) :
    dmaSees s a v = .next s := by
  unfold dmaSees
  cases hp : s.params.dma with
  | none => rfl
  | some p =>
    have h : ¬ (dmaBase ≤ a ∧ a < dmaBase + 6) := by simpa [State.dmaClaims, hp] using h
    show (if a = dmaBase then _ else _) = _
    rw [if_neg (by omega), if_neg (by omega), if_neg (by omega), if_neg (by omega), if_neg (by omega), if_neg (by omega)]

/-- A store that goes through (R55): the bus was free and the address had a place; DRAM takes the byte, the event is
recorded, and nothing else but the DMA controller may change. -/
theorem State.memWrite_eq_next (s : State) (a : DataAddr) (v : Byte) (t : State) (h : s.memWrite a v = .next t) :
    s.busBusy = false ∧ (s.inDram a.toNat = true ∨ s.claimed a.toNat = true)
      ∧ ∃ d, t = ((s.storeDram a.toNat v).emit (.dataWrite a v)).setDma d := by
  unfold State.memWrite at h
  split at h
  · cases h
  · split at h
    · rename_i hb hr
      obtain ⟨d, hd⟩ := dmaSees_eq_next _ _ _ _ h
      refine ⟨by simpa using hb, ?_, d, hd⟩
      simpa [Bool.or_eq_true] using hr
    · cases h

/-- A store to a place that is no register of the DMA controller. -/
theorem State.memWrite_of_canWrite (s : State) (a : DataAddr) (v : Byte) (h : s.canWrite a = true) :
    s.memWrite a v = .next ((s.storeDram a.toNat v).emit (.dataWrite a v)) := by
  simp only [State.canWrite, Bool.and_eq_true, Bool.not_eq_true', Bool.or_eq_true] at h
  obtain ⟨⟨hb, hr⟩, hc⟩ := h
  unfold State.memWrite
  rw [if_neg (by simp [hb]), if_pos (by simpa [Bool.or_eq_true] using hr)]
  apply dmaSees_of_not_claims
  simp only [State.storeDram]
  split <;> simpa using hc

/-- The cells after a store. -/
theorem State.storeDram_read (s : State) (a : DataAddr) (v : Byte) (x : Nat) :
    (s.storeDram a.toNat v).dram.read x = s.cellAfter a v x := by
  simp only [State.storeDram, State.cellAfter]
  split
  · simp [Memory.read_write, *]
  · simp [*]

/-- A store to DRAM changes data memory only. -/
theorem State.storeDram_eq (s : State) (a : Nat) (v : Byte) :
    s.storeDram a v = s.setDram (if s.inDram a then s.dram.write a v else s.dram) := by
  simp only [State.storeDram]
  split <;> rfl

/-- A store to DRAM keeps everywhere a write may go. -/
@[simp] theorem State.canWrite_setDram (s : State) (m : Memory) (b : DataAddr) : (s.setDram m).canWrite b = s.canWrite b := rfl

@[simp] theorem State.canWrite_emit (s : State) (e : Event) (b : DataAddr) : (s.emit e).canWrite b = s.canWrite b := rfl

@[simp] theorem State.canWrite_setSp (s : State) (v b : DataAddr) : (s.setSp v).canWrite b = s.canWrite b := rfl

@[simp] theorem State.canWrite_storeDram (s : State) (a : Nat) (v : Byte) (b : DataAddr) :
    (s.storeDram a v).canWrite b = s.canWrite b := by
  rw [State.storeDram_eq, State.canWrite_setDram]

/-- What the DMA controller does with a store does not depend on sp. -/
theorem dmaSees_setSp (s : State) (sp : DataAddr) (a : Nat) (v : Byte) :
    dmaSees (s.setSp sp) a v = andThen (dmaSees s a v) fun t => .next (t.setSp sp) := by
  have hl : ∀ p, dmaBlocksLegal (s.setSp sp) p = dmaBlocksLegal s p := fun _ => rfl
  unfold dmaSees dmaCommand
  simp only [State.setSp_params, State.setSp_dma, hl]
  split
  · rfl
  · repeat' split
    all_goals rfl

/-- Nor does a write. -/
theorem State.memWrite_setSp (s : State) (sp a : DataAddr) (v : Byte) :
    (s.setSp sp).memWrite a v = andThen (s.memWrite a v) fun t => .next (t.setSp sp) := by
  have e : ((s.setSp sp).storeDram a.toNat v).emit (.dataWrite a v)
      = (((s.storeDram a.toNat v).emit (.dataWrite a v)).setSp sp) := by
    simp only [State.storeDram_eq]
    rfl
  by_cases hb : s.busBusy = true
  · simp [State.memWrite, hb]
  · by_cases hr : s.inDram a.toNat = true ∨ s.claimed a.toNat = true
    · simp [State.memWrite, hb, hr, e, dmaSees_setSp]
    · simp [State.memWrite, hb, hr]

/-! The DMA controller's acknowledge, and writes from outside. -/

@[simp] theorem Dma.acked_irq (d : Dma) : d.acked.irq = false := rfl
@[simp] theorem Dma.acked_src (d : Dma) : d.acked.src = d.src := rfl
@[simp] theorem Dma.acked_dst (d : Dma) : d.acked.dst = d.dst := rfl
@[simp] theorem Dma.acked_count (d : Dma) : d.acked.count = d.count := rfl

/-- An acknowledge leaves a transfer under way and ends everything else (R255; log 29). -/
@[simp] theorem Dma.acked_phase (d : Dma) : d.acked.phase = if d.phase = .busy then .busy else .idle := by
  cases h : d.phase <;> simp [Dma.acked, h]

/-- What the acknowledge decoder makes of a byte (R241): the controller acknowledged, or nothing. -/
theorem dmaAck_eq (s : State) (v : Byte) :
    dmaAck s v = s.setDma s.dma.acked ∧ (∃ p, s.params.dma = some p ∧ v.toNat = 0x10 + p.line.toNat)
      ∨ dmaAck s v = s ∧ ∀ p, s.params.dma = some p → v.toNat ≠ 0x10 + p.line.toNat := by
  unfold dmaAck
  split
  · rename_i hp
    exact .inr ⟨rfl, by simp [hp]⟩
  · rename_i p hp
    have hv : v = ackBase + p.line.setWidth 8 ↔ v.toNat = 0x10 + p.line.toNat := by
      have := p.line.isLt
      have h16 : ackBase.toNat = 16 := rfl
      rw [← BitVec.toNat_inj, BitVec.toNat_add, BitVec.toNat_setWidth, h16]
      omega
    split
    · rename_i h
      exact .inl ⟨rfl, p, hp, hv.1 (by simpa using h)⟩
    · rename_i h
      refine .inr ⟨rfl, ?_⟩
      rintro p' h'
      cases hp.symm.trans h'
      exact fun e => h (by simpa using hv.2 e)

/-- A write from outside goes through exactly with extdaddrsel asserted, at a cell that exists, while no transfer bars the bus
(R67, R273); it changes data memory only. -/
theorem externalWrite_eq_next (a : DataAddr) (v : Byte) (s t : State) :
    externalWrite a v s = .next t ↔ s.busTaken = true ∧ s.inDram a.toNat = true ∧ s.dmaBars = false
      ∧ t = s.setDram (s.dram.write a.toNat v) := by
  unfold externalWrite
  split
  · rename_i h
    simp only [Bool.and_eq_true, Bool.not_eq_true'] at h
    simp [h, eq_comm]
  · rename_i h
    simp only [Bool.and_eq_true, Bool.not_eq_true'] at h
    simp only [reduceCtorEq, false_iff]
    exact fun g => h ⟨⟨g.1, g.2.1⟩, g.2.2.1⟩

/-! The stack. -/

/-- A push that goes through (R58). -/
theorem State.push_eq_next (s : State) (v : Byte) (t : State) (h : s.push v = .next t) :
    ∃ s', s.memWrite s.sp v = .next s' ∧ t = s'.setSp (s.sp - 1) := by
  obtain ⟨s', h1, h2⟩ := (andThen_eq_next _ _ _).1 h
  cases h2
  exact ⟨s', h1, rfl⟩

theorem State.push_of_canWrite (s : State) (v : Byte) (h : s.canWrite s.sp = true) :
    s.push v = .next (((s.storeDram s.sp.toNat v).emit (.dataWrite s.sp v)).setSp (s.sp - 1)) := by
  simp only [State.push, State.memWrite_of_canWrite s s.sp v h, andThen_next]

/-- A pop that goes through (R59). -/
theorem State.popByte_eq_next (s : State) (r : Byte × State) :
    s.popByte = .next r ↔
      (s.setSp (s.sp + 1)).readValue (s.sp + 1) = some r.1 ∧ r.2 = (s.setSp (s.sp + 1)).afterRead (s.sp + 1) :=
  State.memRead_eq_next _ _ _

/-- What the bus gives at an address does not depend on sp, pc, sr or the general registers. -/
@[simp] theorem State.readValue_setSp (s : State) (v a : DataAddr) : (s.setSp v).readValue a = s.readValue a := rfl

/-- A return address off the stack as a number (R195). -/
theorem returnAddr_toNat (lo hi : Byte) : (hi.extractLsb' 0 4 ++ lo).toNat = 256 * (hi.toNat % 16) + lo.toNat := by
  have h := lo.isLt
  rw [BitVec.toNat_append, ← Nat.shiftLeft_add_eq_or_of_lt h, Nat.shiftLeft_eq, BitVec.extractLsb'_toNat]
  simp only [Nat.shiftRight_zero]
  omega

/-! Interrupts. -/

/-- The lowest set bit: set, and none below it is (R234). -/
theorem lowestSet_eq_some (v : BitVec 16) (k : IntNum) :
    lowestSet v = some k ↔ v.getLsbD k.toNat = true ∧ ∀ j, j < k.toNat → v.getLsbD j = false := by
  simp only [lowestSet, Option.map_eq_some_iff]
  constructor
  · rintro ⟨j, hj, rfl⟩
    rw [List.find?_range_eq_some] at hj
    obtain ⟨hv, hlt, hmin⟩ := hj
    have hlt : j < 16 := by simpa using hlt
    have e : (BitVec.ofNat 4 j).toNat = j := by simp [Nat.mod_eq_of_lt hlt]
    rw [e]
    exact ⟨hv, fun i hi => by simpa using hmin i hi⟩
  · rintro ⟨hk, hmin⟩
    refine ⟨k.toNat, ?_, by simp⟩
    rw [List.find?_range_eq_some]
    refine ⟨hk, ?_, fun i hi => by simp [hmin i hi]⟩
    have := k.isLt
    simpa using this

theorem lowestSet_eq_none (v : BitVec 16) : lowestSet v = none ↔ v = 0 := by
  simp only [lowestSet, Option.map_eq_none_iff, List.find?_eq_none, List.mem_range]
  constructor
  · intro h
    ext i hi
    have := h i hi
    simpa [BitVec.getLsbD_eq_getElem hi] using this
  · rintro rfl
    simp

/-- The registers after a return, one by one: pairs below NS from the shadow registers, the others unchanged (R201). -/
theorem State.returnFromInterrupt_reg (s : State) (n : RegNum) :
    s.returnFromInterrupt.reg n =
      if h : n.toNat < 8 then (if n.toNat < s.params.ns then s.shadowR[n.toNat] else s.reg n)
      else (if n.toNat - 8 < s.params.ns then s.shadowA[n.toNat - 8]'(by have := n.isLt; omega) else s.reg n) := by
  simp only [State.reg, State.returnFromInterrupt_regs, State.restoredRegs, vec16_getElem]

theorem State.takeInterrupt_shadowA_get (s : State) (k : IntNum) (i : Nat) (h : i < 8) :
    (s.takeInterrupt k).shadowA[i] = if i < s.params.ns then s.regs[8 + i] else s.shadowA[i] := by
  simp only [State.takeInterrupt, vec8_getElem]

theorem State.takeInterrupt_shadowR_get (s : State) (k : IntNum) (i : Nat) (h : i < 8) :
    (s.takeInterrupt k).shadowR[i] = if i < s.params.ns then s.regs[i] else s.shadowR[i] := by
  simp only [State.takeInterrupt, vec8_getElem]

end Sys2Proof.Machine
end

