-- ==== Sys2Proof/Laws/PerInstr.lean ====
section
/-! SUPPORT. Statements made per instruction. EncodedLength: an instruction's encoding is as long as its first byte tells the
decoder (30_encoding.md R80, R95), whatever its operands. -/

namespace Sys2Proof.Laws

/-- The first byte of the encoding tells its length. -/
def EncodedLength.Statement (i : Instr) : Prop :=
  ∃ b0 rest, encode i = b0 :: rest ∧ lengthOf b0 = some (encode i).length

theorem EncodedLength.mvs (im : BitVec 12) : EncodedLength.Statement (.mvs im) :=
  ⟨_, _, rfl, by simp [lengthOf, encode, encodeI12]⟩

theorem EncodedLength.mvv (k : IntNum) (im : Byte) : EncodedLength.Statement (.mvv k im) :=
  ⟨_, _, rfl, by simp [lengthOf, encode]⟩

theorem EncodedLength.jmp (im : ProgAddr) : EncodedLength.Statement (.jmp im) :=
  ⟨_, _, rfl, by simp [lengthOf, encode, encodeI12]⟩

theorem EncodedLength.jsr (im : ProgAddr) : EncodedLength.Statement (.jsr im) :=
  ⟨_, _, rfl, by simp [lengthOf, encode, encodeI12]⟩

theorem EncodedLength.bzi (im : ProgAddr) : EncodedLength.Statement (.bzi im) :=
  ⟨_, _, rfl, by simp [lengthOf, encode, encodeI12]⟩

theorem EncodedLength.bni (im : ProgAddr) : EncodedLength.Statement (.bni im) :=
  ⟨_, _, rfl, by simp [lengthOf, encode, encodeI12]⟩

theorem EncodedLength.bci (im : ProgAddr) : EncodedLength.Statement (.bci im) :=
  ⟨_, _, rfl, by simp [lengthOf, encode, encodeI12]⟩

theorem EncodedLength.bxi (im : ProgAddr) : EncodedLength.Statement (.bxi im) :=
  ⟨_, _, rfl, by simp [lengthOf, encode, encodeI12]⟩

theorem EncodedLength.mvi (d : RegNum) (im : Byte) : EncodedLength.Statement (.mvi d im) :=
  ⟨_, _, rfl, by simp [lengthOf, encode]⟩

theorem EncodedLength.add (s d : RegNum) : EncodedLength.Statement (.add s d) :=
  ⟨_, _, rfl, rfl⟩

theorem EncodedLength.sub (s d : RegNum) : EncodedLength.Statement (.sub s d) :=
  ⟨_, _, rfl, rfl⟩

theorem EncodedLength.and (s d : RegNum) : EncodedLength.Statement (.and s d) :=
  ⟨_, _, rfl, rfl⟩

theorem EncodedLength.lor (s d : RegNum) : EncodedLength.Statement (.lor s d) :=
  ⟨_, _, rfl, rfl⟩

theorem EncodedLength.sll (s d : RegNum) : EncodedLength.Statement (.sll s d) :=
  ⟨_, _, rfl, rfl⟩

theorem EncodedLength.rol (s d : RegNum) : EncodedLength.Statement (.rol s d) :=
  ⟨_, _, rfl, rfl⟩

theorem EncodedLength.srl (s d : RegNum) : EncodedLength.Statement (.srl s d) :=
  ⟨_, _, rfl, rfl⟩

theorem EncodedLength.ror (s d : RegNum) : EncodedLength.Statement (.ror s d) :=
  ⟨_, _, rfl, rfl⟩

theorem EncodedLength.not (s d : RegNum) : EncodedLength.Statement (.not s d) :=
  ⟨_, _, rfl, rfl⟩

theorem EncodedLength.xor (s d : RegNum) : EncodedLength.Statement (.xor s d) :=
  ⟨_, _, rfl, rfl⟩

theorem EncodedLength.adc (s d : RegNum) : EncodedLength.Statement (.adc s d) :=
  ⟨_, _, rfl, rfl⟩

theorem EncodedLength.sbc (s d : RegNum) : EncodedLength.Statement (.sbc s d) :=
  ⟨_, _, rfl, rfl⟩

theorem EncodedLength.adi (im : BitVec 4) (d : RegNum) : EncodedLength.Statement (.adi im d) :=
  ⟨_, _, rfl, rfl⟩

theorem EncodedLength.sbi (im : BitVec 4) (d : RegNum) : EncodedLength.Statement (.sbi im d) :=
  ⟨_, _, rfl, rfl⟩

theorem EncodedLength.asb (s d : RegNum) : EncodedLength.Statement (.asb s d) :=
  ⟨_, _, rfl, rfl⟩

theorem EncodedLength.aib (s d : RegNum) : EncodedLength.Statement (.aib s d) :=
  ⟨_, _, rfl, rfl⟩

theorem EncodedLength.amc (s d : RegNum) : EncodedLength.Statement (.amc s d) :=
  ⟨_, _, rfl, rfl⟩

theorem EncodedLength.aic (s d : RegNum) : EncodedLength.Statement (.aic s d) :=
  ⟨_, _, rfl, rfl⟩

theorem EncodedLength.swd (s d : RegNum) : EncodedLength.Statement (.swd s d) :=
  ⟨_, _, rfl, rfl⟩

theorem EncodedLength.gsp (s d : RegNum) : EncodedLength.Statement (.gsp s d) :=
  ⟨_, _, rfl, rfl⟩

theorem EncodedLength.gip (s d : RegNum) : EncodedLength.Statement (.gip s d) :=
  ⟨_, _, rfl, rfl⟩

theorem EncodedLength.mov (s d : RegNum) : EncodedLength.Statement (.mov s d) :=
  ⟨_, _, rfl, rfl⟩

theorem EncodedLength.ldb (i : PairIdx) (d : RegNum) : EncodedLength.Statement (.ldb i d) :=
  ⟨_, _, rfl, rfl⟩

theorem EncodedLength.lpb (i : PairIdx) (d : RegNum) : EncodedLength.Statement (.lpb i d) :=
  ⟨_, _, rfl, rfl⟩

theorem EncodedLength.stb (v : RegNum) (i : PairIdx) : EncodedLength.Statement (.stb v i) :=
  ⟨_, _, rfl, rfl⟩

theorem EncodedLength.spb (v : RegNum) (i : PairIdx) : EncodedLength.Statement (.spb v i) :=
  ⟨_, _, rfl, rfl⟩

theorem EncodedLength.ret : EncodedLength.Statement .ret :=
  ⟨_, _, rfl, rfl⟩

theorem EncodedLength.str : EncodedLength.Statement .str :=
  ⟨_, _, rfl, rfl⟩

theorem EncodedLength.lsr : EncodedLength.Statement .lsr :=
  ⟨_, _, rfl, rfl⟩

theorem EncodedLength.rie (i : PairIdx) : EncodedLength.Statement (.rie i) :=
  ⟨_, _, rfl, rfl⟩

theorem EncodedLength.sie (i : PairIdx) : EncodedLength.Statement (.sie i) :=
  ⟨_, _, rfl, rfl⟩

theorem EncodedLength.hlt : EncodedLength.Statement .hlt :=
  ⟨_, _, rfl, rfl⟩

theorem EncodedLength.rti : EncodedLength.Statement .rti :=
  ⟨_, _, rfl, rfl⟩

theorem EncodedLength.sys (im : Byte) : EncodedLength.Statement (.sys im) :=
  ⟨_, _, rfl, rfl⟩

theorem EncodedLength.psh (s : RegNum) : EncodedLength.Statement (.psh s) :=
  ⟨_, _, rfl, by simp [lengthOf, encode]⟩

theorem EncodedLength.pop (d : RegNum) : EncodedLength.Statement (.pop d) :=
  ⟨_, _, rfl, by simp [lengthOf, encode]⟩

end Sys2Proof.Laws
end

