-- ==== Sys2Proof/Tests/Slice0.lean ====
section
/-! SUPPORT. Tests. Expected values are the spec's: the examples and vectors of 95_test_vectors.md, cited by section, and the
encodings of 30_encoding.md. The second half shows, for every statement with hypotheses, a state that meets them. -/

namespace Sys2Proof.Tests

-- One test after another: each waits for the kernel, and a thread for every waiting test would exhaust the memory limit.
set_option Elab.async false

open Sys2Proof.Machine

/-! Well-formedness. The operand types carry the fields' widths, so no term of Instr is ill formed (log 40); the parameters
are what a check can refuse. -/

theorem test_wellFormed_instr : (Instr.mvs 0xFFF).wellFormed = true ∧ (Instr.sbi 0xF 15).wellFormed = true := by decide

theorem test_wellFormed_params : resetParams.wf = true := by decide

theorem test_wellFormed_all_sizes : ({ resetParams with pramSize := 1, dramSize := 1, ns := 1 } : Params).wf = true := by decide

theorem test_illFormed_pram_empty : ({ resetParams with pramSize := 0 } : Params).wf = false := by decide

theorem test_illFormed_pram_large : ({ resetParams with pramSize := 4097 } : Params).wf = false := by decide

theorem test_illFormed_dram_empty : ({ resetParams with dramSize := 0 } : Params).wf = false := by decide

theorem test_illFormed_dram_large : ({ resetParams with dramSize := 65537 } : Params).wf = false := by decide

theorem test_illFormed_no_shadow_pair : ({ resetParams with ns := 0 } : Params).wf = false := by decide

theorem test_illFormed_nine_shadow_pairs : ({ resetParams with ns := 9 } : Params).wf = false := by decide

theorem test_illFormed_window_empty :
    ({ resetParams with periphs := [{ base := 16, size := 0, readable := true }] } : Params).wf = false := by decide

theorem test_illFormed_window_outside :
    ({ resetParams with periphs := [{ base := 65535, size := 2, readable := true }] } : Params).wf = false := by decide

theorem test_illFormed_dma_shift : ({ resetParams with dma := some { g := 5, line := 0 } } : Params).wf = false := by decide

/-- The checks on an operand's value refuse what its field could not hold (R83, R84, R87). -/
theorem test_immFits : immFits 4 16 = false ∧ immFits 4 15 = true ∧ immFits 12 4096 = false ∧ immFits 8 256 = false := by decide

/-! Decoding: one word for every constructor, from the spec's encoding (95 section 1.1, 2.1). -/

theorem test_decode_mvs : decode [0x00, 0x04] = .ok (.mvs 0x004, []) := by rfl

theorem test_decode_mvv : decode [0x14, 0xFF] = .ok (.mvv 4 0xFF, []) := by rfl

theorem test_decode_jmp : decode [0x20, 0x44] = .ok (.jmp 0x044, []) := by rfl

theorem test_decode_jsr : decode [0x30, 0x80] = .ok (.jsr 0x080, []) := by rfl

theorem test_decode_bzi : decode [0x40, 0xE3] = .ok (.bzi 0x0E3, []) := by rfl

theorem test_decode_bni : decode [0x51, 0x00] = .ok (.bni 0x100, []) := by rfl

theorem test_decode_bci : decode [0x60, 0x22] = .ok (.bci 0x022, []) := by rfl

theorem test_decode_bxi : decode [0x70, 0x0A] = .ok (.bxi 0x00A, []) := by rfl

theorem test_decode_mvi : decode [0x8F, 0x7E] = .ok (.mvi 15 0x7E, []) := by rfl

theorem test_decode_add : decode [0x90, 0x92] = .ok (.add 9 2, []) := by rfl

theorem test_decode_sub : decode [0x91, 0x43] = .ok (.sub 4 3, []) := by rfl

theorem test_decode_and : decode [0x92, 0x08] = .ok (.and 0 8, []) := by rfl

theorem test_decode_lor : decode [0x93, 0x89] = .ok (.lor 8 9, []) := by rfl

theorem test_decode_sll : decode [0x94, 0x08] = .ok (.sll 0 8, []) := by rfl

theorem test_decode_rol : decode [0x95, 0x08] = .ok (.rol 0 8, []) := by rfl

theorem test_decode_srl : decode [0x96, 0x29] = .ok (.srl 2 9, []) := by rfl

theorem test_decode_ror : decode [0x97, 0x08] = .ok (.ror 0 8, []) := by rfl

theorem test_decode_not : decode [0x9A, 0x12] = .ok (.not 1 2, []) := by rfl

theorem test_decode_xor : decode [0x9B, 0x08] = .ok (.xor 0 8, []) := by rfl

theorem test_decode_adc : decode [0x9C, 0x12] = .ok (.adc 1 2, []) := by rfl

theorem test_decode_sbc : decode [0x9D, 0x32] = .ok (.sbc 3 2, []) := by rfl

theorem test_decode_adi : decode [0x9E, 0x48] = .ok (.adi 4 8, []) := by rfl

theorem test_decode_sbi : decode [0x9F, 0x09] = .ok (.sbi 0 9, []) := by rfl

theorem test_decode_asb : decode [0xA0, 0x89] = .ok (.asb 8 9, []) := by rfl

theorem test_decode_aib : decode [0xA1, 0x98] = .ok (.aib 9 8, []) := by rfl

theorem test_decode_amc : decode [0xA2, 0x89] = .ok (.amc 8 9, []) := by rfl

theorem test_decode_aic : decode [0xA3, 0xAB] = .ok (.aic 10 11, []) := by rfl

theorem test_decode_swd : decode [0xA4, 0xCB] = .ok (.swd 12 11, []) := by rfl

theorem test_decode_gsp : decode [0xA5, 0xEF] = .ok (.gsp 14 15, []) := by rfl

theorem test_decode_gip : decode [0xA6, 0x89] = .ok (.gip 8 9, []) := by rfl

theorem test_decode_mov : decode [0xC0, 0xC0] = .ok (.mov 12 0, []) := by rfl

theorem test_decode_ldb : decode [0xC1, 0x39] = .ok (.ldb 3 9, []) := by rfl

theorem test_decode_lpb : decode [0xC1, 0xF0] = .ok (.lpb 7 0, []) := by rfl

theorem test_decode_stb : decode [0xC2, 0x31] = .ok (.stb 3 1, []) := by rfl

theorem test_decode_spb : decode [0xC2, 0x8F] = .ok (.spb 8 7, []) := by rfl

theorem test_decode_ret : decode [0xC3] = .ok (.ret, []) := by rfl

theorem test_decode_str : decode [0xC4] = .ok (.str, []) := by rfl

theorem test_decode_lsr : decode [0xC5] = .ok (.lsr, []) := by rfl

theorem test_decode_rie : decode [0xC6, 0x9F] = .ok (.rie 1, []) := by rfl

theorem test_decode_sie : decode [0xC7, 0x40] = .ok (.sie 4, []) := by rfl

theorem test_decode_hlt : decode [0xC8] = .ok (.hlt, []) := by rfl

theorem test_decode_rti : decode [0xC9] = .ok (.rti, []) := by rfl

theorem test_decode_sys : decode [0xCF, 0xFF] = .ok (.sys 0xFF, []) := by rfl

theorem test_decode_psh : decode [0xD8] = .ok (.psh 8, []) := by rfl

theorem test_decode_pop : decode [0xE7] = .ok (.pop 7, []) := by rfl

/-- The padding of `.align` executes as mvs (R281). -/
theorem test_decode_padding : decode [0x00, 0x00] = .ok (.mvs 0x000, []) := by rfl

theorem test_decode_reserved : decode [0xB0, 0x00] = .error (.reserved 0xB0) ∧ decode [0xF0] = .error (.reserved 0xF0)
    ∧ decode [0xCA] = .error (.reserved 0xCA) ∧ decode [0x98, 0x00] = .error (.reserved 0x98)
    ∧ decode [0xA7, 0x00] = .error (.reserved 0xA7) := ⟨rfl, rfl, rfl, rfl, rfl⟩

theorem test_decode_truncated : decode [0x80] = .error .truncated := by rfl

theorem test_table_word : decodeTableWord 16 0x9E48 = some (.adi 4 8) ∧ decodeTableWord 8 0xD8 = some (.psh 8) := ⟨rfl, rfl⟩

/-! One step of each instruction (95 sections 2.2 to 2.7). -/

/-- A running machine: sp = 0x003F, registers 0 and 1 as given, sr = 0xF5 but for C as given. -/
def small (r0 r1 : Byte) (c : Bool) : State :=
  let s : State := { State.reset with run := .running, sp := 0x003F, pc := 0x00A, sr := { Sr.ofByte 0xF5 with c := c } }
  (s.setReg 0 r0).setReg 1 r1

/-- The same with some registers and DRAM cells written. -/
def filled (s : State) (regs : List (RegNum × Byte)) (cells : Memory) : State :=
  let t := regs.foldl (fun t p => t.setReg p.1 p.2) s
  { t with dram := cells }

/-- Whether an answer is a next state of which `f` holds. -/
def after (r : Result) (f : State → Bool) : Bool :=
  match r with
  | .next t => f t
  | _ => false

/-- The fault an answer is. -/
def faultOf (r : Result) : Option Fault :=
  match r with
  | .fault f => some f
  | _ => none

theorem test_mvs :
    after (exec (.mvs 0x004) (small 0 0 false)) (fun t => t.sp == 0x003F && t.pc == 0x00C) = true := by
  decide +kernel

theorem test_mvs_zero : after (exec (.mvs 0x000) (small 0 0 false)) (fun t => t.sp == 0xFFFF) = true := by decide +kernel

theorem test_mvv :
    after (exec (.mvv 2 0x04) (small 0 0 false)) (fun t => t.vector 2 == 0x04 && t.vector 1 == 0) = true := by
  decide +kernel

theorem test_jmp : after (exec (.jmp 0xFFF) (small 0 0 false)) (fun t => t.pc == 0xFFF) = true := by decide +kernel

theorem test_jsr :
    after (exec (.jsr 0x080) (small 0 0 false)) (fun t => t.pc == 0x080 && t.sp == 0x003D && t.dram == [(0x3E, 0x0C), (0x3F, 0x00)]) = true := by
  decide +kernel

theorem test_jsr_high_nibble :
    after (exec (.jsr 0x123) ({ small 0 0 false with pc := 0xABC, sp := 0x01FF })) (fun t => t.dram == [(0x1FE, 0xBE), (0x1FF, 0x0A)]) = true := by
  decide +kernel

theorem test_bzi : after (exec (.bzi 0x014) (small 0 0 false)) (fun t => t.pc == 0x014) = true := by decide +kernel

theorem test_bni : after (exec (.bni 0x100) (small 0 0 false)) (fun t => t.pc == 0x00C) = true := by decide +kernel

theorem test_bci : after (exec (.bci 0x022) (small 0 0 true)) (fun t => t.pc == 0x022) = true := by decide +kernel

theorem test_bci_clear : after (exec (.bci 0x022) (small 0 0 false)) (fun t => t.pc == 0x00C) = true := by decide +kernel

theorem test_bxi :
    after (exec (.bxi 0x00A) ({ small 0 0 false with sr := Sr.ofByte 0x08 })) (fun t => t.pc == 0x00A) = true := by
  decide +kernel

theorem test_mvi :
    after (exec (.mvi 8 0x00) (small 0 0 false)) (fun t => t.reg 8 == 0 && t.sr == Sr.ofByte 0xF1) = true := by
  decide +kernel

theorem test_add :
    after (exec (.add 0 1) (small 0xFF 0x01 false)) (fun t => t.reg 1 == 0x00 && t.sr.z == true && t.sr.n == false && t.sr.c == true && t.sr.u3) = true := by
  decide +kernel

theorem test_add_ignores_carry :
    after (exec (.add 0 1) (small 0x00 0x00 true)) (fun t => t.reg 1 == 0x00 && t.sr.z == true && t.sr.n == false && t.sr.c == false && t.sr.u3) = true := by
  decide +kernel

theorem test_sub :
    after (exec (.sub 0 1) (small 0x03 0x05 false)) (fun t => t.reg 1 == 0xFE && t.sr.z == false && t.sr.n == true && t.sr.c == true && t.sr.u3) = true := by
  decide +kernel

theorem test_sub_same :
    after (exec (.sub 1 1) (small 0x00 0x41 false)) (fun t => t.reg 1 == 0x00 && t.sr.z == true && t.sr.n == false && t.sr.c == false && t.sr.u3) = true := by
  decide +kernel

theorem test_adc :
    after (exec (.adc 0 1) (small 0xFF 0xFF true)) (fun t => t.reg 1 == 0xFF && t.sr.z == false && t.sr.n == true && t.sr.c == true && t.sr.u3) = true := by
  decide +kernel

theorem test_adc_wraps :
    after (exec (.adc 0 1) (small 0xFF 0x00 true)) (fun t => t.reg 1 == 0x00 && t.sr.z == true && t.sr.n == false && t.sr.c == true && t.sr.u3) = true := by
  decide +kernel

theorem test_sbc :
    after (exec (.sbc 0 1) (small 0x05 0x05 true)) (fun t => t.reg 1 == 0xFF && t.sr.z == false && t.sr.n == true && t.sr.c == true && t.sr.u3) = true := by
  decide +kernel

theorem test_sbc_borrow_of_whole :
    after (exec (.sbc 0 1) (small 0x00 0xFF true)) (fun t => t.reg 1 == 0x00 && t.sr.z == true && t.sr.n == false && t.sr.c == true && t.sr.u3) = true := by
  decide +kernel

theorem test_adi :
    after (exec (.adi 15 1) (small 0x00 0xF0 false)) (fun t => t.reg 1 == 0x00 && t.sr.z == true && t.sr.n == false && t.sr.c == true && t.sr.u3) = true := by
  decide +kernel

theorem test_adi_five :
    after (exec (.adi 4 1) (small 0x00 0x7E false)) (fun t => t.reg 1 == 0x83 && t.sr.z == false && t.sr.n == true && t.sr.c == false && t.sr.u3) = true := by
  decide +kernel

theorem test_sbi :
    after (exec (.sbi 0 1) (small 0x00 0x00 false)) (fun t => t.reg 1 == 0xFF && t.sr.z == false && t.sr.n == true && t.sr.c == true && t.sr.u3) = true := by
  decide +kernel

theorem test_sbi_sixteen :
    after (exec (.sbi 15 1) (small 0x00 0x10 false)) (fun t => t.reg 1 == 0x00 && t.sr.z == true && t.sr.n == false && t.sr.c == false && t.sr.u3) = true := by
  decide +kernel

theorem test_and :
    after (exec (.and 0 1) (small 0x0F 0xF0 true)) (fun t => t.reg 1 == 0x00 && t.sr == Sr.ofByte 0xF5) = true := by
  decide +kernel

theorem test_lor :
    after (exec (.lor 0 1) (small 0xF0 0x0C true)) (fun t => t.reg 1 == 0xFC && t.sr == Sr.ofByte 0xF5) = true := by
  decide +kernel

theorem test_xor :
    after (exec (.xor 0 1) (small 0xFF 0x0F true)) (fun t => t.reg 1 == 0xF0 && t.sr == Sr.ofByte 0xF5) = true := by
  decide +kernel

theorem test_not :
    after (exec (.not 0 1) (small 0x0F 0x55 true)) (fun t => t.reg 1 == 0xF0 && t.sr == Sr.ofByte 0xF5) = true := by
  decide +kernel

theorem test_sll :
    after (exec (.sll 0 1) (small 0x01 0x81 true)) (fun t => t.reg 1 == 0x02 && t.sr == Sr.ofByte 0xF5) = true := by
  decide +kernel

theorem test_srl :
    after (exec (.srl 0 1) (small 0x07 0x80 true)) (fun t => t.reg 1 == 0x01 && t.sr == Sr.ofByte 0xF5) = true := by
  decide +kernel

theorem test_rol :
    after (exec (.rol 0 1) (small 0x04 0x1E true)) (fun t => t.reg 1 == 0xE1 && t.sr == Sr.ofByte 0xF5) = true := by
  decide +kernel

theorem test_rol_one :
    after (exec (.rol 0 1) (small 0x01 0x81 true)) (fun t => t.reg 1 == 0x03 && t.sr == Sr.ofByte 0xF5) = true := by
  decide +kernel

theorem test_ror :
    after (exec (.ror 0 1) (small 0x01 0x81 true)) (fun t => t.reg 1 == 0xC0 && t.sr == Sr.ofByte 0xF5) = true := by
  decide +kernel

/-- A count of 8 gives a free value (R146); the rest is as for any count. -/
theorem test_sll_eight_free :
    after (exec (.sll 0 1) (small 8 0xFF true)) (fun t => t.reg 0 == 8 && t.pc == 0x00C && t.sr == Sr.ofByte 0xF5) = true := by
  decide +kernel

theorem test_asb : after (exec (.asb 0 1) (small 0x53 0 false)) (fun t => t.reg 1 == 0xED) = true := by decide +kernel

theorem test_aib : after (exec (.aib 0 1) (small 0x00 0 false)) (fun t => t.reg 1 == 0x52) = true := by decide +kernel

/-- What a sequence of calls returns, without the results of its load-only calls (95 section 2.4). -/
def unloaded {st : Type} (call : st → Byte → Byte → Byte → Byte × st) (s : st) (loads : Nat) (ops : List (Byte × Byte)) : List Byte :=
  (iseSequence call s (ops.map fun p => ⟨p.1, p.2, 0⟩)).1.drop loads

theorem test_amc :
    unloaded (mixCall mixColumn) State.reset.amc 1 [(0xDB, 0x13), (0x53, 0x45), (0, 0), (0, 0), (0, 0)] = [0xBC, 0xA1, 0x4D, 0x8E] := by
  decide +kernel

theorem test_aic :
    unloaded (mixCall mixColumnInv) State.reset.aic 1 [(0x8E, 0x4D), (0xA1, 0xBC), (0, 0), (0, 0), (0, 0)] = [0x45, 0x53, 0x13, 0xDB] := by
  decide +kernel

theorem test_swd :
    unloaded rotCall State.reset.swd 2 [(0x78, 0x56), (0x34, 0x12), (8, 0), (0, 0), (0, 0), (0, 0)] = [0x34, 0x56, 0x78, 0x12] := by
  decide +kernel

/-- The second row of the table of gsp (95 section 2.4), after and before the S-box. -/
theorem test_gift_perm :
    giftPerm 0x1111111111111111111111111111111A = 0x11111119111111111111111311111110 ∧ giftPermInv 0x11111119111111111111111311111110 = 0x1111111111111111111111111111111A := by
  decide +kernel

theorem test_gsp :
    after (exec (.gsp 0 1) ({ small 0 0 false with gsp := { cnt := 8, inp := 0, out := 0xAF1C473443FC6BD8D8A38F70077090AF } })) (fun t => t.reg 1 == 0x1C && t.gsp.cnt == 9) = true := by
  decide +kernel

theorem test_gip :
    after (exec (.gip 0 1) (small 0x12 0x34 false)) (fun t => t.gip.inp == 0x3412 && t.gip.cnt == 1) = true := by
  decide +kernel

theorem test_gift_sboxes : giftSboxByte 0x01 = 0x1A ∧ giftSboxInvByte 0x1A = 0x01 := by decide +kernel

theorem test_mov :
    after (exec (.mov 0 1) (small 0x5A 0 true)) (fun t => t.reg 1 == 0x5A && t.sr == Sr.ofByte 0xF5) = true := by
  decide +kernel

theorem test_ldb :
    after (exec (.ldb 3 9) (filled (small 0 0 false) [(11, 0x12), (3, 0x34)] [(0x1234, 0x77)])) (fun t => t.reg 9 == 0x77 && t.reg 3 == 0x34 && t.pc == 0x00C) = true := by
  decide +kernel

/-- The address of a read is echoed even where DRAM answers (R54). -/
theorem test_ldb_echo :
    after (exec (.ldb 3 9) (filled (small 0 0 false) [(11, 0x12), (3, 0x34)] [(0x1234, 0x77)])) (fun t => t.events == [.dataRead 0x1234]) = true := by
  decide +kernel

theorem test_lpb :
    after (exec (.lpb 0 1) (filled (small 0xFF 0 false) [(8, 0x02)] [(0x2FF, 0x9C)])) (fun t => t.reg 1 == 0x9C && t.reg 0 == 0x00 && t.reg 8 == 0x02) = true := by
  decide +kernel

theorem test_lpb_into_a :
    after (exec (.lpb 0 8) (filled (small 0x10 0 false) [] [(0x10, 0x05)])) (fun t => t.reg 8 == 0x05 && t.reg 0 == 0x11) = true := by
  decide +kernel

theorem test_stb :
    after (exec (.stb 3 1) (filled (small 0 0x20 false) [(3, 0xEE)] [])) (fun t => t.dram == [(0x20, 0xEE)]) = true := by
  decide +kernel

theorem test_spb :
    after (exec (.spb 8 7) (filled (small 0 0 false) [(8, 0x11), (15, 0x01), (7, 0xFF)] [])) (fun t => t.dram == [(0x1FF, 0x11)] && t.reg 7 == 0 && t.reg 15 == 1) = true := by
  decide +kernel

/-- The value stored is the one before the increment (D20). -/
theorem test_spb_stores_before :
    after (exec (.spb 1 1) (small 0 0x40 false)) (fun t => t.dram == [(0x40, 0x40)] && t.reg 1 == 0x41) = true := by
  decide +kernel

theorem test_ret :
    after (exec (.ret) ({ small 0 0 false with sp := 0x003D, dram := [(0x3E, 0x34), (0x3F, 0xF2)] })) (fun t => t.pc == 0x234 && t.sp == 0x003F) = true := by
  decide +kernel

theorem test_str :
    after (exec (.str) ({ small 0 0 false with sr := Sr.ofByte 0x05 })) (fun t => t.dram == [(0x3F, 0x05)] && t.sp == 0x003E && t.pc == 0x00B) = true := by
  decide +kernel

theorem test_lsr :
    after (exec (.lsr) ({ small 0 0 false with sp := 0x003E, dram := [(0x3F, 0x98)] })) (fun t => t.sr.u3 && t.sr.u0 && t.sr.x && !t.sr.z && t.sp == 0x003F) = true := by
  decide +kernel

theorem test_rie :
    after (exec (.rie 1) ({ small 0 0 false with ie := 0x0104 })) (fun t => t.reg 9 == 0x01 && t.reg 1 == 0x04) = true := by
  decide +kernel

theorem test_sie :
    after (exec (.sie 4) (filled (small 0 0 false) [(12, 0x01), (4, 0x04)] [])) (fun t => t.ie == 0x0104) = true := by
  decide +kernel

theorem test_hlt :
    after (exec (.hlt) (small 0 0 false)) (fun t => t.run == .halted && t.pc == 0x00B) = true := by
  decide +kernel

/-- With NS = 1 only pair 0 comes back from the shadow registers (R201). -/
theorem test_rti :
    after (exec (.rti) ({ small 0 0 false with isr := true, pcs := 0x123, srs := Sr.ofByte 0x0A, shadowR := Vector.replicate 8 7, shadowA := Vector.replicate 8 9, params := { resetParams with ns := 1 } })) (fun t => t.pc == 0x123 && t.sr == Sr.ofByte 0x0A && !t.isr && t.reg 0 == 7 && t.reg 8 == 9 && t.reg 1 == 0) = true := by
  decide +kernel

theorem test_rti_outside : faultOf (exec .rti (small 0 0 false)) = some .rtiOutsideIsr := by decide +kernel

theorem test_sys :
    after (exec (.sys 0x12) (small 0 0 false)) (fun t => t.sbus == 0x12 && t.events == [.sbusOut 0x12] && t.run == .running && t.pc == 0x00C) = true := by
  decide +kernel

theorem test_sys_end : after (exec (.sys 0xFF) (small 0 0 false)) (fun t => t.run == .ended) = true := by decide +kernel

theorem test_psh :
    after (exec (.psh 0) (small 0x7E 0 false)) (fun t => t.dram == [(0x3F, 0x7E)] && t.sp == 0x003E) = true := by
  decide +kernel

theorem test_psh_wraps :
    after (exec (.psh 0) ({ small 0x7E 0 false with sp := 0 })) (fun t => t.dram == [(0, 0x7E)] && t.sp == 0xFFFF) = true := by
  decide +kernel

theorem test_pop :
    after (exec (.pop 7) ({ small 0 0 true with sp := 0x003E, dram := [(0x3F, 0x00)] })) (fun t => t.reg 7 == 0x00 && t.sp == 0x003F && t.sr == Sr.ofByte 0xF5) = true := by
  decide +kernel

/-! The step: fetching, interrupts, reset, and the host's word at pc. -/

theorem test_step_add :
    after (step ((small 0x01 0x02 false).withFetchWord 16 0x9001)) (fun t => t.reg 1 == 3 && t.pc == 0x00C) = true := by
  decide +kernel

theorem test_step_from_reset :
    after (step (State.reset.withFetchWord 16 0x8155)) (fun t => t.reg 1 == 0x55 && t.pc == 0x002) = true := by
  decide +kernel

theorem test_step_one_byte :
    after (step (State.reset.withFetchWord 8 0xC8)) (fun t => t.run == .halted && t.pc == 0x001) = true := by
  decide +kernel

theorem test_step_reserved :
    faultOf (step (State.reset.withFetchWord 16 0xB000)) = some (.reservedEncoding 0xB0) := by
  decide +kernel

/-- Program P8: lines 0, 1 and 3 high, 1 and 3 enabled. -/
theorem test_step_takes_lowest :
    after (step { small 0 0 false with ibus := 0x000B, ie := 0x000A, iv := Vector.replicate 16 0x04 }) (fun t => t.pc == 0x040 && t.pcs == 0x00A && t.isr) = true := by
  decide +kernel

theorem test_start_pin :
    after (step { State.reset with inputs := [{ ibus := 0, pin := some .start }] }) (fun t => t.run == .running && t.pc == 0) = true := by
  decide +kernel

/-- extdout shows the external user's cell while extdaddrsel is asserted, else the cell the core drove last (R276). -/
theorem test_extdout :
    ({ small 0 0 false with busTaken := true, dram := [(3, 7), (4, 8)] } : State).extdout 4 = some 8
      ∧ ({ small 0 0 false with dram := [(3, 7), (4, 8)], events := [.dataRead 4, .dataRead 3, .sbusOut 4] } : State).extdout 4 = some 7
      ∧ ({ small 0 0 false with dram := [(3, 7)] } : State).extdout 3 = none := by
  decide +kernel

/-! The assembler (95 section 1.3). -/

/-- A label before `.align` names the next command, behind the padding; a `.dat` has at least one byte (R99). -/
theorem test_assemble_label_before_align :
    (assemble [.code .nop, .lbl "isr1", .align, .code (.jump .jmp (.label "isr1"))]).map (fun o => o.prog.drop 16) = some [0x20, 0x10]
      ∧ assemble [.dat 0x10 []] = none := by
  decide +kernel

theorem test_assemble_adi :
    (assemble [.code (.adi 5 8), .code .nop, .align, .lbl "isr2", .code (.mvv 0x010 2), .code (.jump .jmp (.label "isr2"))]).map (fun o => o.prog.drop 14) = some [0x00, 0x00, 0x12, 0x01, 0x20, 0x10] := by
  decide +kernel

theorem test_assemble_equ :
    (assemble [.equ "tmpvar" 0x00, .code (.mvi (.named "tmpvar") 0), .dat 0x10 [0x12, 0x34]]) = some ⟨[0x80, 0x00], [(0x10, 0x12), (0x11, 0x34)]⟩ := by
  decide +kernel

theorem test_assemble_refuses :
    commandInstr [] [] (.mvs 0x0041) = none ∧ commandInstr [] [] (.adi 17 0) = none ∧ commandInstr [] [] (.jump .jmp (.label "no")) = none := by
  decide +kernel

/-! Cycles as the manual states them (R285, R286). -/

theorem test_cycles : baseCycles .ret = 2 ∧ baseCycles .str = 1 ∧ (iseTiming .aic).total = 2 * (iseTiming .aic).calls + (iseTiming .aic).waits := by
  decide

/-! Witnesses: for every statement with hypotheses, a state and operands that meet all of them together. -/

/-- A running machine at pc = 0 with some program bytes. -/
def atStart (prog : Memory) : State := { State.reset with run := .running, pram := prog }

/-- A machine whose next input is a pin event. -/
def pinned (r : RunState) (e : PinEvent) : State := { State.reset with run := r, inputs := [{ ibus := 0, pin := some e }] }

/-- The same machine once that input is read. -/
def unpinned (r : RunState) : State := { State.reset with run := r }

/-- A machine with the example DMA controller on line 0, moving 4 bytes for a count of 0. -/
def dmaPlatform : State :=
  { State.reset with run := .running, sp := 0x01FF, params := { resetParams with dma := some { g := 2, line := 0 } },
                     dma := { phase := .idle, irq := false, src := 0x20, dst := 0x30, count := 0 } }

theorem test_witness_EncodeDecode : decode [0xC6, 0x9F, 0x55] = .ok (.rie 1, [0x55]) ∧ decode [0x90, 0x01] = .ok (.add 0 1, [])
    ∧ decode [0xE7, 0x55] = .ok (.pop 7, [0x55]) := ⟨rfl, rfl, rfl⟩

theorem test_witness_DecodeAgreesWithOpcodeTable : (⟨"lpb", 2, 0xFF80, 0xC180⟩ ∈ opcodeRows ∧ rowMatches 0xC1 0x80 ⟨"lpb", 2, 0xFF80, 0xC180⟩ = true)
    ∧ ∀ r ∈ opcodeRows, rowMatches 0xB0 0x00 r = false := by decide +kernel

theorem test_witness_ReservedEncodingsFault : ∀ b ∈ [0xB0#8, 0xBF, 0xF0, 0xFF, 0x98, 0x99, 0xCA, 0xCE, 0xA7, 0xAF],
    (atStart [(0, b)]).sample = (none, atStart [(0, b)]) ∧ (atStart [(0, b)]).run = .running
      ∧ (atStart [(0, b)]).pendingInterrupt = none ∧ (atStart [(0, b)]).pram.read 0 = some b := by decide +kernel

theorem test_witness_StepRunsDecodedInstruction : (atStart [(0, 0x90), (1, 0x01)]).sample = (none, atStart [(0, 0x90), (1, 0x01)])
    ∧ (atStart [(0, 0x90), (1, 0x01)]).pendingInterrupt = none
    ∧ (atStart [(0, 0x90), (1, 0x01)]).progRead 0 = .next 0x90 ∧ (atStart [(0, 0x90), (1, 0x01)]).progRead 1 = .next 0x01
    ∧ decode [0x90, 0x01] = .ok (.add 0 1, []) ∧ (atStart [(0, 0xC8)]).progRead 0 = .next 0xC8 ∧ decode [0xC8] = .ok (.hlt, []) :=
  ⟨rfl, rfl, rfl, rfl, rfl, rfl, rfl⟩

theorem test_witness_FetchWordRuns : decodeTableWord 16 0x9001 = some (.add 0 1) ∧ decodeTableWord 8 0xC9 = some .rti := ⟨rfl, rfl⟩

theorem test_witness_ProgRead : (4095#12).toNat < resetParams.pramSize ∧ (atStart [(4095, 0xC8)]).pram.read 4095 = some 0xC8
    ∧ ({ resetParams with pramSize := 256 } : Params).pramSize ≤ (256#12).toNat
    ∧ after (step (atStart [(0, 0xC8)])) (fun _ => true) = true := by decide +kernel

theorem test_witness_OnlyTheLoaderWritesProgram :
    after (step (pinned .idle (.progLoad 4 0x90))) (fun t => t.pram != (pinned .idle (.progLoad 4 0x90)).pram) = true := by
  decide +kernel

/-- Each clause: pc at PRAM_SIZE; a cell never loaded; b1 at PRAM_SIZE; b1 never loaded. -/
theorem test_witness_FetchFaults :
    (∀ s ∈ [{ atStart [] with pc := 16, params := { resetParams with pramSize := 16 } }, atStart [],
        { atStart [(15, 0x80)] with pc := 15, params := { resetParams with pramSize := 16 } }, atStart [(0, 0x80)]],
      s.sample = (none, s) ∧ s.run = .running ∧ s.pendingInterrupt = none)
    ∧ (atStart [(15, 0x80)]).progRead 15 = .next 0x80 ∧ lengthOf 0x80 = some 2 :=
  ⟨by decide +kernel, rfl, rfl⟩

theorem test_witness_BoundaryWithoutEntry : ∀ r ∈ [RunState.idle, .ended, .halted, .running],
    (unpinned r).sample = (none, unpinned r) ∧ (unpinned r).run = r ∧ (unpinned r).req = 0 := by decide +kernel

/-- Both run states, the first and the last line, and one and eight shadow pairs. -/
theorem test_witness_InterruptEntry : ∀ r ∈ [RunState.running, .halted], ∀ p ∈ [(0#4, 1), (15#4, 8)],
    let s : State := { unpinned r with ibus := 1#16 <<< p.1.toNat, ie := 0xFFFF, params := { resetParams with ns := p.2 } }
    s.sample = (none, s) ∧ s.isr = false ∧ s.req.getLsbD p.1.toNat = true ∧ ∀ j, j < p.1.toNat → s.req.getLsbD j = false := by
  decide +kernel

theorem test_witness_NoEntryInService :
    (∀ r ∈ [RunState.running, .halted], ({ unpinned r with isr := true, ibus := 1, ie := 1 } : State).sample
      = (none, { unpinned r with isr := true, ibus := 1, ie := 1 }))
    ∧ after (step { unpinned .halted with ibus := 1, ie := 1 }) (fun t => t.isr) = true
    ∧ after (exec .rti { unpinned .running with isr := true }) (fun t => !t.isr) = true := by decide +kernel

theorem test_witness_RtiReturns : ({ State.reset with isr := true } : State).isr = true ∧ State.reset.isr = false := ⟨rfl, rfl⟩

theorem test_witness_ShadowsKeptInService : ({ atStart [(0, 0xC8)] with isr := true } : State).sample.1 ≠ some .rst
    ∧ after (step { atStart [(0, 0xC8)] with isr := true }) (fun _ => true) = true := by decide +kernel

/-- An ISR of one instruction, mvi 0x55, r1, at address 0. -/
theorem test_witness_InterruptTransparent :
    (∀ m x, m ≤ 1 → Sys2Proof.core.run m ((atStart [(0, 0x81), (1, 0x55)]).takeInterrupt 3) = .next x → x.isr = true)
    ∧ ∃ t, Sys2Proof.core.run 1 ((atStart [(0, 0x81), (1, 0x55)]).takeInterrupt 3) = .next t := by
  constructor
  · intro m x hm h
    rcases (by omega : m = 0 ∨ m = 1) with rfl | rfl <;> cases h <;> rfl
  · exact ⟨_, rfl⟩

/-- An instruction that changes each field its rule lets it change. -/
theorem test_witness_Writers : after (exec (.mvv 0 1) State.reset) (fun t => t.iv != State.reset.iv) = true
    ∧ after (exec (.sie 0) (small 1 0 false)) (fun t => t.ie != 0) = true
    ∧ after (exec .rti { State.reset with isr := true }) (fun t => !t.isr) = true
    ∧ after (exec (.add 0 1) State.reset) (fun t => t.sr.z) = true
    ∧ after (exec .lsr { State.reset with dram := [(1, 0xF0)] }) (fun t => t.sr.u3) = true
    ∧ after (exec (.mvs 1) State.reset) (fun t => t.sp != 0) = true
    ∧ after (exec (.stb 0 0) State.reset) (fun t => t.dram != []) = true
    ∧ after (exec .hlt State.reset) (fun t => t.run == .halted) = true
    ∧ after (exec (.sys 1) State.reset) (fun t => t.sbus == 1) = true := by decide +kernel

theorem test_witness_EventsGrow : after (step (atStart [(0, 0xCF), (1, 0x12)])) (fun t => t.events == [.sbusOut 0x12]) = true := by
  decide +kernel

theorem test_witness_pins : ∀ r ∈ [RunState.idle, .ended, .running, .halted],
    ∀ e ∈ [PinEvent.rst, .start, .progLoad 4095 1, .dataLoad 65535 1, .busSel true, .busWrite 0 1],
      (pinned r e).sample = (some e, unpinned r) := by decide +kernel

theorem test_witness_LoaderWrites : (4095#12).toNat < (unpinned .idle).params.pramSize
    ∧ (let u : State := { unpinned .ended with busTaken := true }
       ({ u with inputs := [{ ibus := 0, pin := some (.dataLoad 65535 1) }] } : State).sample = (some (.dataLoad 65535 1), u)
         ∧ (65535#16).toNat < u.params.dramSize ∧ u.dmaBars = false) := by decide +kernel

theorem test_witness_OtherPins :
    let s : State := { pinned .idle (.progLoad 16 1) with params := { resetParams with pramSize := 16, dramSize := 16 } }
    let b : State := { unpinned .halted with busTaken := true, inputs := [{ ibus := 0, pin := some (.busWrite 7 1) }] }
    s.sample.2.params.pramSize ≤ (16#12).toNat ∧ s.sample.2.params.dramSize ≤ (16#16).toNat
      ∧ b.sample = (some (.busWrite 7 1), { unpinned .halted with busTaken := true })
      ∧ (unpinned .halted).busTaken = false := by decide +kernel

/-- An object that just fits both memories. -/
theorem test_witness_LoaderStartsProgram :
    let p : Params := { resetParams with pramSize := 2, dramSize := 0x21 }
    p.wf = true ∧ [0x81#8, 0x55].length ≤ p.pramSize ∧ ([(0x0010#16, 1#8), (0x0020, 2)].all fun c => c.1.toNat < p.dramSize) = true
      ∧ ([(0x0010#16, 1#8), (0x0020, 2)].map Prod.fst).Nodup := by
  decide +kernel

theorem test_witness_AssemblerScaledOperands : commandInstr [] [] (.mvs 0x0040) = some (.mvs 0x004)
    ∧ commandInstr [] [] (.mvv 0xFF0 4) = some (.mvv 4 0xFF) := by decide

theorem test_witness_StepKeepsInvariant : State.reset.Inv ∧ after (step State.reset) (fun _ => true) = true := by
  refine ⟨⟨?_, ?_, ?_, ?_, ?_, ?_, ?_, ?_⟩, ?_⟩
  all_goals decide

theorem test_witness_JumpsAndBranches : (Instr.bci 0x022, true) ∈ [(Instr.jmp 0x022, true), (.bzi 0x022, (small 0 0 true).sr.z),
    (.bni 0x022, (small 0 0 true).sr.n), (.bci 0x022, (small 0 0 true).sr.c), (.bxi 0x022, (small 0 0 true).sr.x)] := by decide

/-- The stack in DRAM at its lowest cells; and a stack that begins at the DMA controller's last register. -/
theorem test_witness_JsrCalls : (0x00#8).toNat = (small 0 0 false).pc.toNat / 256
    ∧ (0x0C#8).toNat = ((small 0 0 false).pc + 2).toNat % 256
    ∧ ({ small 0 0 false with sp := 1 } : State).canWrite 1 = true ∧ ({ small 0 0 false with sp := 1 } : State).canWrite 0 = true
    ∧ after (({ dmaPlatform with sp := 0x0105 } : State).memWrite 0x0105 0) (fun s => after (s.memWrite 0x0104 2) (fun _ => true))
      = true := by decide +kernel

theorem test_witness_TwoByteArithmetic : (1 : RegNum) ≠ 2 ∧ (1 : RegNum) ≠ 3 := by decide

/-- A count of 7 and a count of 8. -/
theorem test_witness_ShiftsAndRotates : ((small 7 0x80 false).reg 0).toNat ≤ 7 ∧ ¬ ((small 8 0x80 false).reg 0).toNat ≤ 7 := by
  decide +kernel

/-- Every call of every sequence has its state. -/
theorem test_witness_IseCalls : (∀ c : Fin 5, (⟨c, ⟨0, 0, 0, 0⟩, ⟨0, 0, 0, 0⟩⟩ : MixIse).cnt = c)
    ∧ (∀ c : Fin 6, (⟨c, 0, 0⟩ : RotIse).cnt = c) ∧ ∀ c : Fin 23, (⟨c, 0, 0⟩ : GiftIse).cnt = c :=
  ⟨fun _ => rfl, fun _ => rfl, fun _ => rfl⟩

theorem test_witness_SwdSequence : State.reset.swd.cnt = 0 := rfl

theorem test_witness_GipUndoesGsp : State.reset.gsp.cnt = 0 ∧ State.reset.gip.cnt = 0
    ∧ (List.replicate 15 (⟨0, 0, 0⟩ : IseOperands)).length = 15 := ⟨rfl, rfl, rfl⟩

/-- A cell of DRAM, its last one, and an address that a peripheral answers. -/
theorem test_witness_LoadsRead :
    (filled (small 0x10 0 false) [] [(0x10, 0x05)]).readValue ((filled (small 0x10 0 false) [] [(0x10, 0x05)]).pair 0) = some 0x05
    ∧ (filled (small 0 0 false) [] [(0xFFFF, 0x06)]).readValue 0xFFFF = some 0x06
    ∧ (({ small 0 0 false with params := { resetParams with dramSize := 16, periphs := [⟨0x20, 1, true⟩] } } : State).readValue
      0x20).isSome = true := by
  refine ⟨by decide +kernel, by decide +kernel, ?_⟩
  rfl

/-- A cell of DRAM, and a peripheral's address beyond DRAM. -/
theorem test_witness_StoresWrite : (small 0x10 0 false).canWrite ((small 0x10 0 false).pair 0) = true
    ∧ ({ small 0x20 0 false with params := { resetParams with dramSize := 16, periphs := [⟨0x20, 1, false⟩] } } : State).canWrite 0x20
      = true := by decide +kernel

theorem test_witness_PushesWrite : (small 0 0 false).canWrite (small 0 0 false).sp = true
    ∧ ({ small 0 0 false with sp := 0xFFFF } : State).canWrite 0xFFFF = true := by decide +kernel

/-- sp at the top, so that the read is at address 0. -/
theorem test_witness_PopsRead : ({ small 0 0 false with sp := 0xFFFF, dram := [(0, 0x98)] } : State).readValue (0xFFFF + 1)
    = some 0x98 := by decide +kernel

theorem test_witness_RetReturns :
    let s : State := { small 0 0 false with sp := 0x003D, dram := [(0x3E, 0x34), (0x3F, 0xF2)] }
    s.readValue (s.sp + 1) = some 0x34 ∧ ((s.setSp (s.sp + 1)).afterRead (s.sp + 1)).readValue (s.sp + 2) = some 0xF2 := by
  decide +kernel

theorem test_witness_StackRoundTrips : (small 0 0 false).canWrite (small 0 0 false).sp = true
    ∧ (small 0 0 false).sp.toNat < (small 0 0 false).params.dramSize ∧ (small 0 0 false).answersRead (small 0 0 false).sp.toNat = false
    ∧ (small 0 0 false).canWrite ((small 0 0 false).sp - 1) = true
    ∧ (small 0 0 false).answersRead ((small 0 0 false).sp - 1).toNat = false := by decide +kernel

/-- Each clause: the bus taken; the first address beyond DRAM, read and written; the last cell of DRAM, not written yet. -/
theorem test_witness_DataAccessStops : ({ small 0 0 false with busTaken := true } : State).busBusy = true
    ∧ (let s : State := { small 16 0 false with sp := 15, params := { resetParams with dramSize := 16 } }
       s.busBusy = false ∧ s.answersRead 16 = false ∧ s.claimed 16 = false ∧ 16 = (s.pair 0).toNat ∧ 16 = (s.sp + 1).toNat
         ∧ s.answersRead 15 = false ∧ s.dram.read 15 = none)
    ∧ (let s : State := { small 0 0 false with sp := 14, params := { resetParams with dramSize := 16 }, dram := [(15, 1)] }
       16 = (s.sp + 2).toNat ∧ (s.readValue (s.sp + 1)).isSome = true)
    ∧ (let s : State := { small 0 0 false with sp := 0, params := { resetParams with dramSize := 16 } }
       65535 = (s.sp - 1).toNat ∧ s.canWrite s.sp = true ∧ s.claimed 65535 = false) := by decide +kernel

theorem test_witness_HltWaits : (small 0 0 false).inputs = [] ∧ (small 0 0 false).req = 0 := by decide +kernel

/-- Each register, the start of a legal transfer, of an illegal one, and what is not described. -/
theorem test_witness_DmaRegisterStores : dmaPlatform.params.dma = some ⟨2, 0⟩ ∧ dmaPlatform.busBusy = false
    ∧ dmaPlatform.dma.phase = .idle ∧ dmaBlocksLegal dmaPlatform ⟨2, 0⟩ = true
    ∧ dmaBlocksLegal { dmaPlatform with dma := { dmaPlatform.dma with dst := 0x23 } } ⟨2, 0⟩ = false
    ∧ (∀ b ∈ [0x00#8, 0x01, 0x02, 0x03, 0x04, 0x05], (filled dmaPlatform [(8, 0x01), (0, b), (1, 0xFF)] []).pair 0 = 0x01#8 ++ b) := by decide +kernel

/-- A start while the last interrupt waits for its acknowledge starts a transfer (R254). -/
theorem test_dma_restart :
    after (exec (.stb 1 0) (filled { dmaPlatform with dma := { dmaPlatform.dma with irq := true } } [(8, 0x01), (0, 0x00), (1, 0xFF)] []))
      (fun t => t.dma.phase == .busy && t.dma.irq) = true := by
  decide +kernel

/-- The acknowledge drops the irq of a transfer that is over (R255); the code of another line does not. -/
theorem test_dma_ack :
    let s : State := { dmaPlatform with dma := { dmaPlatform.dma with irq := true } }
    after (exec (.sys 0x10) s) (fun t => t.dma.phase == .idle && !t.dma.irq) = true
      ∧ after (exec (.sys 0x11) s) (fun t => t.dma.irq) = true := by
  decide +kernel

/-- The code that acknowledges the controller's line, and one that does not. -/
theorem test_witness_SysOutputs : dmaPlatform.params.dma = some ⟨2, 0⟩ ∧ (0x10#8).toNat = 0x10 + (0#4).toNat
    ∧ ∀ p, dmaPlatform.params.dma = some p → (0x11#8).toNat ≠ 0x10 + p.line.toNat :=
  ⟨rfl, rfl, fun _ h => by cases h; decide⟩

theorem test_witness_DmaTransfer :
    let s : State := { dmaPlatform with dma := { dmaPlatform.dma with phase := .busy } }
    ({ s with inputs := [{ ibus := 0, pin := some .dmaDone }] } : State).sample = (some .dmaDone, s)
      ∧ s.params.dma = some ⟨2, 0⟩ ∧ dmaBlocksLegal s ⟨2, 0⟩ = true ∧ s.busTaken = false := by decide +kernel

end Sys2Proof.Tests
end

section
/-! Program memory (20_memory.md R52, R70): what a read of it gives, and that nothing but the loader, in a stopped core, writes
it. The shared operations of data memory come first, then the instructions group by group, the pins, and the step. -/

namespace Sys2Proof.Machine

/-! Reading program memory. -/

theorem State.progRead_of_loaded {s : State} {a : ProgAddr} {v : Byte} (ha : a.toNat < s.params.pramSize)
    (hv : s.pram.read a.toNat = some v) : s.progRead a = .next v := by
  unfold State.progRead
  rw [if_pos ((s.inPram_iff a.toNat).2 ha), hv]

theorem State.progRead_of_outOfRange {s : State} {a : ProgAddr} (ha : s.params.pramSize ≤ a.toNat) :
    s.progRead a = .fault .fetchOutOfRange := by
  unfold State.progRead
  rw [if_neg (mt (s.inPram_iff a.toNat).1 (Nat.not_lt.2 ha))]

/-! The shared operations leave program memory alone. -/

theorem State.memRead_pram {s : State} {a : DataAddr} {r : Byte × State} (h : s.memRead a = .next r) :
    r.2.pram = s.pram := by
  obtain ⟨-, hr⟩ := (s.memRead_eq_next a r).1 h
  rw [hr, State.afterRead_pram]

theorem State.memWrite_pram {s t : State} {a : DataAddr} {v : Byte} (h : s.memWrite a v = .next t) :
    t.pram = s.pram := by
  obtain ⟨-, -, d, rfl⟩ := s.memWrite_eq_next a v t h
  simp

theorem State.push_pram {s t : State} {v : Byte} (h : s.push v = .next t) : t.pram = s.pram := by
  obtain ⟨s', hw, rfl⟩ := s.push_eq_next v t h
  simpa using State.memWrite_pram hw

theorem State.popByte_pram {s : State} {r : Byte × State} (h : s.popByte = .next r) : r.2.pram = s.pram :=
  State.memRead_pram (s := s.setSp (s.sp + 1)) h

@[simp] theorem State.stepPair_pram (s : State) (i : PairIdx) : (s.stepPair i).pram = s.pram := rfl

@[simp] theorem State.setPair_pram (s : State) (i : PairIdx) (v : BitVec 16) : (s.setPair i v).pram = s.pram := rfl

@[simp] theorem State.sbusOut_pram (s : State) (v : Byte) : (s.sbusOut v).pram = s.pram := by
  unfold State.sbusOut
  rcases dmaAck_eq ((s.emit (.sbusOut v)).setSbus v) v with ⟨h, -⟩ | ⟨h, -⟩ <;> simp [h]

/-! The instructions leave program memory alone. -/

/-- If the answer is a next state, its program memory is that of `s`. -/
def KeepsProgram (s : State) (r : Result) : Prop := ∀ t, r = .next t → t.pram = s.pram

@[simp] theorem keepsProgram_next (s t : State) : KeepsProgram s (.next t) ↔ t.pram = s.pram := by
  simp [KeepsProgram]

@[simp] theorem keepsProgram_fault (s : State) (f : Fault) : KeepsProgram s (.fault f) := by
  simp [KeepsProgram]

theorem KeepsProgram.andThen {α : Type} {s : State} {o : Answer α} {f : α → Result}
    (h : ∀ x, o = .next x → KeepsProgram s (f x)) : KeepsProgram s (andThen o f) := by
  intro t ht
  obtain ⟨x, hx, hf⟩ := (andThen_eq_next o f t).1 ht
  exact h x hx t hf

theorem finishArith_keepsProgram (op : ArithOp) (a b : Byte) (d : RegNum) (v : BitVec 9) (s : State) :
    KeepsProgram s (finishArith op a b d v s) := by
  simp [finishArith]

theorem finishLogic_keepsProgram (d : RegNum) (v : Byte) (s : State) : KeepsProgram s (finishLogic d v s) := by
  simp [finishLogic]

theorem finishShift_keepsProgram (op : ShiftOp) (rs d : RegNum) (s : State) :
    KeepsProgram s (finishShift op rs d s) := by
  unfold finishShift
  split <;> simp

theorem finishAluc_keepsProgram (d : RegNum) (v : Byte) (c : IseCall) (s : State) :
    KeepsProgram s (finishAluc d v c s) := by
  simp [finishAluc]

theorem branchIf_keepsProgram (flag : Bool) (im : ProgAddr) (s : State) : KeepsProgram s (branchIf flag im s) := by
  unfold branchIf
  split <;> simp

theorem execJsr_keepsProgram (im : ProgAddr) (s : State) : KeepsProgram s (execJsr im s) :=
  .andThen fun _ h1 => .andThen fun _ h2 => by simp [State.push_pram h2, State.push_pram h1]

theorem execLdb_keepsProgram (i : PairIdx) (d : RegNum) (s : State) : KeepsProgram s (execLdb i d s) :=
  .andThen fun _ h => by simp [State.memRead_pram h]

theorem execLpb_keepsProgram (i : PairIdx) (d : RegNum) (s : State) : KeepsProgram s (execLpb i d s) :=
  .andThen fun _ h => by split <;> simp [State.memRead_pram h]

theorem execStb_keepsProgram (v : RegNum) (i : PairIdx) (s : State) : KeepsProgram s (execStb v i s) :=
  .andThen fun _ h => by simp [State.memWrite_pram h]

theorem execSpb_keepsProgram (v : RegNum) (i : PairIdx) (s : State) : KeepsProgram s (execSpb v i s) :=
  .andThen fun _ h => by simp [State.memWrite_pram h]

theorem execRet_keepsProgram (s : State) : KeepsProgram s (execRet s) :=
  .andThen fun _ h1 => .andThen fun _ h2 => by simp [State.popByte_pram h2, State.popByte_pram h1]

theorem execStr_keepsProgram (s : State) : KeepsProgram s (execStr s) :=
  .andThen fun _ h => by simp [State.push_pram h]

theorem execLsr_keepsProgram (s : State) : KeepsProgram s (execLsr s) :=
  .andThen fun _ h => by simp [State.popByte_pram h]

theorem execRti_keepsProgram (s : State) : KeepsProgram s (execRti s) := by
  unfold execRti
  split <;> simp

theorem execSys_keepsProgram (im : Byte) (s : State) : KeepsProgram s (execSys im s) := by
  unfold execSys
  split <;> simp

theorem execPsh_keepsProgram (rs : RegNum) (s : State) : KeepsProgram s (execPsh rs s) :=
  .andThen fun _ h => by simp [State.push_pram h]

theorem execPop_keepsProgram (d : RegNum) (s : State) : KeepsProgram s (execPop d s) :=
  .andThen fun _ h => by simp [State.popByte_pram h]

/-- No instruction writes program memory (R70). -/
theorem exec_keepsProgram (i : Instr) (s : State) : KeepsProgram s (exec i s) := by
  cases i with
  | mvs im => simp [exec, execMvs]
  | mvv k im => simp [exec, execMvv]
  | jmp im => simp [exec, execJmp]
  | jsr im => exact execJsr_keepsProgram im s
  | bzi im | bni im | bci im | bxi im => exact branchIf_keepsProgram _ im s
  | mvi d im => simp [exec, execMvi]
  | add rs d | sub rs d | adc rs d | sbc rs d | adi im d | sbi im d => exact finishArith_keepsProgram _ _ _ d _ s
  | and rs d | lor rs d | not rs d | xor rs d => exact finishLogic_keepsProgram d _ s
  | sll rs d | rol rs d | srl rs d | ror rs d => exact finishShift_keepsProgram _ rs d s
  | asb rs d | aib rs d => exact finishAluc_keepsProgram d _ _ s
  | amc rs d => exact finishAluc_keepsProgram d _ _ (s.setAmc _)
  | aic rs d => exact finishAluc_keepsProgram d _ _ (s.setAic _)
  | swd rs d => exact finishAluc_keepsProgram d _ _ (s.setSwd _)
  | gsp rs d => exact finishAluc_keepsProgram d _ _ (s.setGsp _)
  | gip rs d => exact finishAluc_keepsProgram d _ _ (s.setGip _)
  | mov rs d => simp [exec, execMov]
  | ldb p d => exact execLdb_keepsProgram p d s
  | lpb p d => exact execLpb_keepsProgram p d s
  | stb v p => exact execStb_keepsProgram v p s
  | spb v p => exact execSpb_keepsProgram v p s
  | ret => exact execRet_keepsProgram s
  | str => exact execStr_keepsProgram s
  | lsr => exact execLsr_keepsProgram s
  | rie p => simp [exec, execRie]
  | sie p => simp [exec, execSie]
  | hlt => simp [exec, execHlt]
  | rti => exact execRti_keepsProgram s
  | sys im => exact execSys_keepsProgram im s
  | psh rs => exact execPsh_keepsProgram rs s
  | pop d => exact execPop_keepsProgram d s

/-! The boundary and the step. -/

theorem State.stopped_iff (s : State) : s.stopped = true ↔ s.run = .idle ∨ s.run = .ended := by
  simp [State.stopped]

@[simp] theorem State.sample_pram (s : State) : s.sample.2.pram = s.pram := by
  unfold State.sample
  split <;> rfl

@[simp] theorem State.sample_run (s : State) : s.sample.2.run = s.run := by
  unfold State.sample
  split <;> rfl

/-- A step without a pin event: an interrupt entry, an instruction, or nothing. -/
theorem coreStep_keepsProgram (s : State) : KeepsProgram s (coreStep s) := by
  unfold coreStep
  cases s.run with
  | idle | ended => simp
  | running =>
    cases s.pendingInterrupt with
    | some k => simp
    | none => exact .andThen fun i _ => exec_keepsProgram i s
  | halted => cases s.pendingInterrupt <;> simp

theorem pinStart_eq_next {s t : State} (h : pinStart s = .next t) : s.stopped = true ∧ t = (s.setPc 0).setRun .running := by
  unfold pinStart at h
  split at h
  next hs =>
    cases h
    exact ⟨hs, rfl⟩
  next => cases h

/-- A loader's write of a program byte goes through only in a stopped core, at a cell that exists (R272). -/
theorem pinProgLoad_eq_next {a : ProgAddr} {v : Byte} {s t : State} (h : pinProgLoad a v s = .next t) :
    s.stopped = true ∧ a.toNat < s.params.pramSize ∧ t = s.setPram (s.pram.write a.toNat v) := by
  unfold pinProgLoad at h
  split at h
  next hs =>
    split at h
    next ha =>
      cases h
      exact ⟨hs, (s.inPram_iff a.toNat).1 ha, rfl⟩
    next => cases h
  next => cases h

theorem externalWrite_pram {a : DataAddr} {v : Byte} {s t : State} (h : externalWrite a v s = .next t) :
    t.pram = s.pram := by
  obtain ⟨-, -, -, rfl⟩ := (externalWrite_eq_next a v s t).1 h
  rfl

theorem pinDataLoad_eq_next {a : DataAddr} {v : Byte} {s t : State} (h : pinDataLoad a v s = .next t) :
    s.stopped = true ∧ externalWrite a v s = .next t := by
  unfold pinDataLoad at h
  split at h
  next hs => exact ⟨hs, h⟩
  next => cases h

@[simp] theorem pinDmaDone_pram (s : State) : (pinDmaDone s).pram = s.pram := by
  unfold pinDmaDone
  split
  · rfl
  · split <;> rfl

/-- Of the pins only the loader's program write, in a stopped core, reaches program memory (R70, R272). -/
theorem pinStep_pram {e : PinEvent} {s t : State} (h : pinStep e s = .next t) :
    t.pram = s.pram ∨ s.stopped = true ∧ ∃ a v, e = .progLoad a v := by
  cases e with
  | progLoad a v => exact .inr ⟨(pinProgLoad_eq_next h).1, a, v, rfl⟩
  | rst | busSel on =>
    cases h
    exact .inl rfl
  | start =>
    obtain ⟨-, rfl⟩ := pinStart_eq_next h
    exact .inl rfl
  | dataLoad a v => exact .inl (externalWrite_pram (pinDataLoad_eq_next h).2)
  | busWrite a v => exact .inl (externalWrite_pram h)
  | dmaDone =>
    cases h
    exact .inl (pinDmaDone_pram s)

/-- A step is the pin event sampled at its boundary, or without one the core's step. -/
theorem step_eq_next {s t : State} (h : step s = .next t) :
    (∃ e, s.sample.1 = some e ∧ pinStep e s.sample.2 = .next t)
      ∨ s.sample.1 = none ∧ coreStep s.sample.2 = .next t := by
  unfold step cycle at h
  split at h
  next e u hs => exact .inl ⟨e, by rw [hs], by rwa [hs]⟩
  next u hs => exact .inr ⟨by rw [hs], by rwa [hs]⟩

/-- A step keeps program memory, or is the loader's program write to a stopped core (R70). -/
theorem step_pram {s t : State} (h : step s = .next t) :
    t.pram = s.pram ∨ (s.run = .idle ∨ s.run = .ended) ∧ ∃ a v, s.sample.1 = some (.progLoad a v) := by
  rcases step_eq_next h with ⟨e, he, hpin⟩ | ⟨-, hcore⟩
  · rcases pinStep_pram hpin with hkept | ⟨hstop, a, v, rfl⟩
    · exact .inl (by simpa using hkept)
    · exact .inr ⟨by simpa using (State.stopped_iff _).1 hstop, a, v, he⟩
  · exact .inl (by simpa using coreStep_keepsProgram s.sample.2 t hcore)

/-- Settles O9: the loader's case is the only one of `step_pram` that changes program memory. -/
theorem onlyTheLoaderWritesProgram : Obligations.OnlyTheLoaderWritesProgram :=
  fun _ _ hstep hchanged => (step_pram hstep).resolve_left hchanged

/-- Settles O8: both reads, and `step_pram` in a core that is not stopped. -/
theorem progRead : Obligations.ProgRead := by
  refine fun s a => ⟨fun ha v hv => State.progRead_of_loaded ha hv, State.progRead_of_outOfRange, fun hrun t hstep => ?_⟩
  refine (step_pram hstep).resolve_right fun ⟨hstop, _⟩ => ?_
  rcases hrun with hrun | hrun <;> simp [hrun] at hstop

end Sys2Proof.Machine
end

section
/-! Encoding (30_encoding.md R93 to R96): the bytes an instruction is decoded from are its encoding, format by format and group
by group (R94), and a first byte of the reserved ranges ends the step in its fault (R93). -/

namespace Sys2Proof

/-! The fields of the bytes that were decoded. -/

theorem byteOf_of_hiNib {b : Byte} {o : BitVec 4} (h : hiNib b = o) : byteOf o (loNib b) = b := by
  rw [← h, byteOf_nibs]

/-- Format I12 with the immediate read from two bytes gives those bytes back (R85). -/
theorem encodeI12_im12 {o : BitVec 4} {b0 : Byte} (h : hiNib b0 = o) (b1 : Byte) : encodeI12 o (im12 b0 b1) = [b0, b1] := by
  have hhigh : (im12 b0 b1).extractLsb' 8 4 = loNib b0 := BitVec.extractLsb'_append_eq_left
  have hlow : (im12 b0 b1).extractLsb' 0 8 = b1 := BitVec.extractLsb'_append_eq_right
  rw [encodeI12, hhigh, hlow, byteOf_of_hiNib h]

/-- The formats of two nibble fields give the bytes back that the fields were read from (R81). -/
theorem encodeRR_nibs {o : BitVec 4} {b0 : Byte} (h : hiNib b0 = o) (b1 : Byte) :
    encodeRR o (loNib b0) (hiNib b1) (loNib b1) = [b0, b1] := by
  rw [encodeRR, byteOf_of_hiNib h, byteOf_nibs]

/-- The pair index of format PR is b1[6:4] (R84, R94). -/
theorem pairOf_hiNib (b : Byte) : pairOf (hiNib b) = b.extractLsb' 4 3 := by
  revert b
  decide

/-- In format PR the encoder writes the bits outside the pair index as zero (R94). -/
theorem byteOf_pairNib_zero (p : PairIdx) : byteOf (pairNib false p) 0 = p.setWidth 8 <<< 4 := by
  revert p
  decide

/-! What each decoder takes is the encoding of what it gives. -/

/-- `taken` is the encoding of `i`, or in rie and sie agrees with it in the bits that are not ignored (R94). -/
def TakenFor (taken : List Byte) (i : Instr) : Prop :=
  taken = encode i
    ∨ (∃ p b1, i = .rie p ∧ taken = [0xC6, b1] ∧ b1.extractLsb' 4 3 = p)
    ∨ ∃ p b1, i = .sie p ∧ taken = [0xC7, b1] ∧ b1.extractLsb' 4 3 = p

theorem encode_of_decodeOne {b0 : Byte} {i : Instr} (h : decodeOne b0 = some i) : encode i = [b0] := by
  unfold decodeOne at h
  split at h
  case h_1 hop =>
    split at h
    case h_6 => cases h
    case h_1 hop2 | h_2 hop2 | h_3 hop2 | h_4 hop2 | h_5 hop2 =>
      cases h
      rw [← byteOf_nibs b0, hop, hop2]
      rfl
  case h_2 hop | h_3 hop =>
    cases h
    exact congrArg ([·]) (byteOf_of_hiNib hop)
  case h_4 => cases h

theorem encode_of_decodeAlu {opc2 x y : BitVec 4} {i : Instr} (h : decodeAlu opc2 x y = some i) :
    encode i = encodeRR 0x9 opc2 x y := by
  unfold decodeAlu at h
  split at h <;> cases h <;> rfl

theorem encode_of_decodeAluc {opc2 x y : BitVec 4} {i : Instr} (h : decodeAluc opc2 x y = some i) :
    encode i = encodeRR 0xA opc2 x y := by
  unfold decodeAluc at h
  split at h <;> cases h <;> rfl

theorem takenFor_of_decodeGen1 {opc2 : BitVec 4} {b1 : Byte} {i : Instr} (h : decodeGen1 opc2 b1 = some i) :
    TakenFor [byteOf 0xC opc2, b1] i := by
  unfold decodeGen1 at h
  split at h <;> cases h
  case h_1 => exact .inl (by simp [encode, encodeRR])
  case h_2 =>
    have hn := pairNib_topBit_pairOf (hiNib b1)
    cases htop : topBit (hiNib b1) <;> rw [htop] at hn <;> exact .inl (by simp [encode, encodeRR, hn])
  case h_3 =>
    have hn := pairNib_topBit_pairOf (loNib b1)
    cases htop : topBit (loNib b1) <;> rw [htop] at hn <;> exact .inl (by simp [encode, encodeRR, hn])
  case h_4 => exact .inr (.inl ⟨_, b1, rfl, rfl, (pairOf_hiNib b1).symm⟩)
  case h_5 => exact .inr (.inr ⟨_, b1, rfl, rfl, (pairOf_hiNib b1).symm⟩)
  case h_6 => exact .inl rfl

theorem takenFor_of_decodeTwo {b0 b1 : Byte} {i : Instr} (h : decodeTwo b0 b1 = some i) : TakenFor [b0, b1] i := by
  unfold decodeTwo at h
  split at h
  case h_1 hop | h_3 hop | h_4 hop | h_5 hop | h_6 hop | h_7 hop | h_8 hop =>
    cases h
    exact .inl (encodeI12_im12 hop b1).symm
  case h_2 hop | h_9 hop =>
    cases h
    exact .inl (congrArg (· :: [b1]) (byteOf_of_hiNib hop).symm)
  case h_10 hop => exact .inl ((encode_of_decodeAlu h).trans (encodeRR_nibs hop b1)).symm
  case h_11 hop => exact .inl ((encode_of_decodeAluc h).trans (encodeRR_nibs hop b1)).symm
  case h_12 hop => exact byteOf_of_hiNib hop ▸ takenFor_of_decodeGen1 h
  case h_13 => cases h

/-- A decoded instruction comes from one byte or from two, and the rest is left over (R95). -/
theorem decode_eq_ok {bytes rest : List Byte} {i : Instr} (h : decode bytes = .ok (i, rest)) :
    (∃ b0, bytes = [b0] ++ rest ∧ decodeOne b0 = some i) ∨ ∃ b0 b1, bytes = [b0, b1] ++ rest ∧ decodeTwo b0 b1 = some i := by
  unfold decode at h
  split at h
  next => cases h
  next b0 tail =>
    split at h
    next => cases h
    next =>
      split at h
      next hone =>
        cases h
        exact .inl ⟨b0, rfl, hone⟩
      next => cases h
    next =>
      split at h
      next => cases h
      next b1 tail' =>
        split at h
        next htwo =>
          cases h
          exact .inr ⟨b0, b1, rfl, htwo⟩
        next => cases h

/-- Decoding takes an encoding off the front of the bytes (R94). -/
theorem decode_takes {bytes rest : List Byte} {i : Instr} (h : decode bytes = .ok (i, rest)) :
    ∃ taken, bytes = taken ++ rest ∧ TakenFor taken i := by
  rcases decode_eq_ok h with ⟨b0, hbytes, hone⟩ | ⟨b0, b1, hbytes, htwo⟩
  · exact ⟨[b0], hbytes, .inl (encode_of_decodeOne hone).symm⟩
  · exact ⟨[b0, b1], hbytes, takenFor_of_decodeTwo htwo⟩

/-- rie reads the pair index alone from b1, whatever the bits around it are (R94). -/
theorem decode_rie (b1 : Byte) (rest : List Byte) : decode (0xC6 :: b1 :: rest) = .ok (.rie (b1.extractLsb' 4 3), rest) := by
  rw [← pairOf_hiNib]
  rfl

/-- sie reads the pair index alone from b1, whatever the bits around it are (R94). -/
theorem decode_sie (b1 : Byte) (rest : List Byte) : decode (0xC7 :: b1 :: rest) = .ok (.sie (b1.extractLsb' 4 3), rest) := by
  rw [← pairOf_hiNib]
  rfl

theorem encode_rie (p : PairIdx) : encode (.rie p) = [0xC6#8, p.setWidth 8 <<< 4] := by
  rw [← byteOf_pairNib_zero]
  rfl

theorem encode_sie (p : PairIdx) : encode (.sie p) = [0xC7#8, p.setWidth 8 <<< 4] := by
  rw [← byteOf_pairNib_zero]
  rfl

/-- Settles O2: `decode_takes`, and both formats PR from their bytes and to them. -/
theorem encodeDecode : Obligations.EncodeDecode :=
  ⟨fun _ _ _ => decode_takes, fun b1 rest => ⟨decode_rie b1 rest, decode_sie b1 rest⟩, fun p => ⟨encode_rie p, encode_sie p⟩⟩

/-! Reserved first bytes. -/

/-- The first bytes that have no length are exactly those of the reserved ranges (R93). -/
theorem lengthOf_eq_none_iff (b0 : Byte) :
    lengthOf b0 = none ↔
      (0xB0 ≤ b0.toNat ∧ b0.toNat ≤ 0xBF ∨ 0xF0 ≤ b0.toNat ∨ b0 = 0x98 ∨ b0 = 0x99 ∨ 0xCA ≤ b0.toNat ∧ b0.toNat ≤ 0xCE
        ∨ 0xA7 ≤ b0.toNat ∧ b0.toNat ≤ 0xAF) := by
  revert b0
  decide

theorem decode_of_reserved {b0 : Byte} (h : lengthOf b0 = none) (rest : List Byte) :
    decode (b0 :: rest) = .error (.reserved b0) := by
  simp only [decode, h]

end Sys2Proof

namespace Sys2Proof.Machine

theorem decodeAnswer_of_reserved {b0 : Byte} (h : lengthOf b0 = none) (rest : List Byte) :
    decodeAnswer (b0 :: rest) = .fault (.reservedEncoding b0) := by
  simp only [decodeAnswer, decode_of_reserved h]

/-- A reserved first byte ends the fetch before any other byte is read (R93). -/
theorem State.fetch_of_reserved {s : State} {b0 : Byte} (hread : s.progRead s.pc = .next b0) (h : lengthOf b0 = none) :
    s.fetch = .fault (.reservedEncoding b0) := by
  simp only [State.fetch, hread, andThen_next, h, decodeAnswer_of_reserved h]

/-- At a boundary without a pin event the step is the core's (R235). -/
theorem step_of_sample_none {s u : State} (h : s.sample = (none, u)) : step s = coreStep u := by
  simp only [step, cycle, h]

/-- A running core with no interrupt to take runs the instruction at pc (R235). -/
theorem coreStep_running {s : State} (hrun : s.run = .running) (hint : s.pendingInterrupt = none) :
    coreStep s = andThen s.fetch fun i => exec i s := by
  simp only [coreStep, hrun, hint, runInstruction]

/-- Settles O4: the byte has no length, so the fetch of the sampled state ends in the fault. -/
theorem reservedEncodingsFault : Obligations.ReservedEncodingsFault := by
  intro s u b0 hsample hrun hint hread hreserved
  have hlen : lengthOf b0 = none := (lengthOf_eq_none_iff b0).2 hreserved
  rw [step_of_sample_none hsample, coreStep_running hrun hint, State.fetch_of_reserved hread hlen, andThen_fault]

end Sys2Proof.Machine
end

section
/-! Interrupts (60_exceptions.md R234 to R236): what a boundary takes, what the core's step makes of it, and the return. -/

namespace Sys2Proof.Machine

/-! The interrupt a boundary takes. -/

/-- With one in service no request counts, whatever lines are high (R236). -/
theorem State.pendingInterrupt_of_inService {s : State} (h : s.isr = true) : s.pendingInterrupt = none :=
  if_pos h

/-- With none in service an effective request is taken (R234). -/
theorem State.exists_pendingInterrupt {s : State} (hisr : s.isr = false) (hreq : s.req ≠ 0) :
    ∃ k, s.pendingInterrupt = some k := by
  rw [← Option.ne_none_iff_exists', State.pendingInterrupt, hisr]
  exact mt (lowestSet_eq_none s.req).1 hreq

/-! The core's step at a boundary. -/

/-- A halted core with no interrupt to take waits (R245). -/
theorem coreStep_halted {s : State} (hrun : s.run = .halted) (hint : s.pendingInterrupt = none) : coreStep s = .next s := by
  simp only [coreStep, hrun, hint]

/-- A running and a halted core alike enter the interrupt that the boundary takes (R235, R245). -/
theorem coreStep_enters {s : State} {k : IntNum} (hrun : s.run = .running ∨ s.run = .halted)
    (hint : s.pendingInterrupt = some k) : coreStep s = .next (s.takeInterrupt k) := by
  rcases hrun with hrun | hrun <;> simp only [coreStep, hrun, hint]

/-! The return. -/

/-- rti goes through only with an interrupt in service, and then it is the return (R201). -/
theorem execRti_eq_next {s t : State} (h : execRti s = .next t) : s.isr = true ∧ t = s.returnFromInterrupt := by
  unfold execRti at h
  split at h
  next hisr =>
    cases h
    exact ⟨hisr, rfl⟩
  next => cases h

/-- Settles O13: nothing is pending in service, an entry is `takeInterrupt`, and rti is `returnFromInterrupt`. -/
theorem noEntryInService : Obligations.NoEntryInService := by
  intro s u hsample
  rw [step_of_sample_none hsample]
  refine ⟨fun hisr => ?inService, fun t hisr hrun hreq hstep => ?entry, fun t hrti => ?rti⟩
  case inService =>
    have hint := State.pendingInterrupt_of_inService hisr
    exact ⟨fun hrun => coreStep_running hrun hint, fun hrun => coreStep_halted hrun hint⟩
  case entry =>
    obtain ⟨k, hint⟩ := State.exists_pendingInterrupt hisr hreq
    rw [coreStep_enters hrun hint] at hstep
    cases hstep
    exact ⟨u.takeInterrupt_isr k, u.takeInterrupt_ie k, u.takeInterrupt_ibus k⟩
  case rti =>
    obtain ⟨-, rfl⟩ := execRti_eq_next hrti
    exact ⟨u.returnFromInterrupt_isr, u.returnFromInterrupt_ie⟩

end Sys2Proof.Machine
end

section
/-! Pins (70_reset_and_hazards.md R270 to R274): the step at a boundary with a pin event, and what `start` leaves unchanged. -/

namespace Sys2Proof.Machine

/-- At a boundary with a pin event (R36, R270) the step is what the pin does. -/
theorem step_of_sample_some {s u : State} {e : PinEvent} (h : s.sample = (some e, u)) : step s = pinStep e u := by
  simp only [step, cycle, h]

/-- `start` goes through in every stopped core (R274). -/
theorem pinStart_of_stopped {s : State} (h : s.stopped = true) : pinStart s = .next ((s.setPc 0).setRun .running) :=
  if_pos h

/-! The frames of a new pc and a new run state, the two things that `start` writes. -/

theorem State.sameInterrupts_setPc_setRun (s : State) (a : ProgAddr) (r : RunState) :
    SameInterrupts s ((s.setPc a).setRun r) := by
  simp [SameInterrupts]

theorem State.sameIses_setPc_setRun (s : State) (a : ProgAddr) (r : RunState) : SameIses s ((s.setPc a).setRun r) := by
  simp [SameIses]

theorem State.sameMemories_setPc_setRun (s : State) (a : ProgAddr) (r : RunState) :
    SameMemories s ((s.setPc a).setRun r) := by
  simp [SameMemories]

/-- Settles O24: the step is `pinStart` of a stopped core, and the frames of its two updates say what stays. -/
theorem startPin : Obligations.StartPin := by
  intro s u hsample hrun
  have hstep : step s = .next ((u.setPc 0).setRun .running) := by
    rw [step_of_sample_some hsample]
    exact pinStart_of_stopped (u.stopped_iff.2 hrun)
  exact ⟨_, hstep, by
    simp [State.sameInterrupts_setPc_setRun, State.sameIses_setPc_setRun, State.sameMemories_setPc_setRun]⟩

end Sys2Proof.Machine
end

section
/-! The round trip of the encoding and the opcode table (30_encoding.md R80 to R96): decoding takes an encoded instruction off the
front of the bytes again, and the table's rows are the decoder's cases. -/

namespace Sys2Proof

/-! The decoder, given what the first byte says of the length (R95). -/

theorem decode_of_one {b0 : Byte} {i : Instr} (hlen : lengthOf b0 = some 1) (h : decodeOne b0 = some i) (rest : List Byte) :
    decode (b0 :: rest) = .ok (i, rest) := by
  simp only [decode, hlen, h]

theorem decode_of_two {b0 b1 : Byte} {i : Instr} (hlen : lengthOf b0 = some 2) (h : decodeTwo b0 b1 = some i)
    (rest : List Byte) : decode (b0 :: b1 :: rest) = .ok (i, rest) := by
  simp only [decode, hlen, h]

/-- Format I12 (R85): the opcode and the twelve bits of the immediate are read back from the two bytes. -/
theorem decode_encodeI12 {o : BitVec 4} {im : BitVec 12} {i : Instr} (hlen : ∀ n, lengthOf (byteOf o n) = some 2)
    (h : ∀ b0 b1, hiNib b0 = o → im12 b0 b1 = im → decodeTwo b0 b1 = some i) (rest : List Byte) :
    decode (encodeI12 o im ++ rest) = .ok (i, rest) :=
  decode_of_two (hlen _) (h _ _ (hiNib_byteOf _ _) (im12_parts o im)) rest

/-- Formats of a nibble and a byte (R81): the nibble is the lower half of the first byte. -/
theorem decode_nibbleAndByte {o n : BitVec 4} {b1 : Byte} {i : Instr} (hlen : lengthOf (byteOf o n) = some 2)
    (h : decodeTwo (byteOf o n) b1 = some i) (rest : List Byte) : decode ([byteOf o n, b1] ++ rest) = .ok (i, rest) :=
  decode_of_two hlen h rest

/-- Formats of two nibble fields (R81, R90 to R92): the first byte is the opcode pair, the second the fields. -/
theorem decode_encodeRR {o o2 x y : BitVec 4} {i : Instr} (hlen : lengthOf (byteOf o o2) = some 2)
    (h : ∀ b1, hiNib b1 = x → loNib b1 = y → decodeTwo (byteOf o o2) b1 = some i) (rest : List Byte) :
    decode (encodeRR o o2 x y ++ rest) = .ok (i, rest) :=
  decode_of_two hlen (h _ (hiNib_byteOf x y) (loNib_byteOf x y)) rest

/-- Settles O1: each format's fields are read back from the bytes they were written to. -/
theorem decodeEncode : Obligations.DecodeEncode := by
  intro i rest
  cases i with
  | mvs im | jmp im | jsr im | bzi im | bni im | bci im | bxi im =>
    exact decode_encodeI12 (fun n => by simp [lengthOf]) (fun b0 b1 ho him => by simp [decodeTwo, ho, him]) rest
  | mvv k im | mvi d im => exact decode_nibbleAndByte (by simp [lengthOf]) (by simp [decodeTwo]) rest
  | add s d | sub s d | and s d | lor s d | sll s d | rol s d | srl s d | ror s d | not s d | xor s d | adc s d | sbc s d
  | adi im d | sbi im d =>
    exact decode_encodeRR rfl (fun b1 hx hy => by simp [decodeTwo, decodeAlu, hx, hy]) rest
  | asb s d | aib s d | amc s d | aic s d | swd s d | gsp s d | gip s d =>
    exact decode_encodeRR rfl (fun b1 hx hy => by simp [decodeTwo, decodeAluc, hx, hy]) rest
  | mov s d | ldb i d | lpb i d | stb v i | spb v i | rie i | sie i =>
    exact decode_encodeRR rfl (fun b1 hx hy => by simp [decodeTwo, decodeGen1, hx, hy]) rest
  | sys im => exact decode_of_two rfl rfl rest
  | ret | str | lsr | hlt | rti => exact decode_of_one rfl rfl rest
  | psh s | pop d => exact decode_of_one (by simp [lengthOf]) (by simp [decodeOne]) rest

/-! The opcode table: what it means for a row of each mask to match (R96). -/

/-- The mask of a two-byte row acts on the two bytes by themselves. -/
theorem and_twoBytes (x y m n : Nat) (hy : y < 256) (hn : n < 256) :
    (256 * x + y) &&& (256 * m + n) = 256 * (x &&& m) + (y &&& n) := by
  have hlt : y &&& n < 256 := Nat.lt_of_le_of_lt Nat.and_le_left hy
  apply Nat.eq_of_testBit_eq
  intro j
  simp only [Nat.testBit_and, show 256 = 2 ^ 8 from rfl] at *
  simp only [Nat.testBit_two_pow_mul_add _ hy, Nat.testBit_two_pow_mul_add _ hn, Nat.testBit_two_pow_mul_add _ hlt]
  split <;> simp

theorem and_highNibble (b : Byte) : b.toNat &&& 0xF0 = 16 * (hiNib b).toNat := by
  revert b
  decide

theorem and_allBits (b : Byte) : b.toNat &&& 0xFF = b.toNat := by
  revert b
  decide

theorem and_bit7 (b : Byte) : b.toNat &&& 0x80 = if topBit (hiNib b) then 0x80 else 0 := by
  revert b
  decide

theorem and_bit3 (b : Byte) : b.toNat &&& 0x08 = if topBit (loNib b) then 0x08 else 0 := by
  revert b
  decide

/-- A two-byte row matches when each byte does under its half of the mask. -/
theorem rowMatches_two (b0 b1 : Byte) (name : String) (m n p q : Nat) (hn : n < 256) (hq : q < 256) :
    rowMatches b0 b1 ⟨name, 2, 256 * m + n, 256 * p + q⟩ = true ↔ b0.toNat &&& m = p ∧ b1.toNat &&& n = q := by
  have hlt : b1.toNat &&& n < 256 := Nat.lt_of_le_of_lt Nat.and_le_left b1.isLt
  simp only [rowMatches, OfNat.ofNat_ne_one, if_false, and_twoBytes _ _ _ _ b1.isLt hn, beq_iff_eq]
  omega

theorem rowMatches_opc1 (b0 b1 : Byte) (name : String) (o : BitVec 4) :
    rowMatches b0 b1 ⟨name, 2, 0xF000, 0x1000 * o.toNat⟩ = true ↔ hiNib b0 = o := by
  have h := rowMatches_two b0 b1 name 0xF0 0 (0x10 * o.toNat) 0 (by decide) (by decide)
  rw [and_highNibble, Nat.and_zero, ← Nat.mul_assoc] at h
  rw [← BitVec.toNat_inj]
  exact h.trans (by omega)

theorem rowMatches_opc2 (b0 b1 : Byte) (name : String) (b : Byte) :
    rowMatches b0 b1 ⟨name, 2, 0xFF00, 0x100 * b.toNat⟩ = true ↔ b0 = b := by
  have h := rowMatches_two b0 b1 name 0xFF 0 b.toNat 0 (by decide) (by decide)
  rw [and_allBits, Nat.and_zero] at h
  rw [← BitVec.toNat_inj]
  exact h.trans (by omega)

theorem rowMatches_load (b0 b1 : Byte) (name : String) (post : Bool) :
    rowMatches b0 b1 ⟨name, 2, 0xFF80, 0xC100 + if post then 0x80 else 0⟩ = true ↔
      b0 = 0xC1 ∧ topBit (hiNib b1) = post := by
  have h := rowMatches_two b0 b1 name 0xFF 0x80 0xC1 (if post then 0x80 else 0) (by decide) (by split <;> decide)
  rw [and_allBits, and_bit7] at h
  rw [← BitVec.toNat_inj]
  exact h.trans (and_congr_right fun _ => by cases topBit (hiNib b1) <;> cases post <;> decide)

theorem rowMatches_store (b0 b1 : Byte) (name : String) (post : Bool) :
    rowMatches b0 b1 ⟨name, 2, 0xFF08, 0xC200 + if post then 0x08 else 0⟩ = true ↔
      b0 = 0xC2 ∧ topBit (loNib b1) = post := by
  have h := rowMatches_two b0 b1 name 0xFF 0x08 0xC2 (if post then 0x08 else 0) (by decide) (by split <;> decide)
  rw [and_allBits, and_bit3] at h
  rw [← BitVec.toNat_inj]
  exact h.trans (and_congr_right fun _ => by cases topBit (loNib b1) <;> cases post <;> decide)

theorem rowMatches_byte (b0 b1 : Byte) (name : String) (b : Byte) :
    rowMatches b0 b1 ⟨name, 1, 0xFF, b.toNat⟩ = true ↔ b0 = b := by
  simp only [rowMatches, if_true, and_allBits, beq_iff_eq, BitVec.toNat_inj]

theorem rowMatches_nibble (b0 b1 : Byte) (name : String) (o : BitVec 4) :
    rowMatches b0 b1 ⟨name, 1, 0xF0, 0x10 * o.toNat⟩ = true ↔ hiNib b0 = o := by
  simp only [rowMatches, if_true, and_highNibble, beq_iff_eq, ← BitVec.toNat_inj]
  omega

/-! A row that matches names the decoded instruction. -/

/-- If the row matches, the decoder gives an instruction of the row's name and length. -/
def RowDecodes (b0 b1 : Byte) (rest : List Byte) (r : OpcodeRow) : Prop :=
  rowMatches b0 b1 r = true →
    ∃ i, decode (b0 :: b1 :: rest) = .ok (i, if r.length = 1 then b1 :: rest else rest) ∧ i.mnemonic = r.mnemonic

variable (b0 b1 : Byte) (rest : List Byte)

theorem rowDecodes_opc1 {name : String} {o : BitVec 4}
    (h : hiNib b0 = o → ∃ i, lengthOf b0 = some 2 ∧ decodeTwo b0 b1 = some i ∧ i.mnemonic = name) :
    RowDecodes b0 b1 rest ⟨name, 2, 0xF000, 0x1000 * o.toNat⟩ := by
  intro hm
  obtain ⟨i, hlen, hi, hname⟩ := h ((rowMatches_opc1 b0 b1 name o).1 hm)
  exact ⟨i, decode_of_two hlen hi rest, hname⟩

theorem rowDecodes_opc2 (name : String) (b : Byte)
    (h : ∃ i, lengthOf b = some 2 ∧ decodeTwo b b1 = some i ∧ i.mnemonic = name) :
    RowDecodes b0 b1 rest ⟨name, 2, 0xFF00, 0x100 * b.toNat⟩ := by
  intro hm
  obtain rfl := (rowMatches_opc2 b0 b1 name b).1 hm
  obtain ⟨i, hlen, hi, hname⟩ := h
  exact ⟨i, decode_of_two hlen hi rest, hname⟩

theorem rowDecodes_load (name : String) (post : Bool)
    (h : topBit (hiNib b1) = post → ∃ i, decodeTwo 0xC1 b1 = some i ∧ i.mnemonic = name) :
    RowDecodes b0 b1 rest ⟨name, 2, 0xFF80, 0xC100 + if post then 0x80 else 0⟩ := by
  intro hm
  obtain ⟨rfl, htop⟩ := (rowMatches_load b0 b1 name post).1 hm
  obtain ⟨i, hi, hname⟩ := h htop
  exact ⟨i, decode_of_two rfl hi rest, hname⟩

theorem rowDecodes_store (name : String) (post : Bool)
    (h : topBit (loNib b1) = post → ∃ i, decodeTwo 0xC2 b1 = some i ∧ i.mnemonic = name) :
    RowDecodes b0 b1 rest ⟨name, 2, 0xFF08, 0xC200 + if post then 0x08 else 0⟩ := by
  intro hm
  obtain ⟨rfl, htop⟩ := (rowMatches_store b0 b1 name post).1 hm
  obtain ⟨i, hi, hname⟩ := h htop
  exact ⟨i, decode_of_two rfl hi rest, hname⟩

theorem rowDecodes_byte (name : String) (b : Byte)
    (h : ∃ i, lengthOf b = some 1 ∧ decodeOne b = some i ∧ i.mnemonic = name) :
    RowDecodes b0 b1 rest ⟨name, 1, 0xFF, b.toNat⟩ := by
  intro hm
  obtain rfl := (rowMatches_byte b0 b1 name b).1 hm
  obtain ⟨i, hlen, hi, hname⟩ := h
  exact ⟨i, decode_of_one hlen hi (b1 :: rest), hname⟩

theorem rowDecodes_nibble (name : String) (o : BitVec 4)
    (h : hiNib b0 = o → ∃ i, lengthOf b0 = some 1 ∧ decodeOne b0 = some i ∧ i.mnemonic = name) :
    RowDecodes b0 b1 rest ⟨name, 1, 0xF0, 0x10 * o.toNat⟩ := by
  intro hm
  obtain ⟨i, hlen, hi, hname⟩ := h ((rowMatches_nibble b0 b1 name o).1 hm)
  exact ⟨i, decode_of_one hlen hi (b1 :: rest), hname⟩

theorem rowDecodes_opcodeRows1 : ∀ r ∈ opcodeRows1, RowDecodes b0 b1 rest r := by
  simp only [opcodeRows1, List.forall_mem_cons]
  refine ⟨rowDecodes_opc1 _ _ _ (o := 0x0) ?mvs, rowDecodes_opc1 _ _ _ (o := 0x2) ?jmp, rowDecodes_opc1 _ _ _ (o := 0x3) ?jsr,
    rowDecodes_opc1 _ _ _ (o := 0x4) ?bzi, rowDecodes_opc1 _ _ _ (o := 0x5) ?bni, rowDecodes_opc1 _ _ _ (o := 0x6) ?bci,
    rowDecodes_opc1 _ _ _ (o := 0x7) ?bxi, rowDecodes_opc1 _ _ _ (o := 0x1) ?mvv, rowDecodes_opc1 _ _ _ (o := 0x8) ?mvi,
    rowDecodes_opc2 _ _ _ _ 0x90 ⟨_, rfl, rfl, rfl⟩, rowDecodes_opc2 _ _ _ _ 0x91 ⟨_, rfl, rfl, rfl⟩,
    rowDecodes_opc2 _ _ _ _ 0x92 ⟨_, rfl, rfl, rfl⟩, rowDecodes_opc2 _ _ _ _ 0x93 ⟨_, rfl, rfl, rfl⟩,
    rowDecodes_opc2 _ _ _ _ 0x94 ⟨_, rfl, rfl, rfl⟩, rowDecodes_opc2 _ _ _ _ 0x95 ⟨_, rfl, rfl, rfl⟩, List.forall_mem_nil _⟩
  all_goals exact fun ho => by simp [ho, lengthOf, decodeTwo, Instr.mnemonic]

theorem rowDecodes_opcodeRows2 : ∀ r ∈ opcodeRows2, RowDecodes b0 b1 rest r := by
  simp only [opcodeRows2, List.forall_mem_cons]
  exact ⟨rowDecodes_opc2 _ _ _ _ 0x96 ⟨_, rfl, rfl, rfl⟩, rowDecodes_opc2 _ _ _ _ 0x97 ⟨_, rfl, rfl, rfl⟩,
    rowDecodes_opc2 _ _ _ _ 0x9A ⟨_, rfl, rfl, rfl⟩, rowDecodes_opc2 _ _ _ _ 0x9B ⟨_, rfl, rfl, rfl⟩,
    rowDecodes_opc2 _ _ _ _ 0x9C ⟨_, rfl, rfl, rfl⟩, rowDecodes_opc2 _ _ _ _ 0x9D ⟨_, rfl, rfl, rfl⟩,
    rowDecodes_opc2 _ _ _ _ 0x9E ⟨_, rfl, rfl, rfl⟩, rowDecodes_opc2 _ _ _ _ 0x9F ⟨_, rfl, rfl, rfl⟩,
    rowDecodes_opc2 _ _ _ _ 0xA0 ⟨_, rfl, rfl, rfl⟩, rowDecodes_opc2 _ _ _ _ 0xA1 ⟨_, rfl, rfl, rfl⟩,
    rowDecodes_opc2 _ _ _ _ 0xA2 ⟨_, rfl, rfl, rfl⟩, rowDecodes_opc2 _ _ _ _ 0xA3 ⟨_, rfl, rfl, rfl⟩,
    rowDecodes_opc2 _ _ _ _ 0xA4 ⟨_, rfl, rfl, rfl⟩, rowDecodes_opc2 _ _ _ _ 0xA5 ⟨_, rfl, rfl, rfl⟩,
    rowDecodes_opc2 _ _ _ _ 0xA6 ⟨_, rfl, rfl, rfl⟩, List.forall_mem_nil _⟩

theorem rowDecodes_opcodeRows3 : ∀ r ∈ opcodeRows3, RowDecodes b0 b1 rest r := by
  simp only [opcodeRows3, List.forall_mem_cons]
  refine ⟨rowDecodes_opc2 _ _ _ _ 0xC0 ⟨_, rfl, rfl, rfl⟩, rowDecodes_load _ _ _ _ false ?ldb,
    rowDecodes_load _ _ _ _ true ?lpb, rowDecodes_store _ _ _ _ false ?stb, rowDecodes_store _ _ _ _ true ?spb,
    rowDecodes_byte _ _ _ _ 0xC3 ⟨_, rfl, rfl, rfl⟩, rowDecodes_byte _ _ _ _ 0xC4 ⟨_, rfl, rfl, rfl⟩,
    rowDecodes_byte _ _ _ _ 0xC5 ⟨_, rfl, rfl, rfl⟩, rowDecodes_opc2 _ _ _ _ 0xC6 ⟨_, rfl, rfl, rfl⟩,
    rowDecodes_opc2 _ _ _ _ 0xC7 ⟨_, rfl, rfl, rfl⟩, rowDecodes_byte _ _ _ _ 0xC8 ⟨_, rfl, rfl, rfl⟩,
    rowDecodes_byte _ _ _ _ 0xC9 ⟨_, rfl, rfl, rfl⟩, rowDecodes_opc2 _ _ _ _ 0xCF ⟨_, rfl, rfl, rfl⟩,
    rowDecodes_nibble _ _ _ _ 0xD ?psh, rowDecodes_nibble _ _ _ _ 0xE ?pop, List.forall_mem_nil _⟩
  case ldb | lpb => exact fun htop => ⟨_, rfl, by rw [htop]; rfl⟩
  case stb | spb => exact fun htop => ⟨_, rfl, by rw [htop]; rfl⟩
  case psh | pop => exact fun ho => by simp [ho, lengthOf, decodeOne, Instr.mnemonic]

theorem rowDecodes_opcodeRows : ∀ r ∈ opcodeRows, RowDecodes b0 b1 rest r := by
  simp only [opcodeRows, List.forall_mem_append]
  exact ⟨⟨rowDecodes_opcodeRows1 b0 b1 rest, rowDecodes_opcodeRows2 b0 b1 rest⟩, rowDecodes_opcodeRows3 b0 b1 rest⟩

/-! Two rows that match are one, and bytes with an instruction match one. -/

/-- No two rows share a mnemonic. -/
theorem nodup_mnemonics : (opcodeRows.map OpcodeRow.mnemonic).Nodup := by
  decide +kernel

theorem row_unique {r r' : OpcodeRow} (hr : r ∈ opcodeRows) (hr' : r' ∈ opcodeRows) (h : rowMatches b0 b1 r = true)
    (h' : rowMatches b0 b1 r' = true) : r' = r := by
  obtain ⟨i, hi, hname⟩ := rowDecodes_opcodeRows b0 b1 [] r hr h
  obtain ⟨i', hi', hname'⟩ := rowDecodes_opcodeRows b0 b1 [] r' hr' h'
  obtain ⟨rfl, -⟩ := Prod.mk.inj (Except.ok.inj (hi.symm.trans hi'))
  exact List.inj_on_of_nodup_map nodup_mnemonics hr' hr (hname'.symm.trans hname)

/-- Every first byte that is not reserved has its row, which then looks at that byte alone, but for the loads and stores. -/
theorem exists_row_of_length (h : lengthOf b0 ≠ none) :
    b0 = 0xC1 ∨ b0 = 0xC2 ∨ ∃ r ∈ opcodeRows,
      r.length = 2 ∧ r.mask = 0xF000 ∧ r.pattern = 0x1000 * (hiNib b0).toNat
        ∨ r.length = 2 ∧ r.mask = 0xFF00 ∧ r.pattern = 0x100 * b0.toNat
        ∨ r.length = 1 ∧ r.mask = 0xFF ∧ r.pattern = b0.toNat
        ∨ r.length = 1 ∧ r.mask = 0xF0 ∧ r.pattern = 0x10 * (hiNib b0).toNat := by
  revert b0
  decide +kernel

theorem exists_row_matches (h : lengthOf b0 ≠ none) : ∃ r ∈ opcodeRows, rowMatches b0 b1 r = true := by
  rcases exists_row_of_length b0 h with rfl | rfl | ⟨⟨name, _, _, _⟩, hr, hmatch⟩
  · cases htop : topBit (hiNib b1)
    · exact ⟨_, by decide +kernel, (rowMatches_load _ _ "ldb" false).2 ⟨rfl, htop⟩⟩
    · exact ⟨_, by decide +kernel, (rowMatches_load _ _ "lpb" true).2 ⟨rfl, htop⟩⟩
  · cases htop : topBit (loNib b1)
    · exact ⟨_, by decide +kernel, (rowMatches_store _ _ "stb" false).2 ⟨rfl, htop⟩⟩
    · exact ⟨_, by decide +kernel, (rowMatches_store _ _ "spb" true).2 ⟨rfl, htop⟩⟩
  · refine ⟨_, hr, ?_⟩
    rcases hmatch with ⟨rfl, rfl, rfl⟩ | ⟨rfl, rfl, rfl⟩ | ⟨rfl, rfl, rfl⟩ | ⟨rfl, rfl, rfl⟩
    · exact (rowMatches_opc1 b0 b1 name _).2 rfl
    · exact (rowMatches_opc2 b0 b1 name _).2 rfl
    · exact (rowMatches_byte b0 b1 name _).2 rfl
    · exact (rowMatches_nibble b0 b1 name _).2 rfl

/-- Settles O3: a matching row decodes, matching rows share their mnemonic, and bytes without a row have no length. -/
theorem decodeAgreesWithOpcodeTable : Obligations.DecodeAgreesWithOpcodeTable := by
  refine fun b0 b1 rest => ⟨fun r hr h => ⟨rowDecodes_opcodeRows b0 b1 rest r hr h, fun r' hr' h' => ?unique⟩, fun hnone => ?none⟩
  case unique => exact row_unique b0 b1 hr hr' h h'
  case none =>
    refine decode_of_reserved ?_ (b1 :: rest)
    by_contra hlen
    obtain ⟨r, hr, h⟩ := exists_row_matches b0 b1 hlen
    simp [hnone r hr] at h

/-- Settles O5: each word is closed, and the decoder computes its instruction. -/
theorem specWordsDecode : Obligations.SpecWordsDecode :=
  ⟨rfl, rfl, rfl, rfl, rfl, rfl, rfl, rfl, rfl, rfl⟩

end Sys2Proof
end

section
/-! What an instruction can do (R8 to R33): `exec_effect` says once, field by field, which parts of the state each instruction
may write. The writers of each register and the invariant follow from it. -/

namespace Sys2Proof.Machine

/-! The invariant depends on the parameters, the memories and the DMA controller. -/

theorem State.Inv.congr {s t : State} (h : s.Inv) (hparams : t.params = s.params) (hpram : t.pram = s.pram)
    (hdram : t.dram = s.dram) (hdma : t.dma = s.dma) : t.Inv := by
  obtain ⟨hp, hpw, hpb, hdw, hdb, hthere, hdone, hlegal⟩ := h
  refine ⟨?_, ?_, ?_, ?_, ?_, ?_, ?_, ?_⟩ <;> simpa only [dmaBlocksLegal, hparams, hpram, hdram, hdma]

theorem State.Inv.setDram {s : State} {m : Memory} (h : s.Inv) (hwf : m.wf = true)
    (hbelow : Memory.below s.params.dramSize m = true) : (s.setDram m).Inv :=
  ⟨h.params, h.pramWf, h.pramBelow, hwf, hbelow, h.dmaThere, h.dmaDone, h.dmaLegal⟩

theorem State.Inv.setPram {s : State} {m : Memory} (h : s.Inv) (hwf : m.wf = true)
    (hbelow : Memory.below s.params.pramSize m = true) : (s.setPram m).Inv :=
  ⟨h.params, hwf, hbelow, h.dramWf, h.dramBelow, h.dmaThere, h.dmaDone, h.dmaLegal⟩

/-- A change of the DMA controller that leaves it idle, or with a legal transfer, keeps the invariant (R254, R255). -/
theorem State.Inv.setDma {s : State} {d : Dma} (h : s.Inv)
    (hthere : d.phase ≠ .idle ∨ d.irq = true → s.params.dma.isSome = true) (hdone : d.phase = .done → d.irq = true)
    (hlegal : ∀ p, s.params.dma = some p → d.phase = .busy → dmaBlocksLegal (s.setDma d) p = true) : (s.setDma d).Inv :=
  ⟨h.params, h.pramWf, h.pramBelow, h.dramWf, h.dramBelow, hthere, hdone, hlegal⟩

/-- A DRAM write inside the memory keeps the invariant. -/
theorem State.Inv.writeDram {s : State} (h : s.Inv) {a : Nat} (ha : s.inDram a = true) (v : Byte) :
    (s.setDram (s.dram.write a v)).Inv :=
  h.setDram (Memory.wf_write _ _ _ h.dramWf) (Memory.below_write _ _ _ _ h.dramBelow ((s.inDram_iff a).1 ha))

/-! Stores. -/

/-- What a store does to the DMA controller: it starts a legal transfer, or it changes the transfer's registers only (R254). -/
theorem dmaSees_cases {s t : State} {a : Nat} {v : Byte} (h : dmaSees s a v = .next t) :
    (∃ p, s.params.dma = some p ∧ dmaBlocksLegal s p = true ∧ t = s.setDma { s.dma with phase := .busy })
      ∨ ∃ src dst count, t = s.setDma { s.dma with src := src, dst := dst, count := count } := by
  unfold dmaSees at h
  split at h
  next =>
    cases h
    exact .inr ⟨_, _, _, rfl⟩
  next p hp =>
    by_cases ha : a = dmaBase
    · rw [if_pos ha, dmaCommand] at h
      split at h
      next =>
        split at h
        next hlegal =>
          cases h
          exact .inl ⟨p, hp, hlegal, rfl⟩
        next => cases h
      next => cases h
    · rw [if_neg ha] at h
      right
      repeat' split at h
      all_goals
        cases h
        exact ⟨_, _, _, rfl⟩

/-- A store keeps the invariant: the cell exists, and the bus was free, so that no transfer was under way. -/
theorem State.Inv.memWrite {s t : State} {a : DataAddr} {v : Byte} (hi : s.Inv) (h : s.memWrite a v = .next t) : t.Inv := by
  unfold State.memWrite at h
  split at h
  next => cases h
  next hbusy =>
    split at h
    next =>
      have hstored : ((s.storeDram a.toNat v).emit (.dataWrite a v)).Inv := by
        refine State.Inv.congr (s := s.storeDram a.toNat v) ?_ rfl rfl rfl rfl
        unfold State.storeDram
        split
        next ha => exact hi.writeDram ha v
        next => exact hi
      have hidle : ∀ p, s.params.dma = some p → s.dma.phase = .idle := by
        intro p hp
        have hbars : s.dmaBars = false := by simp_all [State.busBusy]
        cases hphase : s.dma.phase <;> simp_all [State.dmaBars]
      rcases dmaSees_cases h with ⟨p, hp, hlegal, rfl⟩ | ⟨src, dst, count, rfl⟩
      · have hp' : s.params.dma = some p := by simpa using hp
        refine hstored.setDma (fun _ => by simp [hp']) (by simp) (fun q hq _ => ?_)
        cases hp.symm.trans hq
        exact hlegal
      · refine hstored.setDma hstored.dmaThere hstored.dmaDone fun q hq hbusy' => ?_
        simp [hidle q (by simpa using hq)] at hbusy'
    next => cases h

/-- What one or more stores may change: data memory, the DMA controller and the events, which grow; the invariant stays. -/
def Stores (s u : State) : Prop :=
  (∃ dram dma events, u = { s with dram := dram, dma := dma, events := events } ∧ s.events <+: events) ∧ (s.Inv → u.Inv)

theorem Stores.trans {s u w : State} (h : Stores s u) (h' : Stores u w) : Stores s w := by
  obtain ⟨⟨_, _, _, rfl, hpre⟩, hinv⟩ := h
  obtain ⟨⟨_, _, _, rfl, hpre'⟩, hinv'⟩ := h'
  exact ⟨⟨_, _, _, rfl, hpre.trans hpre'⟩, hinv' ∘ hinv⟩

theorem stores_of_memWrite {s u : State} {a : DataAddr} {v : Byte} (h : s.memWrite a v = .next u) : Stores s u := by
  refine ⟨?_, fun hi => hi.memWrite h⟩
  obtain ⟨-, -, d, rfl⟩ := s.memWrite_eq_next a v u h
  rw [State.storeDram_eq]
  exact ⟨_, _, _, rfl, List.prefix_append _ _⟩

/-- A push is a store, and then sp one lower (R58). -/
theorem stores_of_push {s t : State} {v : Byte} (h : s.push v = .next t) :
    ∃ u, Stores s u ∧ t = u.setSp (s.sp - 1) := by
  obtain ⟨u, hw, rfl⟩ := s.push_eq_next v t h
  exact ⟨u, stores_of_memWrite hw, rfl⟩

/-- The state in which a push leaves sp changes nothing of a store that follows. -/
theorem stores_of_setSp_push {s t : State} {sp : DataAddr} {v : Byte} (h : (s.setSp sp).push v = .next t) :
    ∃ u, Stores s u ∧ t = u.setSp (sp - 1) := by
  obtain ⟨u, hw, rfl⟩ := State.push_eq_next _ _ _ h
  rw [State.setSp_sp, State.memWrite_setSp] at hw
  obtain ⟨u', hw', hu⟩ := (andThen_eq_next _ _ _).1 hw
  cases hu
  exact ⟨u', stores_of_memWrite hw', rfl⟩

/-! Pops. -/

/-- What one or more pops may change: sp, the tick and the events, which grow. -/
def Reads (s u : State) : Prop :=
  ∃ sp tick events, u = { s with sp := sp, tick := tick, events := events } ∧ s.events <+: events

theorem Reads.trans {s u w : State} (h : Reads s u) (h' : Reads u w) : Reads s w := by
  obtain ⟨_, _, _, rfl, hpre⟩ := h
  obtain ⟨_, _, _, rfl, hpre'⟩ := h'
  exact ⟨_, _, _, rfl, hpre.trans hpre'⟩

theorem reads_of_popByte {s : State} {r : Byte × State} (h : s.popByte = .next r) : Reads s r.2 := by
  obtain ⟨-, hr⟩ := (s.popByte_eq_next r).1 h
  exact ⟨_, _, _, hr, List.prefix_append _ _⟩

/-! The effect of an instruction. -/

/-- What an instruction of this mnemonic may write (R9, R24 to R35): the state it gives is `s` with new values in the named
fields. The last line of each case is the state; `s.events <+: events` says that the events only grow. -/
inductive Effect (s : State) (name : String) : State → Prop
  /-- moves, jumps, logic, shifts, loads: general registers and pc -/
  | compute (regs : Vector Byte 16) (pc : ProgAddr) (tick : Nat) (events : List Event) (grow : s.events <+: events) :
    Effect s name { s with regs := regs, pc := pc, tick := tick, events := events }
  | mvs (named : name = "mvs") (sp : DataAddr) (pc : ProgAddr) : Effect s name { s with sp := sp, pc := pc }
  | mvv (named : name = "mvv") (iv : Vector Byte 16) (pc : ProgAddr) : Effect s name { s with iv := iv, pc := pc }
  | sie (named : name = "sie") (ie : BitVec 16) (pc : ProgAddr) : Effect s name { s with ie := ie, pc := pc }
  | hlt (named : name = "hlt") (run : RunState) (pc : ProgAddr) : Effect s name { s with run := run, pc := pc }
  | rti (named : name = "rti") (inService : s.isr = true) : Effect s name s.returnFromInterrupt
  /-- the six arithmetic operations: the flags too, but not the user flags -/
  | arith (named : name ∈ ["add", "sub", "adc", "sbc", "adi", "sbi"]) (regs : Vector Byte 16) (x c n z : Bool)
    (pc : ProgAddr) (tick : Nat) :
    Effect s name { s with regs := regs, sr := { s.sr with x := x, c := c, n := n, z := z }, pc := pc, tick := tick }
  /-- the aluc operations: all flags, and the states of the ISEs -/
  | aluc (named : name ∈ ["asb", "aib", "amc", "aic", "swd", "gsp", "gip"]) (regs : Vector Byte 16) (sr : Sr)
    (pc : ProgAddr) (amc aic : MixIse) (swd : RotIse) (gsp gip : GiftIse) (tick : Nat) :
    Effect s name
      { s with
        regs := regs, sr := sr, pc := pc, amc := amc, aic := aic, swd := swd, gsp := gsp, gip := gip, tick := tick }
  | pop (named : name ∈ ["ret", "pop"]) (regs : Vector Byte 16) (pc : ProgAddr) (sp : DataAddr) (tick : Nat)
    (events : List Event) (grow : s.events <+: events) :
    Effect s name { s with regs := regs, pc := pc, sp := sp, tick := tick, events := events }
  | lsr (named : name = "lsr") (sr : Sr) (pc : ProgAddr) (sp : DataAddr) (tick : Nat) (events : List Event)
    (grow : s.events <+: events) : Effect s name { s with sr := sr, pc := pc, sp := sp, tick := tick, events := events }
  | store (named : name ∈ ["stb", "spb"]) (u : State) (stores : Stores s u) (regs : Vector Byte 16) (pc : ProgAddr) :
    Effect s name { u with regs := regs, pc := pc }
  | push (named : name ∈ ["jsr", "str", "psh"]) (u : State) (stores : Stores s u) (pc : ProgAddr) (sp : DataAddr) :
    Effect s name { u with pc := pc, sp := sp }
  | sys (named : name = "sys") (sbus : Byte) (run : RunState) (pc : ProgAddr) (dma : Dma)
    (acked : dma = s.dma ∨ dma = s.dma.acked) (events : List Event) (grow : s.events <+: events) :
    Effect s name { s with sbus := sbus, run := run, pc := pc, dma := dma, events := events }

/-- If the answer is a next state, it is an effect of an instruction of this mnemonic. -/
def HasEffect (s : State) (name : String) (r : Result) : Prop := ∀ t, r = .next t → Effect s name t

theorem hasEffect_next {s t : State} {name : String} (h : Effect s name t) : HasEffect s name (.next t) := by
  rintro _ ⟨⟩
  exact h

theorem HasEffect.andThen {α : Type} {s : State} {name : String} {o : Answer α} {f : α → Result}
    (h : ∀ x, o = .next x → HasEffect s name (f x)) : HasEffect s name (andThen o f) := by
  intro t ht
  obtain ⟨x, hx, hf⟩ := (andThen_eq_next o f t).1 ht
  exact h x hx t hf

/-- A new value in general registers, a new pc, and perhaps a new tick. -/
theorem hasEffect_compute {s : State} {name : String} (regs : Vector Byte 16) (pc : ProgAddr) (tick : Nat) :
    HasEffect s name (.next { s with regs := regs, pc := pc, tick := tick }) :=
  hasEffect_next (.compute regs pc tick s.events (List.prefix_refl _))

theorem branchIf_hasEffect (flag : Bool) (im : ProgAddr) (s : State) (name : String) :
    HasEffect s name (branchIf flag im s) := by
  unfold branchIf
  split <;> exact hasEffect_compute _ _ _

theorem finishShift_hasEffect (op : ShiftOp) (rs d : RegNum) (s : State) (name : String) :
    HasEffect s name (finishShift op rs d s) := by
  unfold finishShift
  split <;> exact hasEffect_compute _ _ _

theorem finishArith_hasEffect (op : ArithOp) (a b : Byte) (d : RegNum) (v : BitVec 9) (s : State) {name : String}
    (named : name ∈ ["add", "sub", "adc", "sbc", "adi", "sbi"]) : HasEffect s name (finishArith op a b d v s) :=
  hasEffect_next (.arith named _ _ _ _ _ _ _)

/-- The end of an aluc operation, once its ISE has gone on (R164, R165). -/
theorem finishAluc_hasEffect {s : State} {name : String} (d : RegNum) (result : Byte) (c : IseCall) (u : State)
    (hu : ∃ amc aic swd gsp gip, u = { s with amc := amc, aic := aic, swd := swd, gsp := gsp, gip := gip })
    (named : name ∈ ["asb", "aib", "amc", "aic", "swd", "gsp", "gip"]) : HasEffect s name (finishAluc d result c u) := by
  obtain ⟨_, _, _, _, _, rfl⟩ := hu
  exact hasEffect_next (.aluc named _ _ _ _ _ _ _ _ _)

theorem execLdb_hasEffect (i : PairIdx) (d : RegNum) (s : State) (name : String) : HasEffect s name (execLdb i d s) := by
  refine .andThen fun ⟨v, u⟩ h => ?_
  obtain ⟨-, rfl⟩ := (s.memRead_eq_next _ _).1 h
  exact hasEffect_next (.compute _ _ _ _ (List.prefix_append _ _))

theorem execLpb_hasEffect (i : PairIdx) (d : RegNum) (s : State) (name : String) : HasEffect s name (execLpb i d s) := by
  refine .andThen fun ⟨v, u⟩ h => ?_
  obtain ⟨-, rfl⟩ := (s.memRead_eq_next _ _).1 h
  split <;> exact hasEffect_next (.compute _ _ _ _ (List.prefix_append _ _))

theorem execStb_hasEffect (v : RegNum) (i : PairIdx) (s : State) : HasEffect s "stb" (execStb v i s) :=
  .andThen fun u h => hasEffect_next (.store (by simp) u (stores_of_memWrite h) u.regs _)

theorem execSpb_hasEffect (v : RegNum) (i : PairIdx) (s : State) : HasEffect s "spb" (execSpb v i s) :=
  .andThen fun u h => hasEffect_next (.store (by simp) u (stores_of_memWrite h) _ _)

theorem execStr_hasEffect (s : State) : HasEffect s "str" (execStr s) := by
  refine .andThen fun t h => ?_
  obtain ⟨u, hu, rfl⟩ := stores_of_push h
  exact hasEffect_next (.push (by simp) u hu _ _)

theorem execPsh_hasEffect (rs : RegNum) (s : State) : HasEffect s "psh" (execPsh rs s) := by
  refine .andThen fun t h => ?_
  obtain ⟨u, hu, rfl⟩ := stores_of_push h
  exact hasEffect_next (.push (by simp) u hu _ _)

theorem execJsr_hasEffect (im : ProgAddr) (s : State) : HasEffect s "jsr" (execJsr im s) := by
  refine .andThen fun t h => .andThen fun t' h' => ?_
  obtain ⟨u, hu, rfl⟩ := stores_of_push h
  obtain ⟨u', hu', rfl⟩ := stores_of_setSp_push h'
  exact hasEffect_next (.push (by simp) u' (hu.trans hu') _ _)

theorem execPop_hasEffect (d : RegNum) (s : State) : HasEffect s "pop" (execPop d s) := by
  refine .andThen fun r h => ?_
  obtain ⟨sp, tick, events, hu, grow⟩ := reads_of_popByte h
  rw [hu]
  exact hasEffect_next (.pop (by simp) _ _ _ _ _ grow)

theorem execLsr_hasEffect (s : State) : HasEffect s "lsr" (execLsr s) := by
  refine .andThen fun r h => ?_
  obtain ⟨sp, tick, events, hu, grow⟩ := reads_of_popByte h
  rw [hu]
  exact hasEffect_next (.lsr rfl _ _ _ _ _ grow)

theorem execRet_hasEffect (s : State) : HasEffect s "ret" (execRet s) := by
  refine .andThen fun lo h => .andThen fun hi h' => ?_
  obtain ⟨sp, tick, events, hu, grow⟩ := (reads_of_popByte h).trans (reads_of_popByte h')
  rw [hu]
  exact hasEffect_next (.pop (by simp) _ _ _ _ _ grow)

theorem execRti_hasEffect (s : State) : HasEffect s "rti" (execRti s) := by
  intro t h
  obtain ⟨hisr, rfl⟩ := execRti_eq_next h
  exact .rti rfl hisr

/-- The run state after sys: END_CODE ends the run (R202). -/
theorem execSys_eq (im : Byte) (s : State) :
    execSys im s = .next (((s.sbusOut im).advance 2).setRun (if im = 0xFF then .ended else s.run)) := by
  have hrun : (s.sbusOut im).run = s.run := by
    rcases dmaAck_eq ((s.emit (.sbusOut im)).setSbus im) im with ⟨h, -⟩ | ⟨h, -⟩ <;> simp [State.sbusOut, h]
  unfold execSys
  by_cases him : im = 0xFF
  · simp [him, endCode]
  · simp only [beq_iff_eq, endCode, him, if_false, ← hrun]
    rfl

theorem execSys_hasEffect (im : Byte) (s : State) : HasEffect s "sys" (execSys im s) := by
  rw [execSys_eq, State.sbusOut]
  rcases dmaAck_eq ((s.emit (.sbusOut im)).setSbus im) im with ⟨h, -⟩ | ⟨h, -⟩ <;> rw [h]
  · exact hasEffect_next (.sys rfl _ _ _ _ (.inr rfl) _ (List.prefix_append _ _))
  · exact hasEffect_next (.sys rfl _ _ _ _ (.inl rfl) _ (List.prefix_append _ _))

theorem exec_hasEffect (i : Instr) (s : State) : HasEffect s i.mnemonic (exec i s) := by
  cases i with
  | mvs im => exact hasEffect_next (.mvs rfl _ _)
  | mvv k im => exact hasEffect_next (.mvv rfl _ _)
  | jmp im | mvi d im | mov rs d | and rs d | lor rs d | not rs d | xor rs d | rie p => exact hasEffect_compute _ _ _
  | bzi im | bni im | bci im | bxi im => exact branchIf_hasEffect _ im s _
  | add rs d | sub rs d | adc rs d | sbc rs d | adi im d | sbi im d =>
    exact finishArith_hasEffect _ _ _ d _ s (by simp [Instr.mnemonic])
  | sll rs d | rol rs d | srl rs d | ror rs d => exact finishShift_hasEffect _ rs d s _
  | asb rs d | aib rs d | amc rs d | aic rs d | swd rs d | gsp rs d | gip rs d =>
    exact finishAluc_hasEffect _ _ _ _ ⟨_, _, _, _, _, rfl⟩ (by simp [Instr.mnemonic])
  | ldb p d => exact execLdb_hasEffect p d s _
  | lpb p d => exact execLpb_hasEffect p d s _
  | stb v p => exact execStb_hasEffect v p s
  | spb v p => exact execSpb_hasEffect v p s
  | jsr im => exact execJsr_hasEffect im s
  | ret => exact execRet_hasEffect s
  | str => exact execStr_hasEffect s
  | lsr => exact execLsr_hasEffect s
  | sie p => exact hasEffect_next (.sie rfl _ _)
  | hlt => exact hasEffect_next (.hlt rfl _ _)
  | rti => exact execRti_hasEffect s
  | sys im => exact execSys_hasEffect im s
  | psh rs => exact execPsh_hasEffect rs s
  | pop d => exact execPop_hasEffect d s

/-- An instruction that gives a next state has the effect of its mnemonic. -/
theorem exec_effect {i : Instr} {s t : State} (h : exec i s = .next t) : Effect s i.mnemonic t := exec_hasEffect i s t h

end Sys2Proof.Machine
end

section
/-! Rules over all instructions and all steps: who writes which register (R24 to R35), that the events only grow (R33, R61), that an
interrupt in service keeps the shadow registers (R243), and the invariant. Each is read off `exec_effect`. -/

namespace Sys2Proof.Machine

/-! Writers, instruction by instruction. -/

/-- Settles O18: of the effects only mvv, sie and rti name a vector, ie or the in-service flag, and none a shadow register. -/
theorem writersOfInterruptRegisters : Obligations.WritersOfInterruptRegisters := by
  intro i s t h
  cases exec_effect h with
  | store named u stores regs pc | push named u stores pc sp =>
    obtain ⟨⟨_, _, _, rfl, -⟩, -⟩ := stores
    simp
  | mvv named | sie named | rti named => simp [named]
  | _ => simp

/-- Settles O19: sr is a field of the effects of arithmetic, aluc, lsr and rti, and in arithmetic the user flags stay. -/
theorem writersOfStatus : Obligations.WritersOfStatus := by
  intro i s t h
  cases exec_effect h with
  | store named u stores regs pc | push named u stores pc sp =>
    obtain ⟨⟨_, _, _, rfl, -⟩, -⟩ := stores
    simp [SameUserFlags]
  | arith named =>
    simp only [List.mem_cons, List.not_mem_nil, or_false] at named
    exact ⟨fun _ => by rcases named with h | h | h | h | h | h <;> simp [h], fun hflags => by simp [SameUserFlags] at hflags⟩
  | aluc named =>
    simp only [List.mem_cons, List.not_mem_nil, or_false] at named
    rcases named with h | h | h | h | h | h | h <;> simp [h]
  | lsr named | rti named => simp [named]
  | _ => simp [SameUserFlags]

/-- Settles O20: the effects name sp, data memory, the run state and the s-bus only for the listed instructions. -/
theorem writersOfTheRest : Obligations.WritersOfTheRest := by
  intro i s t h
  cases exec_effect h with
  | store named u stores regs pc | push named u stores pc sp =>
    obtain ⟨⟨_, _, _, rfl, -⟩, -⟩ := stores
    simp only [List.mem_cons, List.not_mem_nil, or_false] at named ⊢
    tauto
  | pop named =>
    simp only [List.mem_cons, List.not_mem_nil, or_false] at named ⊢
    tauto
  | mvs named | lsr named | hlt named | sys named => simp [named]
  | _ => simp

/-! What every instruction and every step keeps. -/

/-- An instruction changes neither the parameters nor the inputs to come, and the events only grow. -/
theorem exec_keeps {i : Instr} {s t : State} (h : exec i s = .next t) :
    t.params = s.params ∧ t.inputs = s.inputs ∧ s.events <+: t.events := by
  cases exec_effect h with
  | store named u stores regs pc | push named u stores pc sp =>
    obtain ⟨⟨_, _, _, rfl, grow⟩, -⟩ := stores
    exact ⟨rfl, rfl, grow⟩
  | compute regs pc tick events grow | pop named regs pc sp tick events grow | lsr named sr pc sp tick events grow
  | sys named sbus run pc dma acked events grow => exact ⟨rfl, rfl, grow⟩
  | _ => exact ⟨rfl, rfl, List.prefix_refl _⟩

/-- The core's step is an interrupt entry, an instruction, or nothing (R235). -/
theorem coreStep_eq_next {s t : State} (h : coreStep s = .next t) :
    (∃ k, s.pendingInterrupt = some k ∧ t = s.takeInterrupt k) ∨ (∃ i, exec i s = .next t) ∨ t = s := by
  unfold coreStep at h
  split at h
  next =>
    cases h
    exact .inr (.inr rfl)
  next =>
    cases h
    exact .inr (.inr rfl)
  next =>
    split at h
    next k hk =>
      cases h
      exact .inl ⟨k, hk, rfl⟩
    next =>
      obtain ⟨i, -, hi⟩ := (andThen_eq_next _ _ _).1 h
      exact .inr (.inl ⟨i, hi⟩)
  next =>
    split at h
    next k hk =>
      cases h
      exact .inl ⟨k, hk, rfl⟩
    next =>
      cases h
      exact .inr (.inr rfl)

/-- Sampling reads the first input, if there is one (R36): only the lines and the inputs change. -/
theorem State.sample_eq (s : State) :
    ∃ ibus, s.sample = ((s.inputs.head?).bind Input.pin, { s with ibus := ibus, inputs := s.inputs.tail }) := by
  unfold State.sample
  split
  next hnil =>
    refine ⟨s.ibus, ?_⟩
    simp only [hnil, List.head?_nil, Option.bind_none, List.tail_nil]
    rw [← hnil]
  next i rest hcons => exact ⟨i.ibus, by simp [hcons]⟩

theorem State.mem_inputs_of_sample {s : State} {e : PinEvent} (h : s.sample.1 = some e) : ∃ i ∈ s.inputs, i.pin = some e := by
  obtain ⟨ibus, hs⟩ := s.sample_eq
  rw [hs] at h
  obtain ⟨i, hi, hpin⟩ := Option.bind_eq_some_iff.1 h
  exact ⟨i, List.mem_of_mem_head? hi, hpin⟩

/-- A DMA transfer's end changes data memory and the controller only. -/
theorem pinDmaDone_eq (s : State) : ∃ dram dma, pinDmaDone s = { s with dram := dram, dma := dma } := by
  unfold pinDmaDone
  split
  · exact ⟨s.dram, s.dma, rfl⟩
  · split
    · exact ⟨_, _, rfl⟩
    · exact ⟨s.dram, s.dma, rfl⟩

/-- Of the pins all but rst change only pc, the run state, the memories, extdaddrsel and the DMA controller (R270 to R274). -/
theorem pinStep_eq_next {e : PinEvent} {s t : State} (h : pinStep e s = .next t) :
    e = .rst ∧ t = pinRst s ∨ ∃ pc run pram dram busTaken dma,
      t = { s with pc := pc, run := run, pram := pram, dram := dram, busTaken := busTaken, dma := dma } := by
  cases e with
  | rst =>
    cases h
    exact .inl ⟨rfl, rfl⟩
  | start =>
    obtain ⟨-, rfl⟩ := pinStart_eq_next h
    exact .inr ⟨_, _, _, _, _, _, rfl⟩
  | progLoad a v =>
    obtain ⟨-, -, rfl⟩ := pinProgLoad_eq_next h
    exact .inr ⟨_, _, _, _, _, _, rfl⟩
  | dataLoad a v =>
    obtain ⟨-, -, -, rfl⟩ := (externalWrite_eq_next a v s t).1 (pinDataLoad_eq_next h).2
    exact .inr ⟨_, _, _, _, _, _, rfl⟩
  | busSel on =>
    cases h
    exact .inr ⟨_, _, _, _, _, _, rfl⟩
  | busWrite a v =>
    obtain ⟨-, -, -, rfl⟩ := (externalWrite_eq_next a v s t).1 h
    exact .inr ⟨_, _, _, _, _, _, rfl⟩
  | dmaDone =>
    cases h
    obtain ⟨dram, dma, hdone⟩ := pinDmaDone_eq s
    exact .inr ⟨_, _, _, _, _, _, hdone⟩

/-- A step changes no parameter, takes one input off the list, and the events only grow. -/
theorem step_keeps {s t : State} (h : step s = .next t) :
    t.params = s.params ∧ t.inputs = s.inputs.tail ∧ s.events <+: t.events := by
  obtain ⟨ibus, hs⟩ := s.sample_eq
  rcases step_eq_next h with ⟨e, -, hpin⟩ | ⟨-, hcore⟩
  · rw [hs] at hpin
    rcases pinStep_eq_next hpin with ⟨-, rfl⟩ | ⟨_, _, _, _, _, _, rfl⟩ <;> exact ⟨rfl, rfl, List.prefix_refl _⟩
  · rw [hs] at hcore
    rcases coreStep_eq_next hcore with ⟨k, -, rfl⟩ | ⟨i, hi⟩ | rfl
    · exact ⟨rfl, rfl, List.prefix_refl _⟩
    · exact exec_keeps hi
    · exact ⟨rfl, rfl, List.prefix_refl _⟩

/-- Settles O21: the next state's list of events begins with the events so far. -/
theorem eventsGrow : Obligations.EventsGrow := by
  intro s t h
  obtain ⟨-, -, es, hes⟩ := step_keeps h
  exact ⟨es, hes.symm⟩

/-! The shadow registers in service. -/

/-- Settles O16: an instruction writes no shadow register, a pin but rst neither, and in service no interrupt is entered. -/
theorem shadowsKeptInService : Obligations.ShadowsKeptInService := by
  intro s t hisr hrst h
  obtain ⟨ibus, hs⟩ := s.sample_eq
  rcases step_eq_next h with ⟨e, he, hpin⟩ | ⟨-, hcore⟩
  · rw [hs] at hpin
    rcases pinStep_eq_next hpin with ⟨rfl, -⟩ | ⟨_, _, _, _, _, _, rfl⟩
    · exact absurd he hrst
    · exact ⟨rfl, rfl, rfl, rfl⟩
  · have hnone : s.sample.2.pendingInterrupt = none := State.pendingInterrupt_of_inService (by rw [hs]; exact hisr)
    rw [hs] at hcore hnone
    rcases coreStep_eq_next hcore with ⟨k, hk, -⟩ | ⟨i, hi⟩ | rfl
    · cases hnone.symm.trans hk
    · obtain ⟨-, -, -, hshadows⟩ := writersOfInterruptRegisters i _ t hi
      exact hshadows
    · exact ⟨rfl, rfl, rfl, rfl⟩

/-! An interrupt from its entry to its return. -/

/-- `x` holds, in its shadow registers, what an entry saved of `s` (R238), is in service, and no rst is to come. -/
structure Saved (s x : State) : Prop where
  params : x.params = s.params
  pcs : x.pcs = s.pc
  srs : x.srs = s.sr
  shadowA : ∀ i (h : i < 8), i < s.params.ns → x.shadowA[i] = s.regs[8 + i]
  shadowR : ∀ i (h : i < 8), i < s.params.ns → x.shadowR[i] = s.regs[i]
  isr : x.isr = true
  noRst : ∀ i ∈ x.inputs, i.pin ≠ some .rst

theorem saved_takeInterrupt {s : State} (k : IntNum) (h : ∀ i ∈ s.inputs, i.pin ≠ some .rst) : Saved s (s.takeInterrupt k) where
  params := rfl
  pcs := rfl
  srs := rfl
  shadowA i hi hns := by rw [State.takeInterrupt_shadowA_get s k i hi, if_pos hns]
  shadowR i hi hns := by rw [State.takeInterrupt_shadowR_get s k i hi, if_pos hns]
  isr := rfl
  noRst := h

/-- A step that stays in service keeps what was saved. -/
theorem Saved.step {s x y : State} (h : Saved s x) (hstep : step x = .next y) (hisr : y.isr = true) : Saved s y := by
  have hrst : x.sample.1 ≠ some .rst := fun he => by
    obtain ⟨i, hi, hpin⟩ := State.mem_inputs_of_sample he
    exact h.noRst i hi hpin
  obtain ⟨hpcs, hsrs, hA, hR⟩ := shadowsKeptInService x y h.isr hrst hstep
  obtain ⟨hparams, hinputs, -⟩ := step_keeps hstep
  exact {
    params := hparams.trans h.params
    pcs := hpcs.trans h.pcs
    srs := hsrs.trans h.srs
    shadowA := fun i hi hns => by simpa only [hA] using h.shadowA i hi hns
    shadowR := fun i hi hns => by simpa only [hR] using h.shadowR i hi hns
    isr := hisr
    noRst := fun i hi => h.noRst i (List.mem_of_mem_tail (hinputs ▸ hi)) }

/-- A run of one step more is a step and then a run. -/
theorem core_run_succ_eq_next (M : Host.Core) (k : Nat) (x t : M.State) :
    M.run (k + 1) x = .next t ↔ ∃ y, M.step x = .next y ∧ M.run k y = .next t := by
  rw [Host.Core.run]
  cases M.step x <;> simp

theorem run_succ_eq_next {k : Nat} {x t : State} :
    Sys2Proof.core.run (k + 1) x = .next t ↔ ∃ y, step x = .next y ∧ Sys2Proof.core.run k y = .next t :=
  core_run_succ_eq_next Sys2Proof.core k x t

/-- Any number of steps in service keeps what was saved. -/
theorem Saved.run {s : State} (n : Nat) : ∀ {x t : State}, Saved s x →
    (∀ m y, m ≤ n → Sys2Proof.core.run m x = .next y → y.isr = true) → Sys2Proof.core.run n x = .next t → Saved s t := by
  induction n with
  | zero =>
    intro x t h _ hrun
    cases hrun
    exact h
  | succ n ih =>
    intro x t h hisr hrun
    obtain ⟨y, hy, hrest⟩ := run_succ_eq_next.1 hrun
    have hnext : y.isr = true := hisr 1 y (by omega) (run_succ_eq_next.2 ⟨y, hy, rfl⟩)
    exact ih (h.step hy hnext) (fun m z hm hz => hisr (m + 1) z (by omega) (run_succ_eq_next.2 ⟨y, hy, hz⟩)) hrest

/-- The return gives back what was saved (R201). -/
theorem Saved.pair_return {s x : State} (h : Saved s x) (i : PairIdx) (hi : i.toNat < s.params.ns) :
    x.returnFromInterrupt.pair i = s.pair i := by
  have hns : i.toNat < x.params.ns := h.params ▸ hi
  have hlt : i.toNat < 8 := i.isLt
  have hR := h.shadowR i.toNat hlt hi
  have hA := h.shadowA i.toNat hlt hi
  have hr : x.returnFromInterrupt.reg (rNum i) = s.reg (rNum i) := by
    rw [State.returnFromInterrupt_reg]
    simp only [rNum_toNat, hlt, hns, dite_true, if_true, hR, State.reg]
  have ha : x.returnFromInterrupt.reg (aNum i) = s.reg (aNum i) := by
    rw [State.returnFromInterrupt_reg]
    have h8 : ¬ 8 + i.toNat < 8 := by omega
    simp only [aNum_toNat, h8, dite_false, Nat.add_sub_cancel_left, hns, if_true, hA, State.reg]
  rw [State.pair, State.pair, hr, ha]

theorem exec_rti_of_inService {s : State} (h : s.isr = true) : exec .rti s = .next s.returnFromInterrupt :=
  if_pos h

/-- Settles O17: the entry saves, the steps in service keep what is saved, and rti gives it back. -/
theorem interruptTransparent : Obligations.InterruptTransparent := by
  intro s t k n hinputs hisr hrun
  have h : Saved s t := (saved_takeInterrupt k hinputs).run n hisr hrun
  exact ⟨t.returnFromInterrupt, exec_rti_of_inService h.isr, h.pcs, h.srs, rfl, h.pair_return⟩

/-! The invariant. -/

theorem State.Inv.acked {s : State} (h : s.Inv) : (s.setDma s.dma.acked).Inv := by
  refine h.setDma ?there ?done ?legal
  case there =>
    cases hphase : s.dma.phase <;> simp [hphase]
    exact h.dmaThere (.inl (by simp [hphase]))
  case done => cases hphase : s.dma.phase <;> simp [hphase]
  case legal =>
    intro p hp hbusy
    have hphase : s.dma.phase = .busy := by
      rw [Dma.acked_phase] at hbusy
      by_contra hne
      simp [hne] at hbusy
    exact h.dmaLegal p hp hphase

/-- An entry leaves the controller as it is, or makes one idle whose transfer is over (R255). -/
theorem dmaEntered_eq (s : State) (k : IntNum) : dmaEntered s k = s.dma ∨ dmaEntered s k = { s.dma with phase := .idle } := by
  unfold dmaEntered
  split
  · exact .inl rfl
  · split
    · exact .inr rfl
    · exact .inl rfl

theorem State.Inv.takeInterrupt {s : State} (h : s.Inv) (k : IntNum) : (s.takeInterrupt k).Inv := by
  have hentered : (s.setDma (dmaEntered s k)).Inv := by
    rcases dmaEntered_eq s k with hd | hd <;> rw [hd]
    · exact h
    · exact h.setDma (fun hor => h.dmaThere (by simpa using Or.inr hor)) (by simp) (by simp)
  exact hentered.congr rfl rfl rfl rfl

theorem exec_inv {i : Instr} {s t : State} (hi : s.Inv) (h : exec i s = .next t) : t.Inv := by
  cases exec_effect h with
  | store named u stores regs pc | push named u stores pc sp => exact (stores.2 hi).congr rfl rfl rfl rfl
  | sys named sbus run pc dma acked =>
    rcases acked with rfl | rfl
    · exact hi.congr rfl rfl rfl rfl
    · exact hi.acked.congr rfl rfl rfl rfl
  | _ => exact hi.congr rfl rfl rfl rfl

theorem externalWrite_inv {a : DataAddr} {v : Byte} {s t : State} (hi : s.Inv) (h : externalWrite a v s = .next t) : t.Inv := by
  obtain ⟨-, ha, -, rfl⟩ := (externalWrite_eq_next a v s t).1 h
  exact hi.writeDram ha v

/-- The destination of a legal transfer lies in DRAM, so its copy keeps the invariant (R254). -/
theorem pinDmaDone_inv {s : State} (hi : s.Inv) : (pinDmaDone s).Inv := by
  unfold pinDmaDone
  split
  next => exact hi
  next p hp =>
    split
    next hbusy =>
      have hlegal : dmaBlocksLegal s p = true := hi.dmaLegal p hp (by simpa using hbusy)
      simp only [dmaBlocksLegal, blocksLegal, Bool.and_eq_true, decide_eq_true_eq] at hlegal
      obtain ⟨⟨-, hdst⟩, -⟩ := hlegal
      have hcopy := hi.setDram (Memory.wf_copy _ s.dma.src.toNat s.dma.dst.toNat (dmaBytes p s.dma.count) hi.dramWf)
        (Memory.below_copy _ _ _ _ _ hi.dramBelow hdst)
      exact hcopy.setDma (fun _ => by simp [hp]) (fun _ => rfl) (by simp)
    next => exact hi

theorem pinStep_inv {e : PinEvent} {s t : State} (hi : s.Inv) (h : pinStep e s = .next t) : t.Inv := by
  cases e with
  | rst | busSel on =>
    cases h
    exact hi.congr rfl rfl rfl rfl
  | start =>
    obtain ⟨-, rfl⟩ := pinStart_eq_next h
    exact hi.congr rfl rfl rfl rfl
  | progLoad a v =>
    obtain ⟨-, ha, rfl⟩ := pinProgLoad_eq_next h
    exact hi.setPram (Memory.wf_write _ _ _ hi.pramWf) (Memory.below_write _ _ _ _ hi.pramBelow ha)
  | dataLoad a v => exact externalWrite_inv hi (pinDataLoad_eq_next h).2
  | busWrite a v => exact externalWrite_inv hi h
  | dmaDone =>
    cases h
    exact pinDmaDone_inv hi

/-- Settles O29: sampling does not touch what the invariant is about; then a pin, an entry or an instruction keeps it. -/
theorem stepKeepsInvariant : Obligations.StepKeepsInvariant := by
  intro s t hi h
  have hsampled : s.sample.2.Inv := by
    obtain ⟨ibus, hs⟩ := s.sample_eq
    rw [hs]
    exact hi.congr rfl rfl rfl rfl
  rcases step_eq_next h with ⟨e, -, hpin⟩ | ⟨-, hcore⟩
  · exact pinStep_inv hsampled hpin
  · rcases coreStep_eq_next hcore with ⟨k, -, rfl⟩ | ⟨i, hexec⟩ | rfl
    · exact hsampled.takeInterrupt k
    · exact exec_inv hsampled hexec
    · exact hsampled

/-- Settles O30: the memories are empty, the DMA controller is idle, and the parameters are in their ranges. -/
theorem resetInvariant : Obligations.ResetInvariant where
  params := by decide
  pramWf := by decide
  pramBelow := rfl
  dramWf := by decide
  dramBelow := rfl
  dmaThere := by simp [State.reset]
  dmaDone := by simp [State.reset]
  dmaLegal := by simp [State.reset]

end Sys2Proof.Machine
end

section
/-! The step at a boundary (20_memory.md R52, R53, 60_exceptions.md R232 to R245): the fetch and its faults, what the core does
in each run state, interrupt entry and return. -/

namespace Sys2Proof

/-! The length of what was decoded (R95). -/

/-- The lengths the first byte can tell. -/
theorem lengthOf_cases (b0 : Byte) : lengthOf b0 = none ∨ lengthOf b0 = some 1 ∨ lengthOf b0 = some 2 := by
  revert b0
  decide

/-- An instruction decoded from one byte alone has length one. -/
theorem lengthOf_of_decode_byte {b0 : Byte} {i : Instr} {rest : List Byte} (h : decode [b0] = .ok (i, rest)) :
    lengthOf b0 = some 1 := by
  rcases lengthOf_cases b0 with hlen | hlen | hlen
  · simp [decode, hlen] at h
  · exact hlen
  · simp [decode, hlen] at h

/-- An instruction decoded from two bytes took both of them, or the first alone. -/
theorem decode_twoBytes {b0 b1 : Byte} {i : Instr} {rest : List Byte} (h : decode [b0, b1] = .ok (i, rest)) :
    lengthOf b0 = some 1 ∧ decode [b0] = .ok (i, []) ∧ rest = [b1] ∨ lengthOf b0 = some 2 ∧ rest = [] := by
  rcases lengthOf_cases b0 with hlen | hlen | hlen
  · simp [decode, hlen] at h
  · left
    cases hone : decodeOne b0 with
    | none => simp [decode, hlen, hone] at h
    | some j => simp_all [decode]
  · right
    cases htwo : decodeTwo b0 b1 with
    | none => simp [decode, hlen, htwo] at h
    | some j => simp_all [decode]

end Sys2Proof

namespace Sys2Proof.Machine

/-! The fetch (R52, R53). -/

theorem State.progRead_of_unloaded {s : State} {a : ProgAddr} (ha : a.toNat < s.params.pramSize)
    (hv : s.pram.read a.toNat = none) : s.progRead a = .fault .readOfUnwrittenState := by
  unfold State.progRead
  rw [if_pos ((s.inPram_iff a.toNat).2 ha), hv]

theorem State.fetch_of_fault {s : State} {f : Fault} (h : s.progRead s.pc = .fault f) : s.fetch = .fault f := by
  simp only [State.fetch, h, andThen_fault]

theorem State.fetch_of_fault_second {s : State} {b0 : Byte} {f : Fault} (h0 : s.progRead s.pc = .next b0)
    (hlen : lengthOf b0 = some 2) (h1 : s.progRead (s.pc + 1) = .fault f) : s.fetch = .fault f := by
  simp only [State.fetch, h0, andThen_next, hlen, h1, andThen_fault]

theorem State.fetch_of_decode_byte {s : State} {b0 : Byte} {i : Instr} (h0 : s.progRead s.pc = .next b0)
    (h : decode [b0] = .ok (i, [])) : s.fetch = .next i := by
  simp only [State.fetch, h0, andThen_next, lengthOf_of_decode_byte h, decodeAnswer, h]

/-- With both bytes there, the fetch gives what they decode to, whether it takes one or two. -/
theorem State.fetch_of_decode {s : State} {b0 b1 : Byte} {i : Instr} {rest : List Byte} (h0 : s.progRead s.pc = .next b0)
    (h1 : s.progRead (s.pc + 1) = .next b1) (h : decode [b0, b1] = .ok (i, rest)) : s.fetch = .next i := by
  rcases decode_twoBytes h with ⟨-, hbyte, -⟩ | ⟨hlen, -⟩
  · exact State.fetch_of_decode_byte h0 hbyte
  · simp only [State.fetch, h0, h1, andThen_next, hlen, decodeAnswer, h]

/-- Settles O10: each of the four reads of program memory that fail ends the fetch, and with it the step. -/
theorem fetchFaults : Obligations.FetchFaults := by
  intro s u hsample hrun hint
  have stops : ∀ f, u.fetch = .fault f → step s = .fault f := fun f hf => by
    rw [step_of_sample_none hsample, coreStep_running hrun hint, hf, andThen_fault]
  refine ⟨fun ha => stops _ ?_, fun ha hv => stops _ ?_, fun b0 h0 hlen => ⟨fun ha => stops _ ?_, fun ha hv => stops _ ?_⟩⟩
  · exact State.fetch_of_fault (State.progRead_of_outOfRange ha)
  · exact State.fetch_of_fault (State.progRead_of_unloaded ha hv)
  · exact State.fetch_of_fault_second h0 hlen (State.progRead_of_outOfRange ha)
  · exact State.fetch_of_fault_second h0 hlen (State.progRead_of_unloaded ha hv)

/-- Settles O6: the fetch gives the instruction, from one byte or from two. -/
theorem stepRunsDecodedInstruction : Obligations.StepRunsDecodedInstruction := by
  intro s u i b0 b1 hsample hrun hint h0 hdecode
  have hfetch : u.fetch = .next i := by
    rcases hdecode with hone | ⟨h1, htwo⟩
    · exact State.fetch_of_decode_byte h0 hone
    · exact State.fetch_of_decode h0 h1 htwo
  rw [step_of_sample_none hsample, coreStep_running hrun hint, hfetch, andThen_next]

/-! The loading helper `withFetchWord` (log 12). -/

/-- Without an effective request nothing is pending. -/
theorem State.pendingInterrupt_of_req_eq_zero {s : State} (h : s.req = 0) : s.pendingInterrupt = none := by
  unfold State.pendingInterrupt
  split
  · rfl
  · exact (lowestSet_eq_none s.req).2 h

/-- With every line low and the DMA controller's irq low there is no request (R232). -/
theorem State.req_eq_zero {s : State} (hibus : s.ibus = 0) (hirq : s.dma.irq = false) : s.req = 0 := by
  have hdma : s.dmaIrq = 0 := by
    unfold State.dmaIrq
    split
    · rfl
    · rw [hirq]
      rfl
  simp [State.req, hibus, hdma]

theorem State.quiet_irq (s : State) : s.quiet.dma.irq = false := by
  simp only [State.quiet]
  split <;> simp_all

/-- A program address and the next one are never the same cell. -/
theorem progAddr_succ_ne (a : ProgAddr) : (a + 1).toNat ≠ a.toNat := by
  have hlt := a.isLt
  have hone : (1 : ProgAddr).toNat = 1 := rfl
  rw [BitVec.toNat_add, hone]
  omega

/-- Two bytes placed at an address are read back there and at the next (R53). -/
theorem State.placeBytes_two_read (s : State) (a : ProgAddr) (b0 b1 : Byte) :
    (s.placeBytes a [b0, b1]).pram.read a.toNat = some b0 ∧ (s.placeBytes a [b0, b1]).pram.read (a + 1).toNat = some b1 := by
  simp only [State.placeBytes, State.setPram_pram, Memory.read_write, if_neg (progAddr_succ_ne a).symm, if_true, and_self]

theorem tableBytes_eq (nbits w : Nat) : ∃ b0 b1, tableBytes nbits w = [b0, b1] := by
  unfold tableBytes
  split <;> exact ⟨_, _, rfl⟩

theorem decode_of_decodeTableWord {nbits w : Nat} {i : Instr} (h : decodeTableWord nbits w = some i) :
    ∃ rest, decode (tableBytes nbits w) = .ok (i, rest) := by
  unfold decodeTableWord at h
  split at h
  next j rest hd =>
    cases h
    exact ⟨rest, hd⟩
  next => cases h

theorem State.withFetchWord_progRead {s : State} {nbits w : Nat} {a : ProgAddr} {v : Byte}
    (h : (s.placeBytes s.pc (tableBytes nbits w)).pram.read a.toNat = some v) : (s.withFetchWord nbits w).progRead a = .next v :=
  State.progRead_of_loaded a.isLt h

/-- Settles O7: nothing comes before the fetch, and the fetch finds the table word's bytes at pc. -/
theorem fetchWordRuns : Obligations.FetchWordRuns := by
  intro s nbits w i h
  obtain ⟨b0, b1, hbytes⟩ := tableBytes_eq nbits w
  obtain ⟨rest, hdecode⟩ := decode_of_decodeTableWord h
  obtain ⟨h0, h1⟩ := s.placeBytes_two_read s.pc b0 b1
  rw [← hbytes] at h0 h1
  rw [hbytes] at hdecode
  have hpc : (s.withFetchWord nbits w).pc = s.pc := by
    simp only [State.withFetchWord, hbytes]
    rfl
  have hfetch : (s.withFetchWord nbits w).fetch = .next i := by
    refine State.fetch_of_decode ?_ ?_ hdecode <;> rw [hpc]
    · exact State.withFetchWord_progRead h0
    · exact State.withFetchWord_progRead h1
  have hint : (s.withFetchWord nbits w).pendingInterrupt = none :=
    State.pendingInterrupt_of_req_eq_zero (State.req_eq_zero rfl (State.quiet_irq _))
  rw [step_of_sample_none (u := s.withFetchWord nbits w) rfl, coreStep_running rfl hint, hfetch, andThen_next]

/-! The boundary in each run state (R235, R245). -/

theorem coreStep_stopped {s : State} (h : s.run = .idle ∨ s.run = .ended) : coreStep s = .next s := by
  rcases h with h | h <;> simp only [coreStep, h]

/-- Settles O11: one lemma per run state; without an effective request nothing is pending. -/
theorem boundaryWithoutEntry : Obligations.BoundaryWithoutEntry := by
  intro s u hsample
  rw [step_of_sample_none hsample]
  refine ⟨coreStep_stopped, fun hreq => ?_⟩
  have hint := State.pendingInterrupt_of_req_eq_zero hreq
  exact ⟨fun hrun => coreStep_halted hrun hint, fun hrun => coreStep_running hrun hint⟩

/-! Interrupts. -/

/-- The entry address is sixteen times the vector (R239). -/
theorem entryAddr_toNat (v : Byte) : (entryAddr v).toNat = 16 * v.toNat := by
  revert v
  decide

/-- Settles O12: the lowest effective request is pending, so the step is its entry. -/
theorem interruptEntry : Obligations.InterruptEntry := by
  intro s u k hsample hrun hisr hk hlow
  have hint : u.pendingInterrupt = some k := by
    rw [State.pendingInterrupt, hisr]
    exact (lowestSet_eq_some u.req k).2 ⟨hk, hlow⟩
  have hstep : step s = .next (u.takeInterrupt k) := by
    rw [step_of_sample_none hsample, coreStep_enters hrun hint]
  refine ⟨_, hstep, rfl, rfl, entryAddr_toNat _, rfl, rfl, fun i hi hns => ?saved, fun i hi hns => ?kept, rfl, rfl, rfl, rfl, rfl,
    ⟨rfl, rfl, rfl, rfl, rfl⟩, ⟨fun _ => rfl, fun _ => rfl⟩, rfl, rfl, rfl, rfl, rfl, rfl⟩
  case saved =>
    rw [State.takeInterrupt_shadowA_get u k i hi, State.takeInterrupt_shadowR_get u k i hi, if_pos hns, if_pos hns]
    exact ⟨rfl, rfl⟩
  case kept =>
    have hns : ¬ i < u.params.ns := Nat.not_lt.2 hns
    rw [State.takeInterrupt_shadowA_get u k i hi, State.takeInterrupt_shadowR_get u k i hi, if_neg hns, if_neg hns]
    exact ⟨rfl, rfl⟩

/-- The line the DMA controller's irq drives (R255). -/
theorem State.dmaIrq_getLsbD (s : State) (j : Nat) :
    s.dmaIrq.getLsbD j = true ↔ ∃ p, s.params.dma = some p ∧ p.line.toNat = j ∧ s.dma.irq = true := by
  have hbit : ∀ p : DmaParams, (1#16 <<< p.line.toNat).getLsbD j = true ↔ p.line.toNat = j := by
    intro p
    have := p.line.isLt
    simp only [BitVec.getLsbD_shiftLeft, BitVec.getLsbD_one, Bool.and_eq_true, decide_eq_true_eq, Bool.not_eq_true',
      decide_eq_false_iff_not]
    omega
  unfold State.dmaIrq
  split
  next hp => simp [hp]
  next p hp =>
    cases s.dma.irq with
    | false => simp
    | true => simpa [hp] using hbit p

/-- Settles O14: bit by bit, `(ibus OR dmaIrq) AND ie`. -/
theorem effectiveRequests : Obligations.EffectiveRequests := by
  intro s j
  rw [State.req, BitVec.getLsbD_and, BitVec.getLsbD_or, Bool.and_eq_true, Bool.or_eq_true, State.dmaIrq_getLsbD]
  exact and_comm

/-- The registers after a return, by their place in the pairs (R201). -/
theorem State.restoredRegs_get (s : State) (i : Nat) (h : i < 8) :
    s.restoredRegs[i] = (if i < s.params.ns then s.shadowR[i] else s.regs[i])
      ∧ s.restoredRegs[8 + i] = if i < s.params.ns then s.shadowA[i] else s.regs[8 + i] := by
  have h8 : ¬ 8 + i < 8 := by omega
  simp only [State.restoredRegs, vec16_getElem, h, h8, dite_true, dite_false, Nat.add_sub_cancel_left, and_self]

/-- Settles O15: in service rti is the return, whose registers `restoredRegs_get` gives; else it is the fault. -/
theorem rtiReturns : Obligations.RtiReturns := by
  refine fun s => ⟨fun hisr => ?inService, fun hisr => ?outside⟩
  case inService =>
    refine ⟨_, exec_rti_of_inService hisr, rfl, rfl, rfl, fun i h hns => ?_, fun i h hns => ?_, rfl, rfl, rfl, rfl, rfl, rfl,
      rfl, ⟨rfl, rfl, rfl, rfl, rfl⟩, ⟨fun _ => rfl, fun _ => rfl⟩, ⟨rfl, rfl, rfl, rfl, rfl, rfl, rfl, rfl⟩⟩
    · have hregs := s.restoredRegs_get i h
      rw [if_pos hns, if_pos hns] at hregs
      exact hregs.symm
    · have hregs := s.restoredRegs_get i h
      rw [if_neg (Nat.not_lt.2 hns), if_neg (Nat.not_lt.2 hns)] at hregs
      exact hregs.symm
  case outside => exact if_neg (by simp [hisr])

end Sys2Proof.Machine
end

section
/-! Reset, start and the loader (70_reset_and_hazards.md R270 to R276): each pin's step, and the loader's inputs from reset. -/

namespace Sys2Proof.Machine

/-! Reset. -/

/-- Settles O22: each value stands in `State.reset`. -/
theorem resetValues : Obligations.ResetValues :=
  ⟨rfl, rfl, rfl, rfl, rfl, rfl, rfl, rfl, fun _ => rfl, fun _ => rfl⟩

/-- Settles O23: the step is `pinRst`, which takes the core from `State.reset` and everything else from the state. -/
theorem rstPin : Obligations.RstPin := by
  intro s u hsample
  have hstep : step s = .next (pinRst u) := step_of_sample_some hsample
  exact ⟨_, hstep, rfl, rfl, rfl, rfl, rfl, rfl, rfl, rfl, ⟨fun _ => rfl, fun _ => rfl⟩, rfl, rfl, rfl, rfl⟩

/-! The loader's writes and the other pins. -/

theorem pinProgLoad_of_stopped {s : State} (h : s.stopped = true) (a : ProgAddr) (v : Byte)
    (ha : a.toNat < s.params.pramSize) : pinProgLoad a v s = .next (s.setPram (s.pram.write a.toNat v)) := by
  rw [pinProgLoad, if_pos h, if_pos ((s.inPram_iff a.toNat).2 ha)]

theorem externalWrite_of_taken {s : State} {a : DataAddr} (v : Byte) (htaken : s.busTaken = true)
    (ha : a.toNat < s.params.dramSize) (hbars : s.dmaBars = false) :
    externalWrite a v s = .next (s.setDram (s.dram.write a.toNat v)) :=
  (externalWrite_eq_next a v s _).2 ⟨htaken, (s.inDram_iff a.toNat).2 ha, hbars, rfl⟩

theorem pinDataLoad_of_stopped {s : State} (h : s.stopped = true) (a : DataAddr) (v : Byte) :
    pinDataLoad a v s = externalWrite a v s :=
  if_pos h

/-- Settles O25: both writes go through, and change one cell of their memory. -/
theorem loaderWrites : Obligations.LoaderWrites := by
  intro s u v hrun
  have hstop : u.stopped = true := u.stopped_iff.2 hrun
  refine ⟨fun a hsample ha => ?prog, fun a hsample htaken ha hbars => ?data⟩
  case prog =>
    have hstep : step s = .next (u.setPram (u.pram.write a.toNat v)) := by
      rw [step_of_sample_some hsample]
      exact pinProgLoad_of_stopped hstop a v ha
    exact ⟨_, hstep, Memory.read_write _ _ _, fun _ => rfl, rfl, rfl, rfl, rfl, ⟨rfl, rfl, rfl, rfl, rfl, rfl, rfl⟩,
      ⟨rfl, rfl, rfl, rfl, rfl⟩, ⟨rfl, rfl, rfl, rfl, rfl, rfl, rfl, rfl⟩⟩
  case data =>
    have hstep : step s = .next (u.setDram (u.dram.write a.toNat v)) := by
      rw [step_of_sample_some hsample]
      exact (pinDataLoad_of_stopped hstop a v).trans (externalWrite_of_taken v htaken ha hbars)
    exact ⟨_, hstep, Memory.read_write _ _ _, fun _ => rfl, rfl, rfl, rfl, rfl, ⟨rfl, rfl, rfl, rfl, rfl, rfl, rfl⟩,
      ⟨rfl, rfl, rfl, rfl, rfl⟩, ⟨rfl, rfl, rfl, rfl, rfl, rfl, rfl, rfl⟩⟩

theorem State.stopped_eq_false {s : State} (h : s.run = .running ∨ s.run = .halted) : s.stopped = false := by
  rcases h with h | h <;> simp [State.stopped, h]

theorem externalWrite_refused {s : State} {a : DataAddr} (v : Byte)
    (h : s.busTaken = false ∨ s.params.dramSize ≤ a.toNat) : externalWrite a v s = .refused .externalWriteUndescribed := by
  refine if_neg fun hthrough => ?_
  simp only [Bool.and_eq_true, State.inDram_iff] at hthrough
  obtain ⟨⟨htaken, ha⟩, -⟩ := hthrough
  rcases h with h | h
  · simp [h] at htaken
  · omega

/-- While extdaddrsel is asserted extdout shows the external user's cell (R276). -/
theorem State.extdout_of_taken {s : State} (h : s.busTaken = true) (a : DataAddr) : s.extdout a = s.dram.read a.toNat := by
  simp [State.extdout, State.busAddress, h]

/-- Settles O26: each pin's case, in a core that runs, in one that is stopped, and on the data bus. -/
theorem otherPins : Obligations.OtherPins := by
  intro s u v
  refine ⟨fun hrun => ?running, fun hrun => ?stopped, fun on hsample => step_of_sample_some hsample,
    fun a htaken => State.extdout_of_taken htaken a, fun a hsample => ?busWrite⟩
  case running =>
    have hstop : ¬ u.stopped = true := by simp [State.stopped_eq_false hrun]
    refine ⟨fun hsample => ?_, fun a hsample => ?_, fun a hsample => ?_⟩ <;> rw [step_of_sample_some hsample]
    all_goals exact if_neg hstop
  case stopped =>
    have hstop : u.stopped = true := u.stopped_iff.2 hrun
    refine ⟨fun a hsample ha => ?_, fun a hsample ha => ?_⟩ <;> rw [step_of_sample_some hsample]
    · exact (if_pos hstop).trans (if_neg (mt (u.inPram_iff a.toNat).1 (Nat.not_lt.2 ha)))
    · exact (pinDataLoad_of_stopped hstop a v).trans (externalWrite_refused v ha)
  case busWrite =>
    rw [step_of_sample_some hsample]
    refine ⟨fun htaken ha hbars => ?_, fun htaken => externalWrite_refused v (.inl htaken)⟩
    exact ⟨_, externalWrite_of_taken v htaken ha hbars, rfl, Memory.read_write _ _ _⟩

/-! The loader's inputs from reset (R272 to R274). -/

/-- The input that carries one pin event, all lines low. -/
def pinInput (e : PinEvent) : Input := { ibus := 0, pin := some e }

/-- The pin events take the machine from `s` to `t`, one a step, whatever inputs follow them. -/
def Drives (es : List PinEvent) (s t : State) : Prop :=
  ∀ rest, Sys2Proof.core.run es.length { s with inputs := es.map pinInput ++ rest } = .next { t with inputs := rest }

theorem drives_nil (s : State) : Drives [] s s := fun _ => rfl

theorem drives_cons {e : PinEvent} {es : List PinEvent} {s u t : State} (hibus : s.ibus = 0)
    (hpin : ∀ rest, pinStep e { s with inputs := rest } = .next { u with inputs := rest }) (h : Drives es u t) :
    Drives (e :: es) s t := by
  intro rest
  refine run_succ_eq_next.2 ⟨{ u with inputs := es.map pinInput ++ rest }, ?_, h rest⟩
  rw [← hpin, step_of_sample_some (u := { s with inputs := es.map pinInput ++ rest }) (e := e)]
  simp only [State.sample, pinInput, List.map_cons, List.cons_append, hibus]

theorem core_run_add_eq_next (M : Host.Core) (m n : Nat) : ∀ x t : M.State,
    M.run (m + n) x = .next t ↔ ∃ y, M.run m x = .next y ∧ M.run n y = .next t := by
  induction m with
  | zero => simp [Host.Core.run]
  | succ m ih =>
    intro x t
    simp only [Nat.succ_add, core_run_succ_eq_next, ih]
    exact ⟨fun ⟨y, hy, z, hz, ht⟩ => ⟨z, ⟨y, hy, hz⟩, ht⟩, fun ⟨z, ⟨y, hy, hz⟩, ht⟩ => ⟨y, hy, z, hz, ht⟩⟩

theorem Drives.append {es es' : List PinEvent} {s u t : State} (h : Drives es s u) (h' : Drives es' u t) :
    Drives (es ++ es') s t := by
  intro rest
  rw [List.length_append, List.map_append, List.append_assoc]
  exact (core_run_add_eq_next _ _ _ _ _).2 ⟨_, h _, h' rest⟩

/-- Program bytes written from address `k` upward are found there, and the cells below `k` are kept (R272). -/
theorem drives_progLoad (bytes : List Byte) : ∀ (k : Nat) (s : State), s.stopped = true → s.ibus = 0 →
    k + bytes.length ≤ s.params.pramSize → s.params.pramSize ≤ 4096 →
    ∃ m, Drives ((bytes.zipIdx k).map fun c => .progLoad (BitVec.ofNat 12 c.2) c.1) s (s.setPram m)
      ∧ ∀ j, m.read j = if j < k then s.pram.read j else (bytes[j - k]?).or (s.pram.read j) := by
  induction bytes with
  | nil => exact fun k s _ _ _ _ => ⟨s.pram, drives_nil s, by simp⟩
  | cons b bytes ih =>
    intro k s hstop hibus hfits hsize
    rw [List.length_cons] at hfits
    have hk : (BitVec.ofNat 12 k).toNat = k := by
      rw [BitVec.toNat_ofNat]
      omega
    obtain ⟨m, hdrives, hread⟩ := ih (k + 1) (s.setPram (s.pram.write k b)) hstop hibus
      (by simp only [State.setPram_params]; omega) hsize
    refine ⟨m, ?_, fun j => ?_⟩
    · rw [List.zipIdx_cons, List.map_cons]
      refine drives_cons hibus (fun rest => ?_) hdrives
      have hload := pinProgLoad_of_stopped (s := { s with inputs := rest }) hstop (BitVec.ofNat 12 k) b
        (by rw [hk]; show k < s.params.pramSize; omega)
      rw [hk] at hload
      exact hload
    · rw [hread, State.setPram_pram, Memory.read_write]
      rcases Nat.lt_trichotomy j k with hlt | rfl | hgt
      · rw [if_pos (by omega), if_neg (by omega), if_pos hlt]
      · simp
      · obtain ⟨d, rfl⟩ := Nat.exists_eq_add_of_lt hgt
        rw [if_neg (by omega), if_neg (by omega), if_neg (by omega), show k + d + 1 - k = d + 1 by omega,
          show k + d + 1 - (k + 1) = d by omega, List.getElem?_cons_succ]

/-- Data bytes at different addresses are all found there, and the other cells are kept (R273). -/
theorem drives_dataLoad (data : List (DataAddr × Byte)) : ∀ s : State, s.stopped = true → s.ibus = 0 →
    s.busTaken = true → s.dmaBars = false → (∀ c ∈ data, c.1.toNat < s.params.dramSize) → (data.map Prod.fst).Nodup →
    ∃ m, Drives (data.map fun c => .dataLoad c.1 c.2) s (s.setDram m) ∧ (∀ c ∈ data, m.read c.1.toNat = some c.2)
      ∧ ∀ a : DataAddr, a ∉ data.map Prod.fst → m.read a.toNat = s.dram.read a.toNat := by
  induction data with
  | nil => exact fun s _ _ _ _ _ _ => ⟨s.dram, drives_nil s, by simp, by simp⟩
  | cons c data ih =>
    intro s hstop hibus htaken hbars hfits hnodup
    obtain ⟨hc, hfits⟩ := List.forall_mem_cons.1 hfits
    rw [List.map_cons, List.nodup_cons] at hnodup
    obtain ⟨hnew, hnodup⟩ := hnodup
    obtain ⟨m, hdrives, hdata, hkept⟩ :=
      ih (s.setDram (s.dram.write c.1.toNat c.2)) hstop hibus htaken hbars hfits hnodup
    refine ⟨m, drives_cons hibus (fun rest => ?_) hdrives, List.forall_mem_cons.2 ⟨?_, hdata⟩, fun a ha => ?_⟩
    · exact (pinDataLoad_of_stopped (s := { s with inputs := rest }) hstop c.1 c.2).trans
        (externalWrite_of_taken c.2 htaken hc hbars)
    · rw [hkept c.1 hnew, State.setDram_dram, Memory.read_write, if_pos rfl]
    · rw [List.map_cons, List.mem_cons, not_or] at ha
      obtain ⟨hne, ha⟩ := ha
      rw [hkept a ha, State.setDram_dram, Memory.read_write, if_neg fun h => hne (BitVec.eq_of_toNat_eq h)]

/-- The loader takes or releases the data bus (R273). -/
theorem drives_busSel {s : State} (on : Bool) (hibus : s.ibus = 0) : Drives [.busSel on] s { s with busTaken := on } :=
  drives_cons hibus (fun _ => rfl) (drives_nil _)

theorem drives_start {s : State} (hstop : s.stopped = true) (hibus : s.ibus = 0) :
    Drives [.start] s { s with pc := 0, run := .running } :=
  drives_cons (u := { s with pc := 0, run := .running }) hibus
    (fun rest => pinStart_of_stopped (s := { s with inputs := rest }) hstop) (drives_nil _)

/-- The loader's events for an object that fits, in any stopped core without a DMA transfer. -/
theorem drives_loaderEvents (o : Object) (s : State) (hstop : s.stopped = true) (hibus : s.ibus = 0)
    (hbars : s.dmaBars = false) (hprog : o.prog.length ≤ s.params.pramSize) (hsize : s.params.pramSize ≤ 4096)
    (hdata : ∀ c ∈ o.data, c.1.toNat < s.params.dramSize) (hnodup : (o.data.map Prod.fst).Nodup) :
    ∃ pram dram, Drives (loaderEvents o) s
        { s with pram := pram, dram := dram, busTaken := false, pc := 0, run := .running }
      ∧ (∀ j, pram.read j = (o.prog[j]?).or (s.pram.read j)) ∧ ∀ c ∈ o.data, dram.read c.1.toNat = some c.2 := by
  obtain ⟨pram, hloadProg, hpram⟩ := drives_progLoad o.prog 0 s hstop hibus (by omega) hsize
  have htake : Drives [.busSel true] (s.setPram pram) { s.setPram pram with busTaken := true } := drives_busSel true hibus
  obtain ⟨dram, hloadData, hdram, -⟩ :=
    drives_dataLoad o.data { s.setPram pram with busTaken := true } hstop hibus rfl hbars hdata hnodup
  have hrelease : Drives [.busSel false] ({ s.setPram pram with busTaken := true }.setDram dram)
      { s with pram := pram, dram := dram, busTaken := false } := drives_busSel false hibus
  have hstart := drives_start (s := { s with pram := pram, dram := dram, busTaken := false }) hstop hibus
  exact ⟨pram, dram, (hloadProg.append (htake.append hloadData)).append (hrelease.append hstart), hpram, hdram⟩

/-- Settles O27: from reset, with the loader's inputs for `loaderEvents` and nothing after them. -/
theorem loaderStartsProgram : Obligations.LoaderStartsProgram := by
  intro o p hp hprog hdata hnodup
  have hsize : p.pramSize ≤ 4096 := by
    simp only [Params.wf, Bool.and_eq_true, decide_eq_true_eq] at hp
    obtain ⟨⟨⟨⟨⟨-, h⟩, -⟩, -⟩, -⟩, -⟩ := hp
    exact h
  have hbars : ({ State.reset with params := p } : State).dmaBars = false := by simp [State.dmaBars, State.reset]
  obtain ⟨pram, dram, hdrives, hpram, hdram⟩ :=
    drives_loaderEvents o { State.reset with params := p } rfl rfl hbars hprog hsize hdata hnodup
  have hrun := hdrives []
  rw [List.append_nil, ← List.length_map (f := pinInput)] at hrun
  exact ⟨_, hrun, rfl, rfl, rfl, rfl, fun j => by simp [hpram, State.reset], hdram⟩

end Sys2Proof.Machine
end

section
/-! The instructions that compute (40_move_immediate_and_control.md, 41_alu.md, the register moves of 43_gen1.md): what each shared
ending of them gives and leaves alone, and then each instruction. -/

namespace Sys2Proof.Machine

/-! Frames of the updates of registers, pc, sp and sr. -/

/-- Nothing but general registers, pc, sp, sr and the tick is written. -/
theorem sameElsewhere_compute (s : State) (regs : Vector Byte 16) (pc : ProgAddr) (sp : DataAddr) (sr : Sr) (tick : Nat) :
    SameElsewhere s { s with regs := regs, pc := pc, sp := sp, sr := sr, tick := tick } :=
  ⟨⟨rfl, rfl, rfl, rfl, rfl, rfl, rfl⟩, ⟨rfl, rfl, rfl, rfl, rfl⟩, ⟨fun _ => rfl, fun _ => rfl⟩,
    ⟨rfl, rfl, rfl, rfl, rfl, rfl, rfl, rfl⟩⟩

theorem sameRegsBut_nil {s t : State} (h : t.regs = s.regs) : SameRegsBut [] s t :=
  fun n _ => by simp only [State.reg, h]

theorem sameRegsBut_setReg (s : State) (d : RegNum) (v : Byte) : SameRegsBut [d] s (s.setReg d v) :=
  fun _ hn => s.reg_setReg_ne d v _ (List.ne_of_not_mem_cons hn)

/-! Immediate moves and control transfer. -/

/-- The value of mvs as a number (R88, R111). -/
theorem mvsValue_toNat (im : BitVec 12) : (mvsValue im).toNat = (16 * im.toNat + 65535) % 65536 := by
  have hlt := im.isLt
  have hshift : (im.setWidth 16 <<< 4).toNat = 16 * im.toNat := by
    rw [BitVec.toNat_shiftLeft, BitVec.toNat_setWidth, Nat.shiftLeft_eq]
    omega
  have hone : (1 : BitVec 16).toNat = 1 := rfl
  rw [mvsValue, BitVec.toNat_sub, hshift, hone]
  omega

/-- Settles O31: the value of mvs, and nothing but sp and pc written. -/
theorem mvsSetsStackPointer : Obligations.MvsSetsStackPointer :=
  fun im s => ⟨_, rfl, mvsValue_toNat im, rfl, rfl, sameRegsBut_nil rfl, sameElsewhere_compute s _ _ _ _ _⟩

/-- Settles O32: `vector_setVector` for the vectors, and nothing but one of them and pc written. -/
theorem mvvSetsVector : Obligations.MvvSetsVector :=
  fun k im s => ⟨_, rfl, fun j => s.vector_setVector k im j, rfl, rfl, rfl, sameRegsBut_nil rfl, rfl, rfl, rfl, rfl, rfl, rfl,
    ⟨rfl, rfl, rfl, rfl, rfl⟩, ⟨fun _ => rfl, fun _ => rfl⟩, ⟨rfl, rfl, rfl, rfl, rfl, rfl, rfl, rfl⟩⟩

/-- A branch goes to its target or to the next instruction, and writes nothing but pc. -/
theorem branchIf_spec (flag : Bool) (im : ProgAddr) (s : State) :
    ∃ t, branchIf flag im s = .next t ∧ t.pc = (if flag then im else s.pc + 2) ∧ t.sp = s.sp ∧ t.sr = s.sr
      ∧ SameRegsBut [] s t ∧ SameElsewhere s t := by
  cases flag <;> exact ⟨_, rfl, rfl, rfl, rfl, sameRegsBut_nil rfl, sameElsewhere_compute s _ _ _ _ _⟩

/-- Settles O34: jmp is a branch that is always taken. -/
theorem jumpsAndBranches : Obligations.JumpsAndBranches := by
  intro im s i taken h
  simp only [List.mem_cons, List.not_mem_nil, or_false, Prod.mk.injEq] at h
  rcases h with ⟨rfl, rfl⟩ | ⟨rfl, rfl⟩ | ⟨rfl, rfl⟩ | ⟨rfl, rfl⟩ | ⟨rfl, rfl⟩
  · exact branchIf_spec true im s
  all_goals exact branchIf_spec _ im s

/-- Twelve bits above four zero bits are the whole value (R88). -/
theorem extract_shiftLeft_of_low_zero {v : BitVec 16} (h : v.extractLsb' 0 4 = 0) :
    (v.extractLsb' 4 12).setWidth 16 <<< 4 = v := by
  have hlow : v.toNat % 16 = 0 := by simpa using congrArg BitVec.toNat h
  have hv := v.isLt
  apply BitVec.eq_of_toNat_eq
  rw [BitVec.toNat_shiftLeft, BitVec.toNat_setWidth, BitVec.extractLsb'_toNat, Nat.shiftLeft_eq, Nat.shiftRight_eq_div_pow]
  omega

/-- An entry address of which the vector keeps eight bits, the low four being zero (R88, R239). -/
theorem entryAddr_extract_of_low_zero {a : ProgAddr} (h : a.extractLsb' 0 4 = 0) : entryAddr (a.extractLsb' 4 8) = a := by
  have hlow : a.toNat % 16 = 0 := by simpa using congrArg BitVec.toNat h
  have ha := a.isLt
  apply BitVec.eq_of_toNat_eq
  rw [entryAddr_toNat, BitVec.extractLsb'_toNat, Nat.shiftRight_eq_div_pow]
  omega

/-- Settles O28: the fields that the assembler takes, the machine scales back. -/
theorem assemblerScaledOperands : Obligations.AssemblerScaledOperands := by
  refine fun labels equs s => ⟨fun v i h => ?mvs, fun a k i h => ?mvv⟩
  case mvs =>
    simp only [commandInstr, Option.ite_none_right_eq_some, Option.some.injEq] at h
    obtain ⟨hlow, rfl⟩ := h
    exact ⟨_, rfl, congrArg (· - 1) (extract_shiftLeft_of_low_zero hlow)⟩
  case mvv =>
    simp only [commandInstr, Option.ite_none_right_eq_some, Option.some.injEq] at h
    obtain ⟨hlow, rfl⟩ := h
    have hvector : (s.setVector k (a.extractLsb' 4 8)).vector k = a.extractLsb' 4 8 := by
      rw [State.vector_setVector, if_pos rfl]
    exact ⟨_, rfl, (congrArg entryAddr hvector).trans (entryAddr_extract_of_low_zero hlow)⟩

/-! Writing one register. -/

/-- The end of mov, mvi and the logical operations: the register takes the value, pc moves by two. -/
theorem setReg_advance_spec (d : RegNum) (v : Byte) (s : State) :
    ((s.setReg d v).advance 2).reg d = v ∧ OnlyRegAndPc d s ((s.setReg d v).advance 2) :=
  ⟨s.reg_setReg_same d v, rfl, rfl, rfl, sameRegsBut_setReg s d v, sameElsewhere_compute s _ _ _ _ _⟩

/-- Settles O33: both write one register. -/
theorem mviAndMovCopy : Obligations.MviAndMovCopy :=
  fun rs d im s => ⟨⟨_, rfl, setReg_advance_spec d im s⟩, ⟨_, rfl, setReg_advance_spec d (s.reg rs) s⟩⟩

theorem finishLogic_spec (d : RegNum) (v : Byte) (s : State) :
    ∃ t, finishLogic d v s = .next t ∧ OnlyRegAndPc d s t ∧ t.reg d = v :=
  ⟨_, rfl, (setReg_advance_spec d v s).symm⟩

/-- Settles O39: the bits of the four results. -/
theorem logicBitByBit : Obligations.LogicBitByBit := by
  intro rs d s
  have ends : ∀ v : Byte, ∀ bit : Nat → Bool, (∀ j, j < 8 → v.getLsbD j = bit j) →
      ∃ t, finishLogic d v s = .next t ∧ OnlyRegAndPc d s t ∧ ∀ j, j < 8 → (t.reg d).getLsbD j = bit j := by
    intro v bit hbit
    obtain ⟨t, ht, honly, hd⟩ := finishLogic_spec d v s
    exact ⟨t, ht, honly, hd ▸ hbit⟩
  refine ⟨ends _ _ fun j _ => BitVec.getLsbD_and, ends _ _ fun j _ => BitVec.getLsbD_or, ends _ _ fun j _ => ?xor,
    ends _ _ fun j hj => ?not⟩
  case xor => exact BitVec.getLsbD_xor
  case not => rw [BitVec.getLsbD_not, decide_eq_true hj, Bool.true_and]

/-! Shifts and rotates. -/

/-- The shifts by less than eight places, as numbers (R136 to R139). -/
theorem shiftByte_toNat (v : Byte) (n : Fin 8) :
    (shiftByte .sll v n).toNat = v.toNat * 2 ^ n.val % 256 ∧ (shiftByte .srl v n).toNat = v.toNat / 2 ^ n.val
      ∧ (shiftByte .rol v n).toNat = v.toNat * 2 ^ n.val % 256 + v.toNat / 2 ^ (8 - n.val)
      ∧ (shiftByte .ror v n).toNat = v.toNat / 2 ^ n.val + v.toNat * 2 ^ (8 - n.val) % 256 := by
  revert v n
  decide +kernel

/-- A shift completes for every count, and for one below eight gives the shifted byte (R146). -/
theorem finishShift_spec (op : ShiftOp) (rs d : RegNum) (s : State) :
    ∃ t, finishShift op rs d s = .next t ∧ OnlyRegAndPc d s t
      ∧ ((s.reg rs).toNat ≤ 7 → t.reg d = shiftByte op (s.reg d) (s.reg rs).toNat) := by
  unfold finishShift
  split
  next =>
    obtain ⟨hd, honly⟩ := setReg_advance_spec d (shiftByte op (s.reg d) (s.reg rs).toNat) s
    exact ⟨_, rfl, honly, fun _ => hd⟩
  next hlarge =>
    exact ⟨_, rfl, ⟨rfl, rfl, rfl, sameRegsBut_setReg s d _, sameElsewhere_compute s _ _ _ _ _⟩, fun h => absurd h hlarge⟩

/-- Settles O40: the shared ending, and each shift as a number. -/
theorem shiftsAndRotates : Obligations.ShiftsAndRotates := by
  intro rs d s i result h
  have ends : ∀ op, (∀ n : Fin 8, n.val = (s.reg rs).toNat → (shiftByte op (s.reg d) n).toNat = result) →
      ∃ t, finishShift op rs d s = .next t ∧ OnlyRegAndPc d s t ∧ ((s.reg rs).toNat ≤ 7 → (t.reg d).toNat = result) := by
    intro op hresult
    obtain ⟨t, ht, honly, hd⟩ := finishShift_spec op rs d s
    exact ⟨t, ht, honly, fun hn => by rw [hd hn, ← hresult ⟨_, Nat.lt_succ_of_le hn⟩ rfl]⟩
  simp only [List.mem_cons, List.not_mem_nil, or_false, Prod.mk.injEq] at h
  rcases h with ⟨rfl, rfl⟩ | ⟨rfl, rfl⟩ | ⟨rfl, rfl⟩ | ⟨rfl, rfl⟩
  all_goals
    refine ends _ fun n hn => ?_
    obtain ⟨hsll, hsrl, hrol, hror⟩ := shiftByte_toNat (s.reg d) n
    rw [← hn]
    assumption

/-! Arithmetic. -/

/-- The end of an arithmetic operation, by the exact result and the carry of its nine-bit value (R131). -/
theorem finishArith_spec (op : ArithOp) (a b : Byte) (d : RegNum) (t : BitVec 9) (s : State) {total : Nat} {carry : Bool}
    (htotal : t.toNat % 256 = total % 256) (hcarry : decide (256 ≤ t.toNat) = carry) :
    ∃ u, finishArith op a b d t s = .next u ∧ ArithDone d total carry s u := by
  have hresult : (result8 t).toNat = total % 256 := (result8_toNat t).trans htotal
  refine ⟨_, rfl, ?_, ?_, ?_, (carry9_eq t).trans hcarry, ⟨rfl, rfl, rfl, rfl⟩, rfl, rfl, ?_, sameElsewhere_compute s _ _ _ _ _⟩
  · exact (congrArg BitVec.toNat (s.reg_setReg_same d (result8 t))).trans hresult
  · exact (byte_beq_zero (result8 t)).trans (by rw [hresult])
  · exact (BitVec.getLsbD_eq_getElem (by decide)).trans ((byte_top (result8 t)).trans (by rw [hresult]))
  · exact sameRegsBut_setReg s d (result8 t)

/-- Settles O36: the nine-bit sum is the exact sum. -/
theorem additions : Obligations.Additions := by
  intro rs d im s
  have ends : ∀ op (a b : Byte) (c : Bool) total, a.toNat + b.toNat + c.toNat = total →
      ∃ t, finishArith op a b d (sum9 a b c) s = .next t ∧ ArithDone d total (decide (256 ≤ total)) s t := by
    intro op a b c total htotal
    apply finishArith_spec <;> rw [sum9_toNat, htotal]
  exact ⟨ends _ _ _ false _ rfl, ends _ _ _ s.sr.c _ rfl, ends _ _ (adiAmount im) false _ (by rw [adiAmount_toNat]; rfl)⟩

/-- Settles O37: the nine-bit difference is the exact one, with its borrow in bit 8. -/
theorem subtractions : Obligations.Subtractions := by
  intro rs d im s
  have ends : ∀ op (a b : Byte) (c : Bool) subtrahend, b.toNat + c.toNat = subtrahend →
      ∃ t, finishArith op a b d (diff9 a b c) s = .next t
        ∧ ArithDone d (a.toNat + 512 - subtrahend) (decide (a.toNat < subtrahend)) s t := by
    rintro op a b c _ rfl
    have ha := a.isLt
    have hb := b.isLt
    have hc := c.toNat_lt
    apply finishArith_spec <;> rw [diff9_toNat]
    · omega
    · rw [decide_eq_decide]
      omega
  exact ⟨ends _ _ _ false _ rfl, ends _ _ _ s.sr.c _ rfl, ends _ _ (adiAmount im) false _ (by rw [adiAmount_toNat]; rfl)⟩

theorem toNat_decide (p : Prop) [Decidable p] : (decide p).toNat = if p then 1 else 0 := by
  by_cases h : p <;> simp [h]

/-- Settles O38: the first operation's results are the second's operands, and the carries add up. -/
theorem twoByteArithmetic : Obligations.TwoByteArithmetic := by
  intro sl sh dl dh s hsh hdh
  refine ⟨?add, ?sub⟩
  case add =>
    obtain ⟨⟨t, ht, hlow, -, -, hcl, -, -, -, hkeepL, -⟩, -, -⟩ := additions sl dl 0 s
    obtain ⟨-, ⟨u, hu, hhigh, -, -, hch, -, -, -, hkeepH, -⟩, -⟩ := additions sh dh 0 t
    refine ⟨t, u, ht, hu, ?_⟩
    rw [hkeepL sh (by simpa using hsh.symm), hkeepL dh (by simpa using hdh.symm), hcl, toNat_decide] at hhigh hch
    rw [hhigh, hch, toNat_decide, hkeepH dl (by simpa using hdh), hlow]
    split <;> split <;> omega
  case sub =>
    obtain ⟨⟨t, ht, hlow, -, -, hcl, -, -, -, hkeepL, -⟩, -, -⟩ := subtractions sl dl 0 s
    obtain ⟨-, ⟨u, hu, hhigh, -, -, hch, -, -, -, hkeepH, -⟩, -⟩ := subtractions sh dh 0 t
    refine ⟨t, u, ht, hu, ?_⟩
    have := (s.reg dl).isLt
    have := (s.reg dh).isLt
    rw [hkeepL sh (by simpa using hsh.symm), hkeepL dh (by simpa using hdh.symm), hcl, toNat_decide] at hhigh hch
    rw [hhigh, hch, toNat_decide, hkeepH dl (by simpa using hdh), hlow]
    split <;> split <;> omega

/-! The enable register, hlt and sys. -/

/-- A register pair as a number (R21). -/
theorem State.pair_toNat (s : State) (i : PairIdx) : (s.pair i).toNat = 256 * (s.reg (aNum i)).toNat + (s.reg (rNum i)).toNat := by
  have hr := (s.reg (rNum i)).isLt
  rw [State.pair, BitVec.toNat_append, ← Nat.shiftLeft_add_eq_or_of_lt hr, Nat.shiftLeft_eq]
  omega

/-- rie writes the two halves of a pair (R198). -/
theorem setPair_spec (i : PairIdx) (v : BitVec 16) (s : State) :
    ((s.setPair i v).reg (aNum i)).toNat = v.toNat / 256 ∧ ((s.setPair i v).reg (rNum i)).toNat = v.toNat % 256
      ∧ SameRegsBut [aNum i, rNum i] s (s.setPair i v) := by
  have hv := v.isLt
  refine ⟨?_, ?_, fun n hn => ?_⟩
  · rw [State.reg_setPair, if_neg (aNum_ne_rNum i i), if_pos rfl, BitVec.extractLsb'_toNat, Nat.shiftRight_eq_div_pow]
    omega
  · rw [State.reg_setPair, if_pos rfl, BitVec.extractLsb'_toNat, Nat.shiftRight_zero]
  · simp only [List.mem_cons, List.not_mem_nil, or_false, not_or] at hn
    obtain ⟨ha, hr⟩ := hn
    rw [State.reg_setPair, if_neg hr, if_neg ha]

/-- Settles O56: the two halves of ie are written to the pair and read from it. -/
theorem rieAndSie : Obligations.RieAndSie := by
  refine fun i s => ⟨?rie, ?sie⟩
  case rie =>
    obtain ⟨ha, hr, hregs⟩ := setPair_spec i s.ie s
    exact ⟨_, rfl, ha, hr, hregs, rfl, rfl, rfl, sameElsewhere_compute s _ _ _ _ _⟩
  case sie =>
    exact ⟨_, rfl, s.pair_toNat i, sameRegsBut_nil rfl, rfl, rfl, rfl, rfl, rfl, rfl, rfl, rfl, rfl,
      ⟨rfl, rfl, rfl, rfl, rfl⟩, ⟨fun _ => rfl, fun _ => rfl⟩, ⟨rfl, rfl, rfl, rfl, rfl, rfl, rfl, rfl⟩⟩

/-- Without inputs, a halted core with nothing to enter stays as it is (R245). -/
theorem step_halted {s : State} (hrun : s.run = .halted) (hinputs : s.inputs = []) (h : s.isr = true ∨ s.req = 0) :
    step s = .next s := by
  have hint : s.pendingInterrupt = none :=
    h.elim State.pendingInterrupt_of_inService State.pendingInterrupt_of_req_eq_zero
  rw [step_of_sample_none (u := s) (by simp only [State.sample, hinputs]), coreStep_halted hrun hint]

theorem run_fixed {s : State} (h : step s = .next s) (n : Nat) : Sys2Proof.core.run n s = .next s := by
  induction n with
  | zero => rfl
  | succ n ih => exact run_succ_eq_next.2 ⟨s, h, ih⟩

/-- Settles O57: hlt writes pc and the run state, and the halted state is a fixed point of the step. -/
theorem hltWaits : Obligations.HltWaits :=
  fun _ => ⟨_, rfl, rfl, rfl, rfl, rfl, sameRegsBut_nil rfl, ⟨rfl, rfl, rfl, rfl, rfl, rfl, rfl⟩, ⟨rfl, rfl, rfl, rfl, rfl⟩,
    ⟨fun _ => rfl, fun _ => rfl⟩, rfl, rfl, rfl, rfl, rfl, rfl, rfl,
    fun hinputs hnone => run_fixed (step_halted rfl hinputs hnone)⟩

end Sys2Proof.Machine
end

section
/-! Data memory: loads, stores and the stack (20_memory.md R54 to R59, 43_gen1.md, 44_stack.md). The frames of a read and of a
write come first, then the instructions, and the places where they stop. -/

namespace Sys2Proof.Machine

/-! Frames. -/

theorem sameButData_access (s : State) (regs : Vector Byte 16) (pc : ProgAddr) (sp : DataAddr) (sr : Sr) (dram : Memory)
    (dma : Dma) (events : List Event) (tick : Nat) :
    SameButData s { s with
      regs := regs, pc := pc, sp := sp, sr := sr, dram := dram, dma := dma, events := events, tick := tick } :=
  ⟨⟨rfl, rfl, rfl, rfl, rfl, rfl, rfl⟩, ⟨rfl, rfl, rfl, rfl, rfl⟩, fun _ => rfl, rfl, rfl, rfl, rfl, rfl, rfl⟩

/-- A read, and then new values in general registers, pc, sp and sr. -/
theorem readFrame_afterRead (s : State) (a : DataAddr) (regs : Vector Byte 16) (pc : ProgAddr) (sp : DataAddr) (sr : Sr)
    (tick : Nat) : ReadFrame a s { s.afterRead a with regs := regs, pc := pc, sp := sp, sr := sr, tick := tick } :=
  ⟨sameButData_access s _ _ _ _ _ _ _ _, fun _ => rfl, rfl, rfl⟩

/-- The state after a write that goes through, away from the DMA controller's registers. -/
def State.stored (s : State) (a : DataAddr) (v : Byte) : State :=
  { s with
    dram := if s.inDram a.toNat then s.dram.write a.toNat v else s.dram
    events := s.events ++ [.dataWrite a v] }

theorem State.stored_read (s : State) (a : DataAddr) (v : Byte) (x : Nat) : (s.stored a v).dram.read x = s.cellAfter a v x := by
  rw [← s.storeDram_read a v x, State.storeDram_eq]
  rfl

/-- A write, and then new values in general registers, pc and sp. -/
theorem writeFrame_stored (s : State) (a : DataAddr) (v : Byte) (regs : Vector Byte 16) (pc : ProgAddr) (sp : DataAddr) :
    WriteFrame a v s { s.stored a v with regs := regs, pc := pc, sp := sp } :=
  ⟨sameButData_access s _ _ _ _ _ _ _ _, s.stored_read a v, rfl, rfl⟩

theorem State.memWrite_stored {s : State} {a : DataAddr} (h : s.canWrite a = true) (v : Byte) :
    s.memWrite a v = .next (s.stored a v) := by
  rw [s.memWrite_of_canWrite a v h, State.storeDram_eq]
  rfl

theorem State.push_stored {s : State} (h : s.canWrite s.sp = true) (v : Byte) :
    s.push v = .next ((s.stored s.sp v).setSp (s.sp - 1)) := by
  rw [State.push, State.memWrite_stored h v, andThen_next]

/-- A pop where the bus gives a byte (R59). -/
theorem State.popByte_of_readValue {s : State} {v : Byte} (h : s.readValue (s.sp + 1) = some v) :
    s.popByte = .next (v, (s.setSp (s.sp + 1)).afterRead (s.sp + 1)) :=
  (s.popByte_eq_next _).2 ⟨h, rfl⟩

/-! Loads and stores through a pair. -/

/-- lpb adds one to r_i alone, modulo 2^8 (R192). -/
theorem stepPair_spec (i : PairIdx) (s : State) :
    ((s.stepPair i).reg (rNum i)).toNat = ((s.reg (rNum i)).toNat + 1) % 256 ∧ SameRegsBut [rNum i] s (s.stepPair i) := by
  refine ⟨?_, sameRegsBut_setReg s _ _⟩
  rw [State.reg_stepPair, if_pos rfl, BitVec.toNat_add]
  rfl

/-- An operation that goes through hands its value on. -/
theorem andThen_of_next {α β : Type} {o : Answer α} {x : α} (h : o = .next x) (f : α → Answer β) : andThen o f = f x := by
  rw [h, andThen_next]

/-- Settles O49: the read goes through, then the registers are written. -/
theorem loadsRead : Obligations.LoadsRead := by
  intro i d s v hv
  have hread := s.memRead_of_readValue _ v hv
  refine ⟨?ldb, ?lpb⟩
  case ldb =>
    exact ⟨_, andThen_of_next hread _, State.reg_setReg_same _ d v, sameRegsBut_setReg s d v, rfl, rfl, rfl,
      readFrame_afterRead s _ _ _ _ _ _⟩
  case lpb =>
    by_cases hd : d = rNum i
    · refine ⟨_, (andThen_of_next hread _).trans (if_pos hd), fun n hn => ?_, fun hne => absurd hd hne, rfl, rfl, rfl,
        readFrame_afterRead s _ _ _ _ _ _⟩
      exact s.reg_setReg_ne d _ n (List.ne_of_not_mem_cons hn)
    · obtain ⟨hstep, hkeep⟩ := stepPair_spec i s
      refine ⟨_, (andThen_of_next hread _).trans (if_neg hd), fun n hn => ?_,
        fun _ => ⟨State.reg_setReg_same _ d v, ?_⟩, rfl, rfl, rfl, readFrame_afterRead s _ _ _ _ _ _⟩
      · rw [List.mem_cons, not_or] at hn
        obtain ⟨hnd, hnr⟩ := hn
        exact ((s.stepPair i).reg_setReg_ne d v n hnd).trans (hkeep n hnr)
      · exact (congrArg BitVec.toNat ((s.stepPair i).reg_setReg_ne d v _ (Ne.symm hd))).trans hstep

/-- Settles O50: the write goes through, then spb steps r_i. -/
theorem storesWrite : Obligations.StoresWrite := by
  intro v i s h
  have hwrite := State.memWrite_stored h (s.reg v)
  obtain ⟨hstep, hkeep⟩ := stepPair_spec i s
  exact ⟨⟨_, andThen_of_next hwrite _, writeFrame_stored s _ _ _ _ _, sameRegsBut_nil rfl, rfl, rfl, rfl⟩,
    ⟨_, andThen_of_next hwrite _, writeFrame_stored s _ _ _ _ _, hkeep, hstep, rfl, rfl, rfl⟩⟩

/-! The stack. -/

/-- Settles O51: both push, str the flags as a byte. -/
theorem pushesWrite : Obligations.PushesWrite := by
  intro rs s h
  exact ⟨⟨_, andThen_of_next (State.push_stored h (s.reg rs)) _, writeFrame_stored s _ _ _ _ _, sameRegsBut_nil rfl, rfl, rfl,
      rfl⟩,
    ⟨_, s.sr.toByte, andThen_of_next (State.push_stored h s.sr.toByte) _, writeFrame_stored s _ _ _ _ _, sameRegsBut_nil rfl,
      rfl, rfl, rfl, s.sr.toByte_eq⟩⟩

/-- Settles O52: both pop, lsr to all eight flags. -/
theorem popsRead : Obligations.PopsRead := by
  intro d s v h
  have hpop := State.popByte_of_readValue h
  exact ⟨⟨_, andThen_of_next hpop _, State.reg_setReg_same _ d v, sameRegsBut_setReg s d v, rfl, rfl, rfl,
      readFrame_afterRead s _ _ _ _ _ _⟩,
    ⟨_, andThen_of_next hpop _, sameRegsBut_nil rfl, rfl, rfl, readFrame_afterRead s _ _ _ _ _ _,
      (Sr.toByte_ofByte v).symm.trans (Sr.ofByte v).toByte_eq⟩⟩

theorem dataAddr_add_two (a : DataAddr) : a + 1 + 1 = a + 2 := by
  rw [BitVec.add_assoc]
  rfl

theorem dataAddr_sub_two (a : DataAddr) : a - 1 - 1 = a - 2 := by
  rw [BitVec.sub_sub]
  rfl

/-- ret where both reads go through (R195). -/
theorem exec_ret_of_reads {s : State} {lo hi : Byte} (hlo : s.readValue (s.sp + 1) = some lo)
    (hhi : ((s.setSp (s.sp + 1)).afterRead (s.sp + 1)).readValue (s.sp + 2) = some hi) :
    exec .ret s = .next { s with
      sp := s.sp + 2, pc := hi.extractLsb' 0 4 ++ lo, events := s.events ++ [.dataRead (s.sp + 1), .dataRead (s.sp + 2)],
      tick := s.tick + 2 } := by
  rw [← dataAddr_add_two] at hhi ⊢
  have hpop := State.popByte_of_readValue hlo
  have hpop2 := State.popByte_of_readValue (s := (s.setSp (s.sp + 1)).afterRead (s.sp + 1)) hhi
  simp only [exec, execRet, hpop, andThen_next, hpop2]
  simp only [State.afterRead, State.emit, State.bump, State.setSp, State.setPc, List.append_assoc, List.singleton_append]

/-- Settles O53: two pops, and pc from their bytes. -/
theorem retReturns : Obligations.RetReturns :=
  fun s lo hi hlo hhi => ⟨_, exec_ret_of_reads hlo hhi, returnAddr_toNat lo hi, rfl, rfl, sameRegsBut_nil rfl,
    sameButData_access s _ _ _ _ _ _ _ _, fun _ => rfl, rfl, rfl⟩

/-! jsr. -/

/-- The two bytes of a return address (R114). -/
theorem returnAddr_bytes {ra : ProgAddr} {hi lo : Byte} (hhi : hi.toNat = ra.toNat / 256) (hlo : lo.toNat = ra.toNat % 256) :
    (ra.extractLsb' 8 4).setWidth 8 = hi ∧ ra.extractLsb' 0 8 = lo := by
  have h := ra.isLt
  refine ⟨BitVec.eq_of_toNat_eq ?_, BitVec.eq_of_toNat_eq ?_⟩
  · rw [BitVec.toNat_setWidth, BitVec.extractLsb'_toNat, Nat.shiftRight_eq_div_pow, hhi]
    omega
  · rw [BitVec.extractLsb'_toNat, Nat.shiftRight_zero, hlo]

/-- jsr is two writes, one below the other, whatever each does. -/
theorem exec_jsr_of_writes {s s1 s2 : State} {hi lo : Byte} (im : ProgAddr) (hhi : hi.toNat = (s.pc + 2).toNat / 256)
    (hlo : lo.toNat = (s.pc + 2).toNat % 256) (h1 : s.memWrite s.sp hi = .next s1)
    (h2 : s1.memWrite (s.sp - 1) lo = .next s2) : exec (.jsr im) s = .next ((s2.setSp (s.sp - 2)).setPc im) := by
  obtain ⟨ehi, elo⟩ := returnAddr_bytes hhi hlo
  simp only [exec, execJsr, ehi, elo, State.push, h1, andThen_next, State.setSp_sp, State.memWrite_setSp, h2, dataAddr_sub_two]
  rfl

/-- Settles O35: the two writes by `memWrite_stored`, or as they are given. -/
theorem jsrCalls : Obligations.JsrCalls := by
  refine fun im s hi lo hhi hlo => ⟨fun hw1 hw2 => ?writable, fun s1 s2 h1 h2 => ?general⟩
  case writable =>
    have hexec := exec_jsr_of_writes im hhi hlo (State.memWrite_stored hw1 hi)
      (State.memWrite_stored (s := s.stored s.sp hi) (a := s.sp - 1) hw2 lo)
    refine ⟨_, hexec, fun x => ?_, by simp [State.stored], rfl, rfl, rfl, sameRegsBut_nil rfl,
      sameButData_access s _ _ _ _ _ _ _ _, rfl⟩
    refine ((s.stored s.sp hi).stored_read (s.sp - 1) lo x).trans ?_
    rw [State.cellAfter, State.stored_read]
    refine if_congr ?_ rfl rfl
    rw [State.inDram_iff]
    exact and_congr_right fun hx => by rw [hx]; rfl
  case general =>
    have hexec := exec_jsr_of_writes im hhi hlo h1 h2
    obtain ⟨⟨_, _, _, rfl, -⟩, -⟩ := (stores_of_memWrite h1).trans (stores_of_memWrite h2)
    exact ⟨_, hexec, rfl, rfl, rfl, rfl, rfl, rfl, sameRegsBut_nil rfl, sameButData_access s _ _ _ _ _ _ _ _⟩

end Sys2Proof.Machine
end

section
/-! What goes on the stack comes off it, where data accesses stop, and the example DMA controller (20_memory.md R54 to R67,
43_gen1.md R202, 60_exceptions.md R253 to R255). -/

namespace Sys2Proof.Machine

/-! Round trips of the stack. -/

/-- A cell of DRAM that takes a write and that no peripheral answers reads as it stands, once only data memory, the events and
the core's own registers have changed (R54). -/
theorem State.readValue_of_dram {s t : State} {a : DataAddr} (hsame : SameButData s t) (hdma : t.dma = s.dma)
    (hwrite : s.canWrite a = true) (hin : a.toNat < s.params.dramSize) (hanswers : s.answersRead a.toNat = false) :
    t.readValue a = t.dram.read a.toNat := by
  obtain ⟨-, -, -, -, -, htaken, -, -, hparams⟩ := hsame
  simp only [State.canWrite, Bool.and_eq_true, Bool.not_eq_true'] at hwrite
  obtain ⟨⟨hbusy, -⟩, -⟩ := hwrite
  have hbusy' : t.busBusy = false := by simpa only [State.busBusy, State.dmaBars, htaken, hparams, hdma] using hbusy
  have hanswers' : t.answersRead a.toNat = false := by
    simpa only [State.answersRead, State.dmaClaims, hparams] using hanswers
  have hin' : t.inDram a.toNat = true := (t.inDram_iff _).2 (hparams ▸ hin)
  simp only [State.readValue, hbusy', hanswers', hin', Bool.false_eq_true, if_false, if_true]

theorem State.cellAfter_same {s : State} {a : DataAddr} (hin : a.toNat < s.params.dramSize) (v : Byte) :
    s.cellAfter a v a.toNat = some v :=
  if_pos ⟨rfl, (s.inDram_iff _).2 hin⟩

/-- The byte pushed at sp is the one a pop finds there. -/
theorem readValue_after_push {s t : State} {v : Byte} (hframe : WriteFrame s.sp v s t) (hsp : t.sp = s.sp - 1)
    (hwrite : s.canWrite s.sp = true) (hin : s.sp.toNat < s.params.dramSize) (hanswers : s.answersRead s.sp.toNat = false) :
    t.readValue (t.sp + 1) = some v := by
  obtain ⟨hsame, hcells, hdma, -⟩ := hframe
  rw [hsp, BitVec.sub_add_cancel, State.readValue_of_dram hsame hdma hwrite hin hanswers, hcells, State.cellAfter_same hin]

theorem Sr.toByte_injective {f g : Sr} (h : f.toByte = g.toByte) : f = g := by
  rw [← Sr.ofByte_toByte f, h, Sr.ofByte_toByte]

theorem dataAddr_toNat_sub_one_ne (a : DataAddr) : a.toNat ≠ (a - 1).toNat := by
  have hlt := a.isLt
  have hone : (1 : DataAddr).toNat = 1 := rfl
  rw [BitVec.toNat_sub, hone]
  omega

/-- jsr and ret: both bytes of the return address come back from where they were written. -/
theorem jsr_ret {s : State} (im : ProgAddr) (hw1 : s.canWrite s.sp = true) (hin1 : s.sp.toNat < s.params.dramSize)
    (hans1 : s.answersRead s.sp.toNat = false) (hw2 : s.canWrite (s.sp - 1) = true)
    (hin2 : (s.sp - 1).toNat < s.params.dramSize) (hans2 : s.answersRead (s.sp - 1).toNat = false) :
    ∃ t u, exec (.jsr im) s = .next t ∧ exec .ret t = .next u ∧ u.pc = s.pc + 2 ∧ u.sp = s.sp ∧ u.sr = s.sr
      ∧ u.regs = s.regs := by
  have hpc := (s.pc + 2).isLt
  obtain ⟨hi, hhi⟩ : ∃ hi : Byte, hi.toNat = (s.pc + 2).toNat / 256 :=
    ⟨BitVec.ofNat 8 ((s.pc + 2).toNat / 256), by rw [BitVec.toNat_ofNat]; omega⟩
  obtain ⟨lo, hlo⟩ : ∃ lo : Byte, lo.toNat = (s.pc + 2).toNat % 256 :=
    ⟨BitVec.ofNat 8 (s.pc + 2).toNat, by rw [BitVec.toNat_ofNat]⟩
  obtain ⟨hcall, -⟩ := jsrCalls im s hi lo hhi hlo
  obtain ⟨t, ht, hcells, -, -, hsp, hsr, hregs, hsame, hdma⟩ := hcall hw1 hw2
  have hlow : t.readValue (t.sp + 1) = some lo := by
    rw [hsp, ← dataAddr_sub_two, BitVec.sub_add_cancel, State.readValue_of_dram hsame hdma hw2 hin2 hans2, hcells,
      if_pos ⟨rfl, hin2⟩]
  have hhigh : ((t.setSp (t.sp + 1)).afterRead (t.sp + 1)).readValue (t.sp + 2) = some hi := by
    have hsame' : SameButData s ((t.setSp (t.sp + 1)).afterRead (t.sp + 1)) := hsame
    have hback : t.sp + 2 = s.sp := by rw [hsp, BitVec.sub_add_cancel]
    rw [hback, State.readValue_of_dram hsame' hdma hw1 hin1 hans1]
    refine (hcells s.sp.toNat).trans ?_
    rw [if_neg fun h => dataAddr_toNat_sub_one_ne s.sp h.1, State.cellAfter_same hin1]
  obtain ⟨u, hu, hpcu, hspu, hsru, hregsu, -⟩ := retReturns t lo hi hlow hhigh
  refine ⟨t, u, ht, hu, BitVec.eq_of_toNat_eq ?_, ?_, hsru.trans hsr, State.regs_ext _ _ fun n => ?_⟩
  · rw [hpcu, hhi, hlo]
    omega
  · rw [hspu, hsp, BitVec.sub_add_cancel]
  · exact (hregsu n List.not_mem_nil).trans (hregs n List.not_mem_nil)

/-- Settles O54: each pop reads what the push wrote, and `jsr_ret`. -/
theorem stackRoundTrips : Obligations.StackRoundTrips := by
  intro s rs d im hw hin hans
  obtain ⟨⟨t, ht, htf, -, -, htsp, -⟩, ⟨w, b, hexw, hwf, -, -, hwsp, -, hb⟩⟩ := pushesWrite rs s hw
  refine ⟨?_, ?_, fun hw2 hin2 hans2 => jsr_ret im hw hin hans hw2 hin2 hans2⟩
  · obtain ⟨⟨u, hu, hud, -, -, husp, -⟩, -⟩ := popsRead d t _ (readValue_after_push htf htsp hw hin hans)
    exact ⟨t, u, ht, hu, hud, by rw [husp, htsp, BitVec.sub_add_cancel]⟩
  · obtain ⟨-, ⟨u, hu, -, -, husp, -, hub⟩⟩ := popsRead d w _ (readValue_after_push hwf hwsp hw hin hans)
    refine ⟨w, u, hexw, hu, Sr.toByte_injective ?_, by rw [husp, hwsp, BitVec.sub_add_cancel]⟩
    rw [Sr.toByte_eq, Sr.toByte_eq, ← hb, ← hub]

/-! Where a data access stops. -/

theorem andThen_of_fault {α β : Type} {o : Answer α} {r : Fault} (h : o = .fault r) (f : α → Answer β) :
    andThen o f = .fault r := by
  rw [h, andThen_fault]

theorem State.memRead_of_busy {s : State} (h : s.busBusy = true) (a : DataAddr) : s.memRead a = .fault .busContention :=
  if_pos h

theorem State.memWrite_of_busy {s : State} (h : s.busBusy = true) (a : DataAddr) (v : Byte) :
    s.memWrite a v = .fault .busContention :=
  if_pos h

theorem State.memWrite_of_noPlace {s : State} {a : DataAddr} (hbusy : s.busBusy = false) (hdram : s.params.dramSize ≤ a.toNat)
    (hclaimed : s.claimed a.toNat = false) (v : Byte) : s.memWrite a v = .fault .dataAccessOutOfRange := by
  have hin : s.inDram a.toNat = false := by simp [State.inDram, hdram]
  simp only [State.memWrite, hbusy, hin, hclaimed, Bool.or_self, Bool.false_eq_true, if_false]

/-- A push stops where its write does, a pop where its read does. -/
theorem State.push_of_fault {s : State} {v : Byte} {f : Fault} (h : s.memWrite s.sp v = .fault f) : s.push v = .fault f :=
  andThen_of_fault h _

/-- With another master on the bus (R67). -/
theorem exec_of_busy {s : State} (h : s.busBusy = true) (i : PairIdx) (r : RegNum) (im : ProgAddr) :
    ∀ c ∈ [Instr.ldb i r, .lpb i r, .stb r i, .spb r i, .psh r, .pop r, .str, .lsr, .ret, .jsr im],
      exec c s = .fault .busContention := by
  have hread := State.memRead_of_busy h
  have hwrite := State.memWrite_of_busy h
  have hpush : ∀ v, s.push v = .fault .busContention := fun v => State.push_of_fault (hwrite s.sp v)
  have hpop : s.popByte = .fault .busContention := State.memRead_of_busy (s := s.setSp (s.sp + 1)) h _
  simp only [List.forall_mem_cons]
  exact ⟨andThen_of_fault (hread _) _, andThen_of_fault (hread _) _, andThen_of_fault (hwrite _ _) _,
    andThen_of_fault (hwrite _ _) _, andThen_of_fault (hpush _) _, andThen_of_fault hpop _, andThen_of_fault (hpush _) _,
    andThen_of_fault hpop _, andThen_of_fault hpop _, andThen_of_fault (hpush _) _, List.forall_mem_nil _⟩

/-- Settles O55: contention, then the reads that get no byte, then the writes with no place, first and second accesses. -/
theorem dataAccessStops : Obligations.DataAccessStops := by
  intro s i r im
  refine ⟨fun hbusy => exec_of_busy hbusy i r im, fun hbusy => ⟨fun a f hans hf => ⟨?load, ?pop, ?ret⟩,
    fun a hdram hclaimed => ⟨?store, ?push, ?jsr⟩⟩⟩
  case load =>
    rintro rfl
    have hread := s.memRead_stop _ f hbusy hans hf
    simp only [List.forall_mem_cons]
    exact ⟨andThen_of_fault hread _, andThen_of_fault hread _, List.forall_mem_nil _⟩
  case pop =>
    rintro rfl
    have hpop : s.popByte = .fault f := (s.setSp (s.sp + 1)).memRead_stop _ f hbusy hans hf
    simp only [List.forall_mem_cons]
    exact ⟨andThen_of_fault hpop _, andThen_of_fault hpop _, andThen_of_fault hpop _, List.forall_mem_nil _⟩
  case ret =>
    rintro rfl hlow
    obtain ⟨lo, hlo⟩ := Option.isSome_iff_exists.1 hlow
    have hpop2 : ((s.setSp (s.sp + 1)).afterRead (s.sp + 1)).popByte = .fault f := by
      rw [← dataAddr_add_two] at hans hf
      exact State.memRead_stop _ _ f hbusy hans hf
    exact (andThen_of_next (State.popByte_of_readValue hlo) _).trans (andThen_of_fault hpop2 _)
  case store =>
    rintro rfl
    have hwrite := State.memWrite_of_noPlace hbusy hdram hclaimed
    simp only [List.forall_mem_cons]
    exact ⟨andThen_of_fault (hwrite _) _, andThen_of_fault (hwrite _) _, List.forall_mem_nil _⟩
  case push =>
    rintro rfl
    have hpush := fun v => State.push_of_fault (State.memWrite_of_noPlace hbusy hdram hclaimed v)
    simp only [List.forall_mem_cons]
    exact ⟨andThen_of_fault (hpush _) _, andThen_of_fault (hpush _) _, andThen_of_fault (hpush _) _, List.forall_mem_nil _⟩
  case jsr =>
    rintro rfl hw
    have hpush2 : ∀ hi lo : Byte, ((s.stored s.sp hi).setSp (s.sp - 1)).push lo = .fault .dataAccessOutOfRange := fun hi lo =>
      State.push_of_fault (State.memWrite_of_noPlace (s := (s.stored s.sp hi).setSp (s.sp - 1)) hbusy hdram hclaimed lo)
    exact (andThen_of_next (State.push_stored hw _) _).trans (andThen_of_fault (hpush2 _ _) _)

end Sys2Proof.Machine
end

section
/-! The s-bus and the example DMA controller (43_gen1.md R202, 60_exceptions.md R241, R253 to R255): the acknowledge, the stores
to the controller's registers, and the end of a transfer. -/

namespace Sys2Proof.Machine

/-! sys. -/

/-- What sys gives, by what the acknowledge makes of the controller (R202, R241). -/
theorem sys_spec (im : Byte) (s : State) : ∃ dma,
    exec (.sys im) s = .next { s with
      sbus := im, run := if im = 0xFF then .ended else s.run, pc := s.pc + 2, dma := dma, events := s.events ++ [.sbusOut im] }
      ∧ (dma = s.dma.acked ∧ (∃ p, s.params.dma = some p ∧ im.toNat = 0x10 + p.line.toNat)
        ∨ dma = s.dma ∧ ∀ p, s.params.dma = some p → im.toNat ≠ 0x10 + p.line.toNat) := by
  have hexec : exec (.sys im) s = _ := execSys_eq im s
  rw [State.sbusOut] at hexec
  rcases dmaAck_eq ((s.emit (.sbusOut im)).setSbus im) im with ⟨hack, hline⟩ | ⟨hack, hline⟩ <;> rw [hack] at hexec
  · exact ⟨s.dma.acked, hexec, .inl ⟨rfl, hline⟩⟩
  · exact ⟨s.dma, hexec, .inr ⟨rfl, hline⟩⟩

/-- Settles O58: `sys_spec`, and what an acknowledge is. -/
theorem sysOutputs : Obligations.SysOutputs := by
  intro im s
  obtain ⟨dma, hexec, hdma⟩ := sys_spec im s
  refine ⟨_, hexec, rfl, rfl, rfl, rfl, rfl, rfl, sameRegsBut_nil rfl, ⟨rfl, rfl, rfl, rfl, rfl, rfl, rfl⟩,
    ⟨rfl, rfl, rfl, rfl, rfl⟩, ⟨fun _ => rfl, fun _ => rfl⟩, rfl, rfl, rfl, rfl, ?_⟩
  rcases hdma with ⟨rfl, p, hp, hline⟩ | ⟨rfl, hline⟩
  · exact ⟨rfl, rfl, rfl, fun _ => ⟨rfl, s.dma.acked_phase⟩, fun h => absurd hline (h p hp)⟩
  · exact ⟨rfl, rfl, rfl, fun ⟨p, hp, h⟩ => absurd h (hline p hp), fun _ => rfl⟩

/-! Stores to the DMA controller's registers. -/

/-- A store to one of the controller's registers is seen by it, and lands in DRAM too where there is a cell (R55, R254). -/
theorem State.memWrite_of_dmaClaims {s : State} {a : DataAddr} (hbusy : s.busBusy = false) (h : s.dmaClaims a.toNat = true)
    (v : Byte) : s.memWrite a v = dmaSees (s.stored a v) a.toNat v := by
  have hclaimed : s.claimed a.toNat = true := by simp [State.claimed, h]
  simp only [State.memWrite, hbusy, hclaimed, Bool.or_true, Bool.false_eq_true, if_false, if_true, State.storeDram_eq]
  rfl

/-- What a store to a register makes of the controller (R254). -/
theorem dmaSees_register {s : State} {p : DmaParams} {a : DataAddr} {b : Byte} {d : Dma} (hp : s.params.dma = some p)
    (h : a = 0x0101 ∧ d = { s.dma with src := s.dma.src.extractLsb' 8 8 ++ b }
        ∨ a = 0x0102 ∧ d = { s.dma with src := b ++ s.dma.src.extractLsb' 0 8 }
        ∨ a = 0x0103 ∧ d = { s.dma with dst := s.dma.dst.extractLsb' 8 8 ++ b }
        ∨ a = 0x0104 ∧ d = { s.dma with dst := b ++ s.dma.dst.extractLsb' 0 8 }
        ∨ a = 0x0105 ∧ d = { s.dma with count := b }
        ∨ a = 0x0100 ∧ b = 0xFF ∧ dmaBlocksLegal s p = true ∧ d = { s.dma with phase := .busy }) :
    dmaSees s a.toNat b = .next (s.setDma d) := by
  rw [dmaSees, hp]
  rcases h with ⟨rfl, rfl⟩ | ⟨rfl, rfl⟩ | ⟨rfl, rfl⟩ | ⟨rfl, rfl⟩ | ⟨rfl, rfl⟩ | ⟨rfl, rfl, hlegal, rfl⟩
  case inr.inr.inr.inr.inr => exact (if_pos rfl).trans ((if_pos rfl).trans (if_pos hlegal))
  all_goals rfl

/-- A start that is not legal, or another value at the control address, is refused (R254; log 30). -/
theorem dmaSees_refused {s : State} {p : DmaParams} {a : DataAddr} {b : Byte} (hp : s.params.dma = some p) (ha : a = 0x0100) :
    (b = 0xFF → dmaBlocksLegal s p = false → dmaSees s a.toNat b = .refused .dmaBlocksIllegal)
      ∧ (b ≠ 0xFF → dmaSees s a.toNat b = .refused .dmaCommandUndescribed) := by
  have hsees : dmaSees s a.toNat b = dmaCommand s p b := by
    rw [dmaSees, hp, ha]
    exact if_pos rfl
  rw [hsees, dmaCommand]
  refine ⟨?_, fun hb => if_neg (by simpa using hb)⟩
  rintro rfl hlegal
  exact (if_pos rfl).trans (if_neg (by simp [hlegal]))

theorem State.dmaClaims_of_register {s : State} {p : DmaParams} {a : DataAddr} (hp : s.params.dma = some p)
    (h : a ∈ [0x0100, 0x0101, 0x0102, 0x0103, 0x0104, 0x0105]) : s.dmaClaims a.toNat = true := by
  have hrange : dmaBase ≤ a.toNat ∧ a.toNat < dmaBase + 6 := by
    simp only [List.mem_cons, List.not_mem_nil, or_false] at h
    rcases h with rfl | rfl | rfl | rfl | rfl | rfl <;> decide
  simp [State.dmaClaims, hp, hrange]

/-- Each of the storing instructions is a write and then, whatever that write did to data memory and to the controller, its
own new pc, sp and r_i. -/
theorem storing_spec {s : State} {v : RegNum} {i : PairIdx} {c : Instr} {a : DataAddr} {b : Byte} {pc' : ProgAddr}
    {sp' : DataAddr} {r' : Byte}
    (h : (c, a, b, pc', sp', r') ∈ [
      (Instr.stb v i, s.pair i, s.reg v, s.pc + 2, s.sp, s.reg (rNum i)),
      (.spb v i, s.pair i, s.reg v, s.pc + 2, s.sp, s.reg (rNum i) + 1),
      (.psh v, s.sp, s.reg v, s.pc + 1, s.sp - 1, s.reg (rNum i)),
      (.str, s.sp, s.sr.toByte, s.pc + 1, s.sp - 1, s.reg (rNum i))]) :
    ∃ (f : State → State) (regs : Vector Byte 16), exec c s = andThen (s.memWrite a b) (fun u => .next (f u))
      ∧ (∀ dram dma events, f { s with dram := dram, dma := dma, events := events }
        = { s with dram := dram, dma := dma, events := events, regs := regs, pc := pc', sp := sp' })
      ∧ SameRegsBut [rNum i] s { s with regs := regs } ∧ ({ s with regs := regs } : State).reg (rNum i) = r' := by
  have hpush : ∀ x : Byte, andThen (s.push x) (fun u => .next (u.advance 1))
      = andThen (s.memWrite s.sp x) (fun u => .next ((u.setSp (s.sp - 1)).advance 1)) := fun x => by
    rw [State.push]
    cases s.memWrite s.sp x <;> rfl
  have hkept : SameRegsBut [rNum i] s s := fun _ _ => rfl
  simp only [List.mem_cons, List.not_mem_nil, or_false, Prod.mk.injEq] at h
  rcases h with ⟨rfl, rfl, rfl, rfl, rfl, rfl⟩ | ⟨rfl, rfl, rfl, rfl, rfl, rfl⟩ | ⟨rfl, rfl, rfl, rfl, rfl, rfl⟩
    | ⟨rfl, rfl, rfl, rfl, rfl, rfl⟩
  · exact ⟨_, s.regs, rfl, fun _ _ _ => rfl, hkept, rfl⟩
  · exact ⟨_, (s.stepPair i).regs, rfl, fun _ _ _ => rfl, sameRegsBut_setReg s _ _, State.reg_setReg_same s _ _⟩
  · exact ⟨_, s.regs, hpush _, fun _ _ _ => rfl, hkept, rfl⟩
  · exact ⟨_, s.regs, hpush _, fun _ _ _ => rfl, hkept, rfl⟩

/-- Settles O59: the write is seen by the controller, which takes the byte, starts or refuses; then `storing_spec`. -/
theorem dmaRegisterStores : Obligations.DmaRegisterStores := by
  intro s p v i c a b pc' sp' r' h hp hbusy
  obtain ⟨f, regs, hexec, hf, hregs, hr⟩ := storing_spec h
  refine ⟨fun d hd => ?goesThrough, fun ha => ?refused⟩
  case goesThrough =>
    have hclaims : s.dmaClaims a.toNat = true := State.dmaClaims_of_register hp (by
      rcases hd with ⟨rfl, -⟩ | ⟨rfl, -⟩ | ⟨rfl, -⟩ | ⟨rfl, -⟩ | ⟨rfl, -⟩ | ⟨rfl, -⟩ <;> simp)
    have hwrite : s.memWrite a b = .next ((s.stored a b).setDma d) :=
      (State.memWrite_of_dmaClaims hbusy hclaims b).trans (dmaSees_register (s := s.stored a b) hp hd)
    refine ⟨_, hexec.trans ((andThen_of_next hwrite _).trans (congrArg Host.Outcome.next (hf _ _ _))), rfl, ?_, rfl,
      sameButData_access s _ _ _ _ _ _ _ _, hregs, hr, rfl, rfl, rfl⟩
    exact s.stored_read a b
  case refused =>
    have hwrite := State.memWrite_of_dmaClaims hbusy (State.dmaClaims_of_register hp (List.mem_cons.2 (.inl ha))) b
    obtain ⟨hillegal, hother⟩ := dmaSees_refused (s := s.stored a b) (b := b) hp ha
    refine ⟨fun hb hlegal => ?_, fun hb => ?_⟩
    · rw [hexec, hwrite, hillegal hb hlegal, andThen_refused]
    · rw [hexec, hwrite, hother hb, andThen_refused]

/-! The end of a transfer. -/

theorem pinDmaDone_of_busy {s : State} {p : DmaParams} (hp : s.params.dma = some p) (hbusy : s.dma.phase = .busy) :
    pinDmaDone s = { s with
      dram := s.dram.copy s.dma.src.toNat s.dma.dst.toNat (dmaBytes p s.dma.count)
      dma := { s.dma with phase := .done, irq := true } } := by
  simp only [pinDmaDone, hp, hbusy]
  rfl

/-- The entry of its interrupt frees the bus of a controller whose transfer is over (R255). -/
theorem State.takeInterrupt_busBusy {s : State} {p : DmaParams} (hp : s.params.dma = some p) (hdone : s.dma.phase = .done)
    (htaken : s.busTaken = false) : (s.takeInterrupt p.line).busBusy = false := by
  have hentered : dmaEntered s p.line = { s.dma with phase := .idle } := by
    simp [dmaEntered, hp, hdone]
  simp [State.busBusy, State.dmaBars, hentered, htaken]

/-- Settles O60: `read_copy` for the block, the irq on the controller's line, and the entry that frees the bus. -/
theorem dmaTransfer : Obligations.DmaTransfer := by
  intro s u p hsample hp hbusy _ htaken
  have hstep : step s = .next (pinDmaDone u) := step_of_sample_some hsample
  rw [pinDmaDone_of_busy hp hbusy] at hstep
  refine ⟨_, hstep, fun x => ?cells, rfl, rfl, rfl, rfl, rfl, sameButData_access u _ _ _ _ _ _ _ _, rfl, fun hie => ?irq, rfl,
    ?busy, State.takeInterrupt_busBusy hp rfl htaken⟩
  case cells =>
    rw [← Nat.shiftLeft_eq]
    exact Memory.read_copy _ _ _ _ x
  case irq => exact (effectiveRequests _ _).2 ⟨hie, .inr ⟨p, hp, rfl, rfl⟩⟩
  case busy => simp [State.busBusy, State.dmaBars, hp]

end Sys2Proof.Machine
end

section
/-! The functions that the ISEs compute (42_aluc_ise.md section 5): the AES S-box and its inverse, MixColumns and its inverse, the
GIFT-128 S-box and permutation and theirs. -/

namespace Sys2Proof.Machine

/-! The AES S-box. -/

/-- The inverse in GF(2^8), and zero for zero: the 254th power (R173). -/
def gfInv (v : Byte) : Byte :=
  let v2 := gfProduct v v
  let v4 := gfProduct v2 v2
  let v8 := gfProduct v4 v4
  let v16 := gfProduct v8 v8
  let v32 := gfProduct v16 v16
  let v64 := gfProduct v32 v32
  gfProduct (gfProduct (gfProduct v2 v4) (gfProduct v8 v16)) (gfProduct (gfProduct v32 v64) (gfProduct v64 v64))

theorem gfProduct_gfInv (v : Byte) : v = 0 ∧ gfInv v = 0 ∨ gfProduct (gfInv v) v = 1 := by
  revert v
  decide +kernel

theorem aesSbox_eq_affine_gfInv (v : Byte) :
    aesSbox v = gfInv v ^^^ (gfInv v).rotateLeft 1 ^^^ (gfInv v).rotateLeft 2 ^^^ (gfInv v).rotateLeft 3
      ^^^ (gfInv v).rotateLeft 4 ^^^ 0x63 := by
  revert v
  decide +kernel

theorem aesSboxInv_inverse (v : Byte) : aesSboxInv (aesSbox v) = v ∧ aesSbox (aesSboxInv v) = v := by
  revert v
  decide +kernel

/-- Settles O42: the inverse is the 254th power. -/
theorem aesSboxes : Obligations.AesSboxes :=
  fun v => ⟨⟨gfInv v, gfProduct_gfInv v, aesSbox_eq_affine_gfInv v⟩, aesSboxInv_inverse v⟩

/-! The columns. -/

/-- An entry of the product of two matrices over GF(2^8), times a byte: a row of the outer matrix by a column of the inner. -/
def gfEntry (c0 c1 c2 c3 d0 d1 d2 d3 : BitVec 4) (v : Byte) : Byte :=
  gfMul c0 (gfMul d0 v) ^^^ gfMul c1 (gfMul d1 v) ^^^ gfMul c2 (gfMul d2 v) ^^^ gfMul c3 (gfMul d3 v)

/-- A row of the outer matrix, of a column of rows of the inner one: the multiplication is linear. -/
theorem gfRow_gfRow (c0 c1 c2 c3 d00 d01 d02 d03 d10 d11 d12 d13 d20 d21 d22 d23 d30 d31 d32 d33 : BitVec 4) (s : Column) :
    gfRow c0 c1 c2 c3 ⟨gfRow d00 d01 d02 d03 s, gfRow d10 d11 d12 d13 s, gfRow d20 d21 d22 d23 s, gfRow d30 d31 d32 d33 s⟩
      = gfEntry c0 c1 c2 c3 d00 d10 d20 d30 s.b0 ^^^ gfEntry c0 c1 c2 c3 d01 d11 d21 d31 s.b1
        ^^^ gfEntry c0 c1 c2 c3 d02 d12 d22 d32 s.b2 ^^^ gfEntry c0 c1 c2 c3 d03 d13 d23 d33 s.b3 := by
  simp only [gfRow, gfEntry, gfMul_xor, BitVec.xor_assoc, xor_left_comm_bits]

theorem gfEntry_rotate (c0 c1 c2 c3 d0 d1 d2 d3 : BitVec 4) (v : Byte) :
    gfEntry c3 c0 c1 c2 d3 d0 d1 d2 v = gfEntry c0 c1 c2 c3 d0 d1 d2 d3 v := by
  simp only [gfEntry, BitVec.xor_assoc, BitVec.xor_comm, xor_left_comm_bits]

/-- The map of a column by the circulant matrix of a row (R174). -/
def circulant (c0 c1 c2 c3 : BitVec 4) (s : Column) : Column :=
  ⟨gfRow c0 c1 c2 c3 s, gfRow c3 c0 c1 c2 s, gfRow c2 c3 c0 c1 s, gfRow c1 c2 c3 c0 s⟩

theorem mixColumn_eq_circulant (s : Column) : mixColumn s = circulant 2 3 1 1 s := rfl

theorem mixColumnInv_eq_circulant (s : Column) : mixColumnInv s = circulant 14 11 13 9 s := rfl

/-- Two circulant matrices whose product has the first row 1 0 0 0 undo each other: its other rows are rotations of the first. -/
theorem circulant_circulant {c0 c1 c2 c3 d0 d1 d2 d3 : BitVec 4}
    (h : ∀ v, gfEntry c0 c1 c2 c3 d0 d3 d2 d1 v = v ∧ gfEntry c0 c1 c2 c3 d1 d0 d3 d2 v = 0
      ∧ gfEntry c0 c1 c2 c3 d2 d1 d0 d3 v = 0 ∧ gfEntry c0 c1 c2 c3 d3 d2 d1 d0 v = 0) (s : Column) :
    circulant c0 c1 c2 c3 (circulant d0 d1 d2 d3 s) = s := by
  simp only [forall_and] at h
  obtain ⟨diagonal, off1, off2, off3⟩ := h
  simp [circulant, gfRow_gfRow, gfEntry_rotate c0 c1 c2 c3, gfEntry_rotate c3 c0 c1 c2, gfEntry_rotate c2 c3 c0 c1, diagonal,
    off1, off2, off3]

theorem mixColumnInv_entries (v : Byte) : gfEntry 14 11 13 9 2 1 1 3 v = v ∧ gfEntry 14 11 13 9 3 2 1 1 v = 0
    ∧ gfEntry 14 11 13 9 1 3 2 1 v = 0 ∧ gfEntry 14 11 13 9 1 1 3 2 v = 0 := by
  revert v
  decide +kernel

theorem mixColumn_entries (v : Byte) : gfEntry 2 3 1 1 14 9 13 11 v = v ∧ gfEntry 2 3 1 1 11 14 9 13 v = 0
    ∧ gfEntry 2 3 1 1 13 11 14 9 v = 0 ∧ gfEntry 2 3 1 1 9 13 11 14 v = 0 := by
  revert v
  decide +kernel

/-- Settles O44: the two matrices are circulant. -/
theorem mixColumnsInverse : Obligations.MixColumnsInverse := by
  intro c
  simp only [mixColumn_eq_circulant, mixColumnInv_eq_circulant]
  exact ⟨circulant_circulant mixColumnInv_entries c, circulant_circulant mixColumn_entries c⟩

/-! The GIFT functions. -/

theorem giftSboxInvByte_giftSboxByte (v : Byte) : giftSboxInvByte (giftSboxByte v) = v := by
  revert v
  decide +kernel

/-- P moves no two bits to the same place of the block. -/
theorem giftP_inj : ∀ i < 128, ∀ j < 128, giftP i = giftP j → i = j := by
  decide +kernel

theorem giftP_lt : ∀ i < 128, giftP i < 128 := by
  decide +kernel

theorem getLsbD_giftPerm (v : BitVec 128) (i : Nat) (hi : i < 128) : (giftPerm v).getLsbD (giftP i) = v.getLsbD i := by
  have hbit : (giftPerm v).getLsbD (giftP i) = (List.range 128).any fun k => giftP k == giftP i && v.getLsbD k := by
    simp [giftPerm, giftP_lt i hi]
  rw [hbit, Bool.eq_iff_iff, List.any_eq_true]
  constructor
  · rintro ⟨k, hk, h⟩
    obtain ⟨hp, hv⟩ := Bool.and_eq_true_iff.1 h
    exact giftP_inj k (List.mem_range.1 hk) i hi (beq_iff_eq.1 hp) ▸ hv
  · exact fun h => ⟨i, List.mem_range.2 hi, by simp [h]⟩

theorem giftPermInv_giftPerm (v : BitVec 128) : giftPermInv (giftPerm v) = v := by
  apply BitVec.eq_of_getLsbD_eq
  intro i hi
  have hbit : (giftPermInv (giftPerm v)).getLsbD i = (giftPerm v).getLsbD (giftP i) := by
    simp [giftPermInv, hi]
  rw [hbit, getLsbD_giftPerm v i hi]

end Sys2Proof.Machine
end

section
/-! The calls of the ISEs (42_aluc_ise.md sections 1 to 4): what the generic aluc instruction gives and leaves alone, and each call of
each sequence. -/

namespace Sys2Proof.Machine

/-! The generic aluc instruction. -/

/-- The end of an aluc instruction, once its ISE has gone on: `u` differs from `s` in the states of the ISEs only (R164). -/
theorem finishAluc_spec {s u : State}
    (hu : ∃ amc aic swd gsp gip, u = { s with amc := amc, aic := aic, swd := swd, gsp := gsp, gip := gip })
    (d : RegNum) (result : Byte) (c : IseCall) :
    ∃ t, finishAluc d result c u = .next t ∧ AlucFrame d s t ∧ t.reg d = result ∧ SameIses u t := by
  obtain ⟨_, _, _, _, _, rfl⟩ := hu
  exact ⟨_, rfl, ⟨rfl, rfl, sameRegsBut_setReg s d result, ⟨rfl, rfl, rfl, rfl, rfl, rfl, rfl⟩, ⟨fun _ => rfl, fun _ => rfl⟩,
    ⟨rfl, rfl, rfl, rfl, rfl, rfl, rfl, rfl⟩⟩, s.reg_setReg_same d result, ⟨rfl, rfl, rfl, rfl, rfl⟩⟩

/-- Settles O41: an ISE of one call has no state. -/
theorem asbAndAib : Obligations.AsbAndAib := by
  intro rs d s
  have ends : ∀ (v : Byte) (c : IseCall), ∃ t, finishAluc d v c s = .next t ∧ t.reg d = v ∧ AlucFrame d s t ∧ SameIses s t := by
    intro v c
    obtain ⟨t, ht, hframe, hd, hises⟩ := finishAluc_spec (s := s) ⟨_, _, _, _, _, rfl⟩ d v c
    exact ⟨t, ht, hd, hframe, hises⟩
  exact ⟨ends _ _, ends _ _⟩

/-! amc and aic. -/

/-- The five calls of a column function, by the counter (R168, R169). -/
theorem mixCall_spec (f : Column → Column) (st : MixIse) (a b free : Byte) :
    (st.cnt = 0 → (mixCall f st a b free).2.cnt = 1 ∧ (mixCall f st a b free).2.inp.b0 = a
        ∧ (mixCall f st a b free).2.inp.b1 = b)
      ∧ (st.cnt = 1 → (mixCall f st a b free).2.cnt = 2 ∧ (mixCall f st a b free).2.out = f ⟨st.inp.b0, st.inp.b1, a, b⟩
          ∧ (mixCall f st a b free).1 = (mixCall f st a b free).2.out.b3)
      ∧ (st.cnt = 2 → (mixCall f st a b free).2.cnt = 3 ∧ (mixCall f st a b free).2.out = st.out
          ∧ (mixCall f st a b free).1 = st.out.b2)
      ∧ (st.cnt = 3 → (mixCall f st a b free).2.cnt = 4 ∧ (mixCall f st a b free).2.out = st.out
          ∧ (mixCall f st a b free).1 = st.out.b1)
      ∧ (st.cnt = 4 → (mixCall f st a b free).2.cnt = 0 ∧ (mixCall f st a b free).1 = st.out.b0) := by
  obtain ⟨cnt, inp, out⟩ := st
  refine ⟨?_, ?_, ?_, ?_, ?_⟩
  all_goals
    rintro rfl
    simp [mixCall]

theorem exec_amc (rs d : RegNum) (s : State) : ∃ free t, exec (.amc rs d) s = .next t ∧ AlucFrame d s t
    ∧ t.reg d = (mixCall mixColumn s.amc (s.reg rs) (s.reg d) free).1
    ∧ SameIses (s.setAmc (mixCall mixColumn s.amc (s.reg rs) (s.reg d) free).2) t :=
  ⟨_, finishAluc_spec ⟨_, _, _, _, _, rfl⟩ d _ _⟩

theorem exec_aic (rs d : RegNum) (s : State) : ∃ free t, exec (.aic rs d) s = .next t ∧ AlucFrame d s t
    ∧ t.reg d = (mixCall mixColumnInv s.aic (s.reg rs) (s.reg d) free).1
    ∧ SameIses (s.setAic (mixCall mixColumnInv s.aic (s.reg rs) (s.reg d) free).2) t :=
  ⟨_, finishAluc_spec ⟨_, _, _, _, _, rfl⟩ d _ _⟩

/-- Settles O43: the two instructions hand their operands to the call and its result to the register. -/
theorem mixColumnCalls : Obligations.MixColumnCalls := by
  intro rs d s
  constructor
  · obtain ⟨free, t, ht, hframe, hd, hamc, haic, hswd, hgsp, hgip⟩ := exec_amc rs d s
    refine ⟨t, ht, hframe, haic, hswd, hgsp, hgip, ?_⟩
    rw [hamc, hd]
    exact mixCall_spec mixColumn s.amc _ _ free
  · obtain ⟨free, t, ht, hframe, hd, hamc, haic, hswd, hgsp, hgip⟩ := exec_aic rs d s
    refine ⟨t, ht, hframe, hamc, hswd, hgsp, hgip, ?_⟩
    rw [haic, hd]
    exact mixCall_spec mixColumnInv s.aic _ _ free

/-! The bytes of a word. -/

theorem getByte_byte (b : Byte) : getByte b 0 = b := BitVec.extractLsb'_eq_self

theorem getByte_append {w m n : Nat} (hm : m = 8 * n) (x : BitVec w) (y : BitVec m) (k : Nat) :
    getByte (x ++ y) k = if k < n then getByte y k else getByte x (k - n) := by
  apply BitVec.eq_of_getLsbD_eq
  intro i hi
  by_cases h : k < n
  · simp [getByte, BitVec.getLsbD_append, hi, h, show 8 * k + i < m by omega]
  · simp [getByte, BitVec.getLsbD_append, hi, h, show ¬ 8 * k + i < m by omega, show 8 * k + i - m = 8 * (k - n) + i by omega]

theorem getByte_extractLsb' {w len j : Nat} (v : BitVec w) {start : Nat} (hstart : start = 8 * j) (k : Nat) (h : 8 * k + 8 ≤ len) :
    getByte (v.extractLsb' start len) k = getByte v (j + k) := by
  apply BitVec.eq_of_getLsbD_eq
  intro i hi
  simp [getByte, hi, show 8 * k + i < len by omega, show start + (8 * k + i) = 8 * (j + k) + i by omega]

/-- Two words with the same four bytes are the same. -/
theorem eq_of_fourBytes {u v : BitVec 32} (h : ∀ k < 4, getByte u k = getByte v k) : u = v := by
  apply BitVec.eq_of_getLsbD_eq
  intro i hi
  have := congrArg (fun b : Byte => b.getLsbD (i % 8)) (h (i / 8) (by omega))
  simpa [getByte, Nat.mod_lt, Nat.div_add_mod] using this

/-- The bytes of a word above which two bytes are put. -/
theorem getByte_append_two {w : Nat} (x : BitVec w) (b a : Byte) (k : Nat) :
    getByte (x ++ b ++ a) k = if k = 0 then a else if k = 1 then b else getByte x (k - 2) := by
  rw [getByte_append (n := 1) rfl, getByte_append (n := 1) rfl]
  match k with
  | 0 => simp [getByte_byte]
  | 1 => simp [getByte_byte]
  | k + 2 => simp

/-- A word with its low half replaced (R170, call 1). -/
theorem putByte_lowHalf (v : BitVec 32) (a b : Byte) : putByte (putByte v 0 a) 1 b = v.extractLsb' 16 16 ++ b ++ a := by
  refine eq_of_fourBytes fun k hk => ?_
  rw [getByte_append_two, getByte_putByte _ _ _ _ (by decide), getByte_putByte _ _ _ _ (by decide)]
  interval_cases k
  · rfl
  · rfl
  all_goals exact Eq.symm (getByte_extractLsb' v (j := 2) rfl _ (by decide))

/-- A word with its high half replaced (R170, call 2). -/
theorem putByte_highHalf (v : BitVec 32) (a b : Byte) : putByte (putByte v 2 a) 3 b = b ++ a ++ v.extractLsb' 0 16 := by
  refine eq_of_fourBytes fun k hk => ?_
  rw [getByte_append (n := 2) rfl, getByte_append (n := 1) rfl, getByte_putByte _ _ _ _ (by decide),
    getByte_putByte _ _ _ _ (by decide)]
  interval_cases k
  · exact Eq.symm (getByte_extractLsb' v (j := 0) rfl _ (by decide))
  · exact Eq.symm (getByte_extractLsb' v (j := 0) rfl _ (by decide))
  · exact (getByte_byte a).symm
  · exact (getByte_byte b).symm

/-- A word is its four bytes. -/
theorem append_getByte (v : BitVec 32) : getByte v 3 ++ getByte v 2 ++ getByte v 1 ++ getByte v 0 = v := by
  refine eq_of_fourBytes fun k hk => ?_
  rw [getByte_append_two, getByte_append (n := 1) rfl]
  interval_cases k
  · rfl
  · rfl
  · exact getByte_byte _
  · exact getByte_byte _

/-- Both halves replaced make a word of the four bytes (R170, calls 1 and 2). -/
theorem putByte_fourBytes (v : BitVec 32) (a1 b1 a2 b2 : Byte) :
    putByte (putByte (putByte (putByte v 0 a1) 1 b1) 2 a2) 3 b2 = b2 ++ a2 ++ b1 ++ a1 := by
  refine eq_of_fourBytes fun k hk => ?_
  rw [getByte_append_two, getByte_append (n := 1) rfl, getByte_putByte _ _ _ _ (by decide), getByte_putByte _ _ _ _ (by decide),
    getByte_putByte _ _ _ _ (by decide), getByte_putByte _ _ _ _ (by decide)]
  interval_cases k
  · rfl
  · rfl
  · exact (getByte_byte a2).symm
  · exact (getByte_byte b2).symm

/-! swd. -/

/-- The six calls of the rotation, by the counter (R170). -/
theorem rotCall_spec (st : RotIse) (a b free : Byte) :
    (st.cnt = 0 → (rotCall st a b free).2.cnt = 1 ∧ (rotCall st a b free).2.inp = st.inp.extractLsb' 16 16 ++ b ++ a)
      ∧ (st.cnt = 1 → (rotCall st a b free).2.cnt = 2 ∧ (rotCall st a b free).2.inp = b ++ a ++ st.inp.extractLsb' 0 16)
      ∧ (st.cnt = 2 → (rotCall st a b free).2.cnt = 3 ∧ (rotCall st a b free).2.out = st.inp.rotateLeft a.toNat
          ∧ (rotCall st a b free).1 = (rotCall st a b free).2.out.extractLsb' 24 8)
      ∧ (st.cnt = 3 → (rotCall st a b free).2.cnt = 4 ∧ (rotCall st a b free).2.out = st.out
          ∧ (rotCall st a b free).1 = st.out.extractLsb' 16 8)
      ∧ (st.cnt = 4 → (rotCall st a b free).2.cnt = 5 ∧ (rotCall st a b free).2.out = st.out
          ∧ (rotCall st a b free).1 = st.out.extractLsb' 8 8)
      ∧ (st.cnt = 5 → (rotCall st a b free).2.cnt = 0 ∧ (rotCall st a b free).1 = st.out.extractLsb' 0 8) := by
  obtain ⟨cnt, inp, out⟩ := st
  refine ⟨?_, ?_, ?_, ?_, ?_, ?_⟩
  all_goals rintro rfl
  · exact ⟨rfl, putByte_lowHalf inp a b⟩
  · exact ⟨rfl, putByte_highHalf inp a b⟩
  · exact ⟨rfl, rfl, rfl⟩
  · exact ⟨rfl, rfl, rfl⟩
  · exact ⟨rfl, rfl, rfl⟩
  · exact ⟨rfl, rfl⟩

theorem exec_swd (rs d : RegNum) (s : State) : ∃ free t, exec (.swd rs d) s = .next t ∧ AlucFrame d s t
    ∧ t.reg d = (rotCall s.swd (s.reg rs) (s.reg d) free).1 ∧ SameIses (s.setSwd (rotCall s.swd (s.reg rs) (s.reg d) free).2) t :=
  ⟨_, finishAluc_spec ⟨_, _, _, _, _, rfl⟩ d _ _⟩

/-- Settles O45: the instruction hands its operands to the call and the result to the register. -/
theorem swdCalls : Obligations.SwdCalls := by
  intro rs d s
  obtain ⟨free, t, ht, hframe, hd, hamc, haic, hswd, hgsp, hgip⟩ := exec_swd rs d s
  refine ⟨t, ht, hframe, hamc, haic, hgsp, hgip, ?_⟩
  rw [hswd, hd]
  exact rotCall_spec s.swd _ _ free

/-- Settles O46: the six calls, one after the other. -/
theorem swdSequence : Obligations.SwdSequence := by
  rintro ⟨cnt, inp, out⟩ o1 o2 o3 o4 o5 o6 rfl
  refine ⟨_, _, _, _, _, _, _, rfl, rfl, ?_⟩
  rw [← putByte_fourBytes inp o1.a o1.b o2.a o2.b]
  exact append_getByte _

end Sys2Proof.Machine
end

section
/-! The GIFT-128 ISEs (42_aluc_ise.md section 4): the 23 calls of gsp and gip, and that gip undoes gsp. -/

namespace Sys2Proof.Machine

/-! One call. -/

/-- The block with two bytes loaded at byte `2 * c` (R171, R172). -/
def loadPair (v : BitVec 128) (c : Nat) (a b : Byte) : BitVec 128 := putByte (putByte v (2 * c) a) (2 * c + 1) b

theorem getByte_loadPair (v : BitVec 128) {c : Nat} (hc : c < 8) (a b : Byte) (j : Nat) :
    getByte (loadPair v c a b) j = if j = 2 * c + 1 then b else if j = 2 * c then a else getByte v j := by
  rw [loadPair, getByte_putByte _ _ _ _ (by omega), getByte_putByte _ _ _ _ (by omega)]

section
variable (load : Byte → Byte) (perm : BitVec 128 → BitVec 128) (unload : Byte → Byte) (st : GiftIse) (a b free : Byte)

/-- Calls 1 to 7. -/
theorem giftCall_load (h : st.cnt.val < 7) : giftCall load perm unload st a b free
    = (free, { st with cnt := st.cnt + 1, inp := loadPair st.inp st.cnt.val (load a) (load b) }) := by
  rw [giftCall, if_pos h, loadPair]

/-- Call 8. -/
theorem giftCall_permute (h : st.cnt.val = 7) : giftCall load perm unload st a b free
    = (unload (getByte (perm (loadPair st.inp 7 (load a) (load b))) 15),
      { cnt := 8, inp := loadPair st.inp 7 (load a) (load b), out := perm (loadPair st.inp 7 (load a) (load b)) }) := by
  simp only [giftCall, h, loadPair, if_neg (Nat.lt_irrefl 7), if_true]

/-- Calls 9 to 23. -/
theorem giftCall_unload (h : 8 ≤ st.cnt.val) : giftCall load perm unload st a b free
    = (unload (getByte st.out (22 - st.cnt.val)), { st with cnt := st.cnt + 1 }) := by
  rw [giftCall, if_neg (by omega), if_neg (by omega)]

/-- The counter of 23 values goes on by one. -/
theorem cnt_succ_val (c : Fin 23) : (c + 1).val = (c.val + 1) % 23 := rfl

/-- Every call, as O47 says it. -/
theorem giftCall_spec :
    (giftCall load perm unload st a b free).2.cnt.val = (st.cnt.val + 1) % 23
      ∧ (st.cnt.val < 8 → getByte (giftCall load perm unload st a b free).2.inp (2 * st.cnt.val) = load a
          ∧ getByte (giftCall load perm unload st a b free).2.inp (2 * st.cnt.val + 1) = load b
          ∧ ∀ j, j < 2 * st.cnt.val → getByte (giftCall load perm unload st a b free).2.inp j = getByte st.inp j)
      ∧ (st.cnt.val = 7 → (giftCall load perm unload st a b free).2.out = perm (giftCall load perm unload st a b free).2.inp
          ∧ (giftCall load perm unload st a b free).1 = unload (getByte (giftCall load perm unload st a b free).2.out 15))
      ∧ (8 ≤ st.cnt.val → (giftCall load perm unload st a b free).2.out = st.out
          ∧ (giftCall load perm unload st a b free).1 = unload (getByte st.out (22 - st.cnt.val))) := by
  have loaded (hc : st.cnt.val < 8) : getByte (loadPair st.inp st.cnt.val (load a) (load b)) (2 * st.cnt.val) = load a
      ∧ getByte (loadPair st.inp st.cnt.val (load a) (load b)) (2 * st.cnt.val + 1) = load b
      ∧ ∀ j, j < 2 * st.cnt.val → getByte (loadPair st.inp st.cnt.val (load a) (load b)) j = getByte st.inp j := by
    simp only [getByte_loadPair st.inp hc]
    refine ⟨by simp, by simp, fun j hj => ?_⟩
    rw [if_neg (by omega), if_neg (by omega)]
  rcases lt_trichotomy st.cnt.val 7 with h | h | h
  · rw [giftCall_load load perm unload st a b free h]
    exact ⟨rfl, loaded, fun h' => by omega, fun h' => by omega⟩
  · rw [giftCall_permute load perm unload st a b free h]
    exact ⟨by simp [h], fun hc => h ▸ loaded hc, fun _ => ⟨rfl, rfl⟩, fun h' => by omega⟩
  · rw [giftCall_unload load perm unload st a b free h]
    exact ⟨rfl, fun h' => by omega, fun h' => by omega, fun _ => ⟨rfl, rfl⟩⟩

end

theorem exec_gsp (rs d : RegNum) (s : State) : ∃ free t, exec (.gsp rs d) s = .next t ∧ AlucFrame d s t
    ∧ t.reg d = (giftCall giftSboxByte giftPerm id s.gsp (s.reg rs) (s.reg d) free).1
    ∧ SameIses (s.setGsp (giftCall giftSboxByte giftPerm id s.gsp (s.reg rs) (s.reg d) free).2) t :=
  ⟨_, finishAluc_spec ⟨_, _, _, _, _, rfl⟩ d _ _⟩

theorem exec_gip (rs d : RegNum) (s : State) : ∃ free t, exec (.gip rs d) s = .next t ∧ AlucFrame d s t
    ∧ t.reg d = (giftCall id giftPermInv giftSboxInvByte s.gip (s.reg rs) (s.reg d) free).1
    ∧ SameIses (s.setGip (giftCall id giftPermInv giftSboxInvByte s.gip (s.reg rs) (s.reg d) free).2) t :=
  ⟨_, finishAluc_spec ⟨_, _, _, _, _, rfl⟩ d _ _⟩

/-- Settles O47: the two instructions hand their operands to the call and its result to the register. -/
theorem giftCalls : Obligations.GiftCalls := by
  intro rs d s
  constructor
  · obtain ⟨free, t, ht, hframe, hd, hamc, haic, hswd, hgsp, hgip⟩ := exec_gsp rs d s
    refine ⟨t, ht, hframe, hamc, haic, hswd, hgip, ?_⟩
    rw [hgsp, hd]
    exact giftCall_spec giftSboxByte giftPerm id s.gsp _ _ free
  · obtain ⟨free, t, ht, hframe, hd, hamc, haic, hswd, hgsp, hgip⟩ := exec_gip rs d s
    refine ⟨t, ht, hframe, hamc, haic, hswd, hgsp, ?_⟩
    rw [hgip, hd]
    exact giftCall_spec id giftPermInv giftSboxInvByte s.gip _ _ free

/-! Whole sequences. -/

theorem iseSequence_append {σ : Type} (call : σ → Byte → Byte → Byte → Byte × σ) (st : σ) (os qs : List IseOperands) :
    iseSequence call st (os ++ qs)
      = ((iseSequence call st os).1 ++ (iseSequence call (iseSequence call st os).2 qs).1,
        (iseSequence call (iseSequence call st os).2 qs).2) := by
  induction os generalizing st with
  | nil => rfl
  | cons o os ih => simp [iseSequence, ih]

/-- A block into which two bytes of `x` are loaded. -/
def loadBytes (load : Byte → Byte) (x : Fin 16 → Byte) (v : BitVec 128) (j : Fin 8) : BitVec 128 :=
  loadPair v j (load (x ⟨2 * j, by omega⟩)) (load (x ⟨2 * j + 1, by omega⟩))

/-- The block once all sixteen bytes are loaded. -/
def loadBlock (load : Byte → Byte) (x : Fin 16 → Byte) (v : BitVec 128) : BitVec 128 := (List.finRange 8).foldl (loadBytes load x) v

/-- The operands of the eight calls that load the bytes of a block. -/
def blockOperands (x : Fin 16 → Byte) (free : Byte) : List IseOperands :=
  (List.finRange 8).map fun j : Fin 8 => ⟨x ⟨2 * j, by omega⟩, x ⟨2 * j + 1, by omega⟩, free⟩

theorem getByte_loadBytes (load : Byte → Byte) (x : Fin 16 → Byte) (v : BitVec 128) (j : Fin 8) (k : Fin 16) :
    getByte (loadBytes load x v j) k = if k.val / 2 = j.val then load (x k) else getByte v k := by
  rw [loadBytes, getByte_loadPair v j.isLt]
  by_cases hodd : k.val = 2 * j.val + 1
  · rw [if_pos hodd, if_pos (by omega)]
    exact congrArg (fun i => load (x i)) (Fin.ext hodd.symm)
  · rw [if_neg hodd]
    by_cases heven : k.val = 2 * j.val
    · rw [if_pos heven, if_pos (by omega)]
      exact congrArg (fun i => load (x i)) (Fin.ext heven.symm)
    · rw [if_neg heven, if_neg (by omega)]

theorem getByte_foldl_loadBytes (load : Byte → Byte) (x : Fin 16 → Byte) (js : List (Fin 8)) (v : BitVec 128) (k : Fin 16) :
    getByte (js.foldl (loadBytes load x) v) k = if ⟨k.val / 2, by omega⟩ ∈ js then load (x k) else getByte v k := by
  induction js generalizing v with
  | nil => simp
  | cons j js ih =>
    rw [List.foldl_cons, ih, getByte_loadBytes]
    by_cases hj : k.val / 2 = j.val <;> simp [List.mem_cons, Fin.ext_iff, hj]

theorem getByte_loadBlock (load : Byte → Byte) (x : Fin 16 → Byte) (v : BitVec 128) (k : Fin 16) :
    getByte (loadBlock load x v) k = load (x k) := by
  rw [loadBlock, getByte_foldl_loadBytes, if_pos (List.mem_finRange _)]

section
variable (load : Byte → Byte) (perm : BitVec 128 → BitVec 128) (unload : Byte → Byte)

theorem iseSequence_giftCall_load (x : Fin 16 → Byte) (v w : BitVec 128) (free : Byte) :
    iseSequence (giftCall load perm unload) ⟨0, v, w⟩ (blockOperands x free)
      = (List.replicate 7 free ++ [unload (getByte (perm (loadBlock load x v)) 15)],
        ⟨8, loadBlock load x v, perm (loadBlock load x v)⟩) :=
  rfl

/-- The last `n` calls return the last `n` bytes, downwards. -/
theorem iseSequence_giftCall_unload {n : Nat} (rest : List IseOperands) (hrest : rest.length = n) (hn : n ≤ 15) (st : GiftIse)
    (hcnt : st.cnt.val = (23 - n) % 23) : iseSequence (giftCall load perm unload) st rest
      = ((List.finRange n).map fun j => unload (getByte st.out j.rev), { st with cnt := 0 }) := by
  subst hrest
  induction rest generalizing st with
  | nil =>
    obtain ⟨cnt, inp, out⟩ := st
    obtain rfl : cnt = 0 := Fin.ext hcnt
    rfl
  | cons o rest ih =>
    rw [List.length_cons] at hn hcnt
    have hcall := giftCall_unload load perm unload st o.a o.b o.free (by omega)
    have hnext := ih { st with cnt := st.cnt + 1 } (by omega) (by rw [cnt_succ_val]; omega)
    have hbyte : 22 - st.cnt.val = rest.length := by omega
    simp [iseSequence, hcall, hnext, hbyte, List.finRange_succ]

/-- A whole sequence: the loads' free values, then the bytes of the permuted block, the last first (R171, R172). -/
theorem iseSequence_giftCall (x : Fin 16 → Byte) (st : GiftIse) (free : Byte) (rest : List IseOperands) (hcnt : st.cnt = 0)
    (hrest : rest.length = 15) : ∃ st', st'.cnt = 0 ∧ iseSequence (giftCall load perm unload) st (blockOperands x free ++ rest)
      = (List.replicate 7 free ++ (List.finRange 16).map fun j => unload (getByte (perm (loadBlock load x st.inp)) j.rev), st') := by
  obtain ⟨cnt, v, w⟩ := st
  obtain rfl : cnt = 0 := hcnt
  refine ⟨⟨0, loadBlock load x v, perm (loadBlock load x v)⟩, rfl, ?_⟩
  rw [iseSequence_append, iseSequence_giftCall_load, iseSequence_giftCall_unload load perm unload rest hrest le_rfl _ rfl,
    List.finRange_succ (n := 15)]
  simp

end

/-- Settles O48: the block that gip loads is the one that gsp has permuted. -/
theorem gipUndoesGsp : Obligations.GipUndoesGsp := by
  intro x sp ip free rest hsp hip hrest
  obtain ⟨sp', hspcnt, hgsp⟩ := iseSequence_giftCall giftSboxByte giftPerm id x sp free rest hsp hrest
  generalize hpermuted : giftPerm (loadBlock giftSboxByte x sp.inp) = permuted at hgsp
  obtain ⟨ip', hipcnt, hgip⟩ :=
    iseSequence_giftCall id giftPermInv giftSboxInvByte (fun k => getByte permuted k) ip free rest hip hrest
  have hloaded : loadBlock id (fun k => getByte permuted k) ip.inp = permuted :=
    eq_of_getByte _ _ fun j hj => getByte_loadBlock id _ _ ⟨j, hj⟩
  rw [hloaded, ← hpermuted, giftPermInv_giftPerm, hpermuted] at hgip
  simp only [getByte_loadBlock, giftSboxInvByte_giftSboxByte] at hgip
  exact ⟨_, fun k => getByte permuted k, _, sp', ip', List.length_replicate, List.length_replicate, hgsp, hgip, hspcnt, hipcnt⟩

end Sys2Proof.Machine
end
